-- ==== Sys2Proof/Word.lean ====
section
/-! DEFINITION. The word types of the block: bytes, 32-bit words and byte sequences (00_scope.md R10-R13). -/

namespace Sys2Proof

/-- One byte; bit 7 is its most significant bit (R10). -/
abbrev Byte := BitVec 8

/-- A 32-bit CSR, offset, counter or CRC value (R9). -/
abbrev Word := BitVec 32

/-- A finite sequence of bytes (R13). -/
abbrev Bytes := List Byte

end Sys2Proof
end

