-- ==== Sys2Proof/Syntax.lean ====
section
/-! DEFINITION. The instructions: one constructor per row of spec/opcode_table.json (30_encoding.md R130), with the
classes and loops their dispatch depends on. -/

namespace Sys2Proof

/-- The class codes of R57 that can be stored. Codes 4 and 5 are never stored, so no constructor stands for them. -/
inductive TableClass where
  /-- 0. -/
  | pat
  /-- 1. -/
  | nit
  /-- 2. -/
  | sdt
  /-- 3. -/
  | eit
  /-- 6: no decode at all. -/
  | none
  /-- 7: header and CRC only, any table_id. -/
  | any
  deriving DecidableEq, Repr

/-- The descriptor loops of R146. -/
inductive DescLoop where
  /-- NIT_NET: the NIT network descriptors. -/
  | nitNet
  /-- NIT_TS: a NIT transport-stream record's descriptors. -/
  | nitTs
  /-- SDT_SVC: an SDT service record's descriptors. -/
  | sdtSvc
  /-- EIT_EVT: an EIT event's descriptors. -/
  | eitEvt
  deriving DecidableEq, Repr

/-- The rows of spec/opcode_table.json. A constructor's arguments are the bits its row's mask leaves free (and, for
the two rows of loop `any`, the loop). Everything else an instruction works on is a CSR of the snapshot (R131) or a
working value of the section decoder (R64). -/
inductive Instr where
  /-- NOP (R181). -/
  | nop
  /-- FIND_SYNC (R220). -/
  | findSync
  /-- PARSE (R221). -/
  | parse
  /-- RUN (R270). -/
  | run
  /-- DECODE (R320). -/
  | decode
  /-- CRC (R360). -/
  | crc
  /-- RESERVED_CMD_6_7 (R180): OP = 0x6 + `low`. -/
  | reservedCmd67 (low : BitVec 1)
  /-- RESERVED_CMD_8_F (R180): OP = 0x8 + `low`. -/
  | reservedCmd8F (low : BitVec 3)
  /-- TBL_PAT, table_id 0x00 (R380). -/
  | tblPat
  /-- TBL_NIT_ACT, table_id 0x40 (R385). -/
  | tblNitAct
  /-- TBL_NIT_OTH, table_id 0x41 (R385). -/
  | tblNitOth
  /-- TBL_SDT_ACT, table_id 0x42 (R395). -/
  | tblSdtAct
  /-- TBL_SDT_OTH, table_id 0x46 (R395). -/
  | tblSdtOth
  /-- TBL_EIT_PF_ACT, table_id 0x4E (R405). -/
  | tblEitPfAct
  /-- TBL_EIT_PF_OTH, table_id 0x4F (R405). -/
  | tblEitPfOth
  /-- TBL_EIT_SCH_ACT, table_id 0x50 + `low` (R405). -/
  | tblEitSchAct (low : BitVec 4)
  /-- TBL_EIT_SCH_OTH, table_id 0x60 + `low` (R405). -/
  | tblEitSchOth (low : BitVec 4)
  /-- DESC_NETWORK_NAME, tag 0x40 in NIT_NET (R460). -/
  | descNetworkName
  /-- DESC_SERVICE_LIST, tag 0x41 in NIT_TS (R462). -/
  | descServiceList
  /-- DESC_SERVICE, tag 0x48 in SDT_SVC (R465). -/
  | descService
  /-- DESC_SHORT_EVENT, tag 0x4D in EIT_EVT (R470). -/
  | descShortEvent
  /-- DESC_EXTENDED_EVENT, tag 0x4E in EIT_EVT (R473). -/
  | descExtendedEvent
  /-- DESC_CONTENT, tag 0x54 in EIT_EVT (R476). -/
  | descContent
  /-- DESC_SKIP_50, tag 0x50 in EIT_EVT (R480). -/
  | descSkip50
  /-- DESC_SKIP_55, tag 0x55 in EIT_EVT (R480). -/
  | descSkip55
  /-- DESC_SKIP_69, tag 0x69 in EIT_EVT (R480). -/
  | descSkip69
  /-- DESC_SKIP_59, tag 0x59 in any loop (R480). -/
  | descSkip59 (loop : DescLoop)
  /-- DESC_OTHER, every other (loop, tag) pair (R481). -/
  | descOther (loop : DescLoop) (tag : Byte)
  deriving DecidableEq, Repr

end Sys2Proof
end

