-- ==== Sys2Proof/WellFormed.lean ====
section
/-! DEFINITION. Which terms of `Instr` are instructions: the one check is R481's, that DESC_OTHER stands only for the
(loop, tag) pairs no other row matches. -/

namespace Sys2Proof

/-- The (loop, tag) pairs that have a row of their own (R146): the listed tags inside their loop, and 0x59 in every
loop. -/
def DescLoop.hasRow (loop : DescLoop) (tag : Byte) : Bool :=
  tag == 0x59#8 ||
    match loop with
    | .nitNet => tag == 0x40#8
    | .nitTs => tag == 0x41#8
    | .sdtSvc => tag == 0x48#8
    | .eitEvt => [0x4D#8, 0x4E#8, 0x54#8, 0x50#8, 0x55#8, 0x69#8].contains tag

/-- Whether a term stands for an encoding of the table. Every constructor but `descOther` admits every value of its
arguments, since each argument is exactly the bits its row leaves free. -/
def Instr.wellFormed : Instr → Bool
  | .nop | .findSync | .parse | .run | .decode | .crc => true
  | .reservedCmd67 _ | .reservedCmd8F _ => true
  | .tblPat | .tblNitAct | .tblNitOth | .tblSdtAct | .tblSdtOth => true
  | .tblEitPfAct | .tblEitPfOth | .tblEitSchAct _ | .tblEitSchOth _ => true
  | .descNetworkName | .descServiceList | .descService => true
  | .descShortEvent | .descExtendedEvent | .descContent => true
  | .descSkip50 | .descSkip55 | .descSkip69 | .descSkip59 _ => true
  | .descOther loop tag => !loop.hasRow tag

end Sys2Proof
end

