-- ==== Sys2Proof/Decode.lean ====
section
/-! DEFINITION. The three decoders (30_encoding.md R130, R131, R145, R146), the encoder, and the reading of a word of
spec/opcode_table.json. -/

namespace Sys2Proof

/-- Where an instruction's bits stand, which selects its decoder (R130): a value written to CMD, a table_id byte
under a class, or a tag byte within a loop. -/
inductive Format where
  | command
  | tableId (cls : TableClass)
  | descriptor (loop : DescLoop)
  deriving DecidableEq, Repr

/-- An encoded instruction: its format, and the CMD word, table_id or tag (the last two in bits 7:0). -/
structure Encoded where
  format : Format
  bits : Word
  deriving DecidableEq, Repr

/-- Why a decoder finds no instruction. -/
inductive DecodeError where
  /-- The class does not accept the table_id (R147): the section fails with UNEXPECTED_TABLE_ID. -/
  | unexpectedTableId (cls : TableClass) (tid : Byte)
  /-- ANY accepts every table_id and decodes no body; NONE decodes nothing (R145). -/
  | noBody (cls : TableClass)
  deriving DecidableEq, Repr

/-- The command decoder: bits 3:0 select, bits 31:4 are ignored (R131). -/
def decodeCommand (v : Word) : Instr :=
  match v.toNat % 16 with
  | 0 => .nop
  | 1 => .findSync
  | 2 => .parse
  | 3 => .run
  | 4 => .decode
  | 5 => .crc
  | 6 => .reservedCmd67 0#1
  | 7 => .reservedCmd67 1#1
  | n => .reservedCmd8F (BitVec.ofNat 3 n)

/-- The table decoder (R145): 8 bits under the class. -/
def decodeTable (cls : TableClass) (tid : Byte) : Except DecodeError Instr :=
  match cls with
  | .pat => if tid = 0x00#8 then .ok .tblPat else .error (.unexpectedTableId cls tid)
  | .nit =>
    if tid = 0x40#8 then .ok .tblNitAct
    else if tid = 0x41#8 then .ok .tblNitOth
    else .error (.unexpectedTableId cls tid)
  | .sdt =>
    if tid = 0x42#8 then .ok .tblSdtAct
    else if tid = 0x46#8 then .ok .tblSdtOth
    else .error (.unexpectedTableId cls tid)
  | .eit =>
    if tid = 0x4E#8 then .ok .tblEitPfAct
    else if tid = 0x4F#8 then .ok .tblEitPfOth
    else if tid &&& 0xF0#8 = 0x50#8 then .ok (.tblEitSchAct (tid.extractLsb' 0 4))
    else if tid &&& 0xF0#8 = 0x60#8 then .ok (.tblEitSchOth (tid.extractLsb' 0 4))
    else .error (.unexpectedTableId cls tid)
  | .none => .error (.noBody cls)
  | .any => .error (.noBody cls)

/-- The descriptor decoder (R146, R455): 8 bits under the loop. Every tag has an action, if only to be skipped. -/
def decodeDescriptor (loop : DescLoop) (tag : Byte) : Instr :=
  if tag = 0x59#8 then .descSkip59 loop
  else
    match loop with
    | .nitNet => if tag = 0x40#8 then .descNetworkName else .descOther loop tag
    | .nitTs => if tag = 0x41#8 then .descServiceList else .descOther loop tag
    | .sdtSvc => if tag = 0x48#8 then .descService else .descOther loop tag
    | .eitEvt =>
      if tag = 0x4D#8 then .descShortEvent
      else if tag = 0x4E#8 then .descExtendedEvent
      else if tag = 0x54#8 then .descContent
      else if tag = 0x50#8 then .descSkip50
      else if tag = 0x55#8 then .descSkip55
      else if tag = 0x69#8 then .descSkip69
      else .descOther loop tag

/-- The decoder of every format. -/
def decode (e : Encoded) : Except DecodeError Instr :=
  match e.format with
  | .command => .ok (decodeCommand e.bits)
  | .tableId cls => decodeTable cls (e.bits.setWidth 8)
  | .descriptor loop => .ok (decodeDescriptor loop (e.bits.setWidth 8))

/-- The encoding of an instruction, from the rows of spec/opcode_table.json: bits 31:4 of a command word, which a
write ignores, are 0. -/
def encode : Instr → Encoded
  | .nop => ⟨.command, 0x0#32⟩
  | .findSync => ⟨.command, 0x1#32⟩
  | .parse => ⟨.command, 0x2#32⟩
  | .run => ⟨.command, 0x3#32⟩
  | .decode => ⟨.command, 0x4#32⟩
  | .crc => ⟨.command, 0x5#32⟩
  | .reservedCmd67 low => ⟨.command, (0b011#3 ++ low).setWidth 32⟩
  | .reservedCmd8F low => ⟨.command, (1#1 ++ low).setWidth 32⟩
  | .tblPat => ⟨.tableId .pat, 0x00#32⟩
  | .tblNitAct => ⟨.tableId .nit, 0x40#32⟩
  | .tblNitOth => ⟨.tableId .nit, 0x41#32⟩
  | .tblSdtAct => ⟨.tableId .sdt, 0x42#32⟩
  | .tblSdtOth => ⟨.tableId .sdt, 0x46#32⟩
  | .tblEitPfAct => ⟨.tableId .eit, 0x4E#32⟩
  | .tblEitPfOth => ⟨.tableId .eit, 0x4F#32⟩
  | .tblEitSchAct low => ⟨.tableId .eit, (0x5#4 ++ low).setWidth 32⟩
  | .tblEitSchOth low => ⟨.tableId .eit, (0x6#4 ++ low).setWidth 32⟩
  | .descNetworkName => ⟨.descriptor .nitNet, 0x40#32⟩
  | .descServiceList => ⟨.descriptor .nitTs, 0x41#32⟩
  | .descService => ⟨.descriptor .sdtSvc, 0x48#32⟩
  | .descShortEvent => ⟨.descriptor .eitEvt, 0x4D#32⟩
  | .descExtendedEvent => ⟨.descriptor .eitEvt, 0x4E#32⟩
  | .descContent => ⟨.descriptor .eitEvt, 0x54#32⟩
  | .descSkip50 => ⟨.descriptor .eitEvt, 0x50#32⟩
  | .descSkip55 => ⟨.descriptor .eitEvt, 0x55#32⟩
  | .descSkip69 => ⟨.descriptor .eitEvt, 0x69#32⟩
  | .descSkip59 loop => ⟨.descriptor loop, 0x59#32⟩
  | .descOther loop tag => ⟨.descriptor loop, tag.setWidth 32⟩

/-- The format a word of spec/opcode_table.json is read in. The table's rows of different formats share words (0x40
is a command, a table_id and a tag), and a word alone does not say which is meant (R130: the decoders are three).
DESIGN CHOICE (log 9): a row without bits is DESC_OTHER; 32 bits are a CMD word; of 8 bits, a value that fits CMD.OP is a command; then the row with
the most specific mask is taken, a table_id before a tag; every other byte is a tag no row lists. -/
def tableWordFormat (nbits w : Nat) : Format :=
  let b := w % 256
  if nbits = 0 then .descriptor .eitEvt
  else if 32 ≤ nbits || b < 0x10 then .command
  else if b = 0x40 || b = 0x41 then .tableId .nit
  else if b = 0x42 || b = 0x46 then .tableId .sdt
  else if b = 0x4E || b = 0x4F then .tableId .eit
  else if b = 0x48 then .descriptor .sdtSvc
  else if [0x4D, 0x54, 0x50, 0x55, 0x69, 0x59].contains b then .descriptor .eitEvt
  else if 0x50 ≤ b && b < 0x70 then .tableId .eit
  else .descriptor .eitEvt

/-- The instruction the decoder reads from a word of spec/opcode_table.json, in the format `tableWordFormat` gives. -/
def decodeTableWord (nbits w : Nat) : Option Instr :=
  (decode ⟨tableWordFormat nbits w, BitVec.ofNat 32 (w % 2 ^ nbits)⟩).toOption

end Sys2Proof
end

