-- ==== Sys2Proof/Config.lean ====
section
/-! DEFINITION. What one instance of the block fixes (00_scope.md R8) and the free values of the model. -/

namespace Sys2Proof

/-- The implementation parameters R8 leaves OPEN. "A model takes the OPEN ones as arguments of its configuration":
the interface's `step : State → _` has no argument for them, so State carries one `Instance`, which no step changes
(log 1). TOKEN_BUS_ENCODING is not here: no rule depends on it (log 10). -/
structure Instance where
  /-- CAP_SIZE (D3). -/
  capSize : Nat
  /-- N_CTX (D7). -/
  nCtx : Nat
  /-- SECBUF_SIZE (D8). -/
  secbufSize : Nat
  /-- OUT_DEPTH (D5). -/
  outDepth : Nat
  deriving DecidableEq, Repr

/-- The legal ranges of R8. -/
abbrev Instance.Legal (c : Instance) : Prop :=
  376 ≤ c.capSize ∧ c.capSize ≤ 2 ^ 32 - 1 ∧ 1 ≤ c.nCtx ∧ c.nCtx ≤ 15 ∧
    4352 ≤ c.secbufSize ∧ c.secbufSize ≤ 65535 ∧ 1 ≤ c.outDepth

/-- The instance `State.reset` stands for: the sizes D3, D7 and D8 suggest, and an OUT_DEPTH the spec suggests no
value for. DESIGN CHOICE (log 1). -/
def Config.suggested : Instance := ⟨1048576, 4, 4352, 256⟩

/-- The byte CAPMEM holds at an address nothing has written since the `epoch`-th reset: R700 leaves it unspecified
("a model draws every byte (any value 0x00-0xFF, independently)"). A free value: no body (log 2). -/
opaque Config.capReset (epoch address : Nat) : Byte

/-- Whether a CapWrite at an offset beyond CAP_SIZE sets E_HAZARD while BUSY: R100 says it has no effect, R102 that a
CapWrite while BUSY sets it. A free value: no body (log 11). -/
opaque Config.hazardOutsideCap : Bool

end Sys2Proof
end

