-- ==== Sys2Proof/Machine/State.lean ====
section
/-! DEFINITION. The state of the block (10_state.md), its tokens (30_encoding.md R160-R171), the reasons a step can
stop, and the state after reset (70_reset_and_hazards.md R700). -/

namespace Sys2Proof.Machine

/-! ### Errors -/

/-- The error codes of R601. Code 5 is never raised (TextCodec is outside the block). -/
inductive ErrCode where
  | notSynchronized
  | truncatedSection
  | unexpectedTableId
  | crcMismatch
  | unsupportedEncoding
  | descriptorOverflow
  | badSectionLength
  | syncLost
  | secbufOverflow
  | badCommand
  | badRegion
  deriving DecidableEq, Repr

/-! ### Packets and tokens -/

/-- A decoded transport packet (R133, R205). -/
structure Packet where
  offset : Word
  tei : Bool
  pusi : Bool
  prio : Bool
  pid : BitVec 13
  sc : BitVec 2
  afc : BitVec 2
  cc : BitVec 4
  payload : Bytes
  deriving DecidableEq, Repr

/-- The fields of a SEC_HDR token (R163). `crcStatus`: 0 NOT_CHECKED, 1 OK, 2 MISMATCH. -/
structure SectionHeader where
  pointerField : Byte
  tableId : Byte
  ssi : Bool
  priv : Bool
  rsv1 : BitVec 2
  sectionLength : BitVec 12
  tidExt : BitVec 16
  rsv2 : BitVec 2
  version : BitVec 5
  currentNext : Bool
  sectionNumber : Byte
  lastSectionNumber : Byte
  crcStored : Word
  crcCalc : Word
  crcStatus : BitVec 2
  deriving DecidableEq, Repr

/-- The service record's fields an SDT_SERVICE token carries (R141, R395). -/
structure ServiceRecord where
  serviceId : BitVec 16
  eitSchedule : Bool
  eitPf : Bool
  runningStatus : BitVec 3
  freeCa : Bool
  deriving DecidableEq, Repr

/-- A calendar value (R169). -/
structure DateTime where
  year : BitVec 16
  month : BitVec 8
  day : BitVec 8
  hour : BitVec 8
  minute : BitVec 8
  second : BitVec 8
  deriving DecidableEq, Repr

/-- One entry of a content descriptor (R144, R170). -/
structure ContentEntry where
  n1 : BitVec 4
  n2 : BitVec 4
  user : Byte
  deriving DecidableEq, Repr

/-- The fields of an EIT_EVENT token (R170). -/
structure EventItem where
  serviceId : BitVec 16
  eventId : BitVec 16
  startRaw : BitVec 40
  start : DateTime
  durRaw : BitVec 24
  durSecs : BitVec 20
  finish : DateTime
  runningStatus : BitVec 3
  freeCa : Bool
  lang : BitVec 24
  name : Bytes
  text : Bytes
  extText : Bytes
  hasContent : Bool
  content : List ContentEntry
  deriving DecidableEq, Repr

/-- The output tokens (R160-R171). TOKEN_BUS_ENCODING is left OPEN by R8: a token is a typed value (log 10). -/
inductive Token where
  /-- PKT (R161). -/
  | pkt (src : BitVec 4) (p : Packet)
  /-- SEC_RAW (R162). -/
  | secRaw (src : BitVec 4) (index : Word) (bytes : Bytes) (trunc : Bool)
  /-- SEC_HDR (R163). -/
  | secHdr (src : BitVec 4) (index : Word) (h : SectionHeader)
  /-- PAT_ENTRY (R164). -/
  | patEntry (src : BitVec 4) (index : Word) (programNumber : BitVec 16) (rsv : BitVec 3) (pid : BitVec 13)
      (isNit : Bool)
  /-- NIT_NAME (R165). -/
  | nitName (src : BitVec 4) (index : Word) (text : Bytes)
  /-- NIT_SERVICE (R166). -/
  | nitService (src : BitVec 4) (index : Word) (serviceId : BitVec 16) (serviceType : Byte)
  /-- SDT_SERVICE (R167). -/
  | sdtService (src : BitVec 4) (index : Word) (record : ServiceRecord) (serviceType : Byte) (provider : Bytes)
      (name : Bytes)
  /-- EIT_HDR (R168). -/
  | eitHdr (src : BitVec 4) (index : Word) (serviceId tsid onid : BitVec 16) (segLast lastTid : Byte)
  /-- EIT_EVENT (R170). -/
  | eitEvent (src : BitVec 4) (index : Word) (e : EventItem)
  /-- SEC_END (R171). -/
  | secEnd (src : BitVec 4) (index : Word) (error : BitVec 4) (crcStatus : BitVec 2) (ovf : Bool)
  deriving DecidableEq, Repr

/-! ### Reassembly contexts -/

/-- The states of a context (R63, R251), and the values of CTX_STATE (R55). -/
inductive CtxPhase where
  | idle
  | collect
  | done
  deriving DecidableEq, Repr

/-- The fields of CTX_CFG[c] (R53). -/
structure CtxCfg where
  pid : BitVec 13
  cls : TableClass
  en : Bool
  all : Bool
  raw : Bool
  pkts : Bool
  deriving DecidableEq, Repr

/-- A reassembly context (R63). -/
structure Context where
  state : CtxPhase
  k : Word
  buf : Bytes
  trunc : Bool
  closed : Nat
  deriving DecidableEq, Repr

/-- The value every RUN starts a context at, and the reset value (R63, R700). -/
def Context.initial : Context := ⟨.idle, 0, [], false, 0⟩

/-- All that is indexed by a context number: CTX_CFG[c], CTX_SECS[c], CTX_STATE[c] and the context itself. -/
structure CtxSlot where
  cfg : CtxCfg
  secs : Word
  last : CtxPhase
  ctx : Context
  deriving DecidableEq, Repr

/-- The reset value of a slot (R700): CTX_CFG 0x0000C000, the result CSRs 0, the context idle and empty. -/
def CtxSlot.initial : CtxSlot := ⟨⟨0, .none, false, false, false, false⟩, 0, .idle, Context.initial⟩

/-! ### The section decoder's working values -/

/-- A bounded reader (R450): a cursor and a limit, offsets into the section. -/
structure Reader where
  cur : Nat
  lim : Nat
  deriving DecidableEq, Repr

/-- The event assembler (R410). `ext` holds the sixteen optional texts by descriptor_number. -/
structure EventAsm where
  hasShort : Bool
  lang : BitVec 24
  name : Bytes
  text : Bytes
  ext : Vector (Option Bytes) 16
  hasContent : Bool
  content : List ContentEntry
  deriving DecidableEq, Repr

/-- `NewEvent()` (R410). -/
def EventAsm.new : EventAsm := ⟨false, 0, [], [], Vector.replicate 16 none, false, []⟩

/-- Where the section decoder stands, when it is run one dispatch at a time (log 7). -/
inductive Stage where
  /-- No section decode is in progress. -/
  | idle
  /-- At the body dispatch of R310: the table_id selects the next instruction. -/
  | table
  /-- In a descriptor loop (R452): the tag at the cursor selects the next instruction. -/
  | descriptor
  /-- At the SEC_END of R310. -/
  | close
  deriving DecidableEq, Repr

/-- The section decoder's working values (R64), with the tokens emitted (R14) and errors noted (R603) so far. The
spec keeps them "only inside one command's computation" (R30): in every state a run from reset reaches, `stage` is
`idle` (log 7). -/
structure Work where
  /-- The section bytes `S`. -/
  sec : Bytes
  src : BitVec 4
  index : Word
  cls : TableClass
  /-- The table start `t`. -/
  tstart : Nat
  /-- The CRC boundary `lim`, which is `crc_pos`. -/
  lim : Nat
  /-- The section's table_id_extension, an operand of the EIT body (R405). -/
  tidExt : BitVec 16
  crcCalc : Word
  crcStatus : BitVec 2
  /-- The section's overflow flag. -/
  ovf : Bool
  /-- The descriptor loop's reader. -/
  rd : Reader
  loop : DescLoop
  /-- The current descriptor's body `[ba, bb)`. -/
  body : Reader
  record : ServiceRecord
  ev : EventAsm
  out : List Token
  notes : List ErrCode
  stage : Stage
  deriving DecidableEq, Repr

/-- Working values at the start of the decode of `sec` (R310): nothing read, emitted or noted. -/
def Work.start (sec : Bytes) (cls : TableClass) (src : BitVec 4) (index : Word) : Work :=
  { sec := sec, src := src, index := index, cls := cls, tstart := 0, lim := 0, tidExt := 0, crcCalc := 0,
    crcStatus := 0, ovf := false, rd := ⟨0, 0⟩, loop := .nitNet, body := ⟨0, 0⟩,
    record := ⟨0, false, false, 0, false⟩, ev := EventAsm.new, out := [], notes := [], stage := .idle }

/-- No section is being decoded. DESIGN CHOICE (log 7): the spec gives these values no reset value. -/
def Work.idle : Work := Work.start [] .none 0 0

/-! ### The engine -/

/-- The engine phase (R60). -/
inductive Phase where
  | idle
  | busy
  deriving DecidableEq, Repr

/-- The pending completion `Q` (R60): the result CSRs a command writes at completion. ERR_CODE and the error bits are
computed from the note list (R604). -/
structure Completion where
  syncOff : Option Word
  pktCount : Option Word
  pktKept : Option Word
  frPos : Option Word
  crcResult : Option Word
  secCount : Option Word
  /-- CTX_SECS[c] and CTX_STATE[c], c ascending. -/
  ctxResults : Option (List (Word × CtxPhase))
  deriving DecidableEq, Repr

/-- The empty `Q`. -/
def Completion.empty : Completion := ⟨none, none, none, none, none, none, none⟩

/-! ### The host and the agents' moves -/

/-- The host operations of R100. Addresses are natural numbers: what no register or byte answers to reads 0. -/
inductive HostOp where
  | capWrite (address : Nat) (v : Byte)
  | capRead (address : Nat)
  | csrWrite (offset : Nat) (v : Word)
  | csrRead (offset : Nat)
  | tokPop
  deriving DecidableEq, Repr

/-- What a host operation returns (R100, R525). -/
inductive Response where
  | byte (v : Byte)
  | csr (v : Word)
  | token (t : Token)
  /-- `EMPTY` (R525). -/
  | empty
  deriving DecidableEq, Repr

/-- A move of one agent (R7), and the two host pseudo-instructions of R190 that repeat an operation. -/
inductive Move where
  | host (op : HostOp)
  /-- One engine step, if one is enabled (R61). -/
  | engine
  /-- The reset input (R700). -/
  | reset
  /-- `wait` (R190): read STATUS until BUSY = 0. -/
  | wait
  /-- `drain` (R190): pop while tokens remain or BUSY = 1. -/
  | drain
  deriving DecidableEq, Repr

/-! ### Why a step can stop -/

/-- The machine never stops with a fault: "The block has no traps" (R15), errors are recorded and the command goes on
(R612). There is no constructor, so nobody raises one. -/
inductive Fault where
  deriving DecidableEq, Repr

/-- Why an instruction has no meaning. -/
inductive Refusal where
  /-- Raised only by an arm of `exec` whose instruction has no meaning in this model. Safe. -/
  | notModelled (mnemonic : String)
  deriving DecidableEq, Repr

/-! ### The state -/

/-- CAPMEM's written bytes: addresses strictly rising. An unlisted address holds no written byte; what it reads as is
`Config.capReset` (log 2). -/
abbrev Memory := List Host.Cell

/-- The state of the block. -/
structure State where
  /-- The instance's parameters (R8); no step changes them (log 1). -/
  inst : Instance
  /-- CAPMEM (R33). -/
  mem : Memory
  /-- How many resets have happened: CAPMEM's unwritten bytes are drawn anew at each (log 3). -/
  epoch : Nat
  /-- CMD.OP (R36). -/
  op : BitVec 4
  /-- The engine phase, STATUS.BUSY (R37, R60). -/
  phase : Phase
  /-- STATUS.DONE (R37). -/
  done : Bool
  /-- STATUS bits 19:8; bit i here is STATUS bit 8 + i (R37). -/
  errs : BitVec 12
  /-- CTRL bits 3:0: IE_ERR, IE_DONE, AFC_HONOR, RESYNC (R39). -/
  ctrl : BitVec 4
  /-- START (R40). -/
  start : Word
  /-- END (R41). -/
  endOff : Word
  /-- PIDF.EN (R43). -/
  pidfEn : Bool
  /-- PIDF.PID (R43). -/
  pidfPid : BitVec 13
  /-- DEC_CLASS.CLASS (R44). -/
  decClass : TableClass
  /-- SYNC_OFF (R45). -/
  syncOff : Word
  /-- PKT_COUNT (R46). -/
  pktCount : Word
  /-- PKT_KEPT (R47). -/
  pktKept : Word
  /-- FR_POS (R48). -/
  frPos : Word
  /-- CRC_RESULT (R49). -/
  crcResult : Word
  /-- SEC_COUNT (R50). -/
  secCount : Word
  /-- ERR_CODE bits 3:0 (R51). -/
  errCode : BitVec 4
  /-- CTX_CFG, CTX_SECS, CTX_STATE and the reassembly contexts, c ascending (R53-R55, R63). -/
  ctxs : List CtxSlot
  /-- The pending token sequence P (R60). -/
  pend : List Token
  /-- The note list N (R603). -/
  notes : List ErrCode
  /-- The pending completion Q (R60). -/
  compl : Completion
  /-- The token FIFO, head first (R65). -/
  fifo : List Token
  /-- The section decoder's working values (R64). -/
  decoder : Work
  /-- The moves to come, next first; when there is none, the engine moves (R111, log 4). -/
  schedule : List Move
  /-- What the host's reads and pops returned, oldest first (log 5). -/
  hostLog : List Response
  deriving DecidableEq, Repr

/-- The block right after reset (R700), as an instance `c`. -/
def State.initial (c : Instance) : State :=
  { inst := c, mem := [], epoch := 0, op := 0, phase := .idle, done := false, errs := 0, ctrl := 0x2#4,
    start := 0, endOff := 0, pidfEn := false, pidfPid := 0, decClass := .any, syncOff := 0xFFFFFFFF#32,
    pktCount := 0, pktKept := 0, frPos := 0, crcResult := 0, secCount := 0, errCode := 0,
    ctxs := List.replicate c.nCtx CtxSlot.initial, pend := [], notes := [], compl := Completion.empty,
    fifo := [], decoder := Work.idle, schedule := [], hostLog := [] }

/-- The machine right after reset: every register at the value R700 states. -/
def State.reset : State := State.initial Config.suggested

end Sys2Proof.Machine
end

