-- ==== Sys2Proof/Machine/Flags.lean ====
section
/-! DEFINITION. The status flags (10_state.md R37-R39, R66; 60_exceptions.md R601, R604): error codes and their bits,
the STATUS word, the interrupt level, the CTRL bits. The block has no other flags (R66). -/

namespace Sys2Proof.Machine

/-- The code of an error (R601). -/
def ErrCode.code : ErrCode → BitVec 4
  | .notSynchronized => 1
  | .truncatedSection => 2
  | .unexpectedTableId => 3
  | .crcMismatch => 4
  | .unsupportedEncoding => 5
  | .descriptorOverflow => 6
  | .badSectionLength => 7
  | .syncLost => 8
  | .secbufOverflow => 9
  | .badCommand => 10
  | .badRegion => 11

/-- The STATUS bit of code n is bit 7 + n (R37, R601), which is bit n - 1 of `errs`. -/
def ErrCode.bit (e : ErrCode) : BitVec 12 := 1#12 <<< (e.code.toNat - 1)

/-- STATUS.E_HAZARD, bit 19 (R37), as a bit of `errs`. It has no code. -/
def hazardBit : BitVec 12 := 0x800#12

/-- The bits of `errs` that exist: every one but E_ENC, which "never set by this block; reads 0" (R37). -/
def errMask : BitVec 12 := 0xFEF#12

/-- `STATUS[7 + n] <- 1` for each n of a note list (R604). -/
def recordBits (ns : List ErrCode) (errs : BitVec 12) : BitVec 12 :=
  ns.foldl (fun b n => b ||| n.bit) errs

/-- The ERR_CODE a note list gives: its first code, or 0 (R604). -/
def firstCode : List ErrCode → BitVec 4
  | [] => 0
  | n :: _ => n.code

/-- CTRL.RESYNC, bit 0 (R39). -/
def State.resync (s : State) : Bool := s.ctrl.getLsbD 0

/-- CTRL.AFC_HONOR, bit 1 (R39). -/
def State.afcHonor (s : State) : Bool := s.ctrl.getLsbD 1

/-- CTRL.IE_DONE, bit 2 (R39). -/
def State.ieDone (s : State) : Bool := s.ctrl.getLsbD 2

/-- CTRL.IE_ERR, bit 3 (R39). -/
def State.ieErr (s : State) : Bool := s.ctrl.getLsbD 3

/-- STATUS.BUSY (R37). -/
def State.busy (s : State) : Bool := s.phase == .busy

/-- STATUS bits 19:8 as read (R37). -/
def State.errField (s : State) : BitVec 12 := s.errs &&& errMask

/-- STATUS.ERR, the OR of bits 19:8 (R38). -/
def State.errFlag (s : State) : Bool := s.errField != 0#12

/-- The interrupt output, and STATUS.IRQ (R38, R610). -/
def State.irq (s : State) : Bool := (s.ieDone && s.done) || (s.ieErr && s.errFlag)

/-- The STATUS word as read (R37): bits 31:20 and 7:4 read 0. -/
def State.statusWord (s : State) : Word :=
  0#12 ++ s.errField ++ 0#4 ++ BitVec.ofBool s.irq ++ BitVec.ofBool s.errFlag ++ BitVec.ofBool s.done ++
    BitVec.ofBool s.busy

/-- A write to STATUS (R37): writing 1 clears DONE and the W1C error bits; the other bits ignore it. -/
def clearStatus (v : Word) (s : State) : State :=
  { s with
    done := s.done && !v.getLsbD 1
    errs := s.errs &&& ~~~(v.extractLsb' 8 12 &&& errMask) }

/-- A dropped host write sets E_HAZARD and changes nothing else (R34, R102). -/
def dropWrite (s : State) : State := { s with errs := s.errs ||| hazardBit }

end Sys2Proof.Machine
end

