-- ==== Sys2Proof/Machine/Ops.lean ====
section
/-! DEFINITION. The shared operations: capture memory (10_state.md R33, 20_memory.md R100), emitting and noting
(00_scope.md R14, R15), recording errors (60_exceptions.md R603-R608, which is what this block has in place of taking
an exception), the command life cycle (10_state.md R61) and reset (70_reset_and_hazards.md R700, R701). -/

namespace Sys2Proof.Machine

/-! ### Capture memory -/

/-- The byte written at `a`, if one was. -/
def Memory.read? : Memory → Nat → Option Byte
  | [], _ => none
  | (k, v) :: m, a => if k = a then some v else Memory.read? m a

/-- `MemWrite(a, 1, v)` (R14). It keeps the addresses strictly rising. -/
def Memory.write : Memory → Nat → Byte → Memory
  | [], a, v => [(a, v)]
  | (k, x) :: m, a, v =>
    if a < k then (a, v) :: (k, x) :: m
    else if a = k then (a, v) :: m
    else (k, x) :: Memory.write m a v

/-- The canonical form of CAPMEM: addresses strictly rising, so that equal memories are equal lists. An unlisted
address holds no byte (log 2), so no entry can equal what it holds. -/
abbrev Memory.wf (m : Memory) : Prop := m.Pairwise (fun x y => x.1 < y.1)

/-- `CAP[a]` (R14): the byte written at `a`, else the byte drawn at reset (R700, log 2). Beyond CAP_SIZE there is no
byte, and a CapRead gives 0 (R100). -/
def State.capAt (s : State) (a : Nat) : Byte :=
  if a < s.inst.capSize then (s.mem.read? a).getD (Config.capReset s.epoch a) else 0

/-- `CAP[a .. b)` (R14), where `cap` gives `CAP[a]`. -/
def capSlice (cap : Nat → Byte) (a b : Nat) : Bytes := (List.range' a (b - a)).map cap

/-- `CAP[a .. b)` (R14). -/
def State.capBytes (s : State) (a b : Nat) : Bytes := capSlice s.capAt a b

/-! ### Emitting and noting -/

/-- The tokens emitted and the errors noted so far by a command (R14, R603). -/
structure Acc where
  out : List Token
  notes : List ErrCode
  deriving DecidableEq, Repr

/-- `emit(T)` (R14). -/
def Acc.emit (a : Acc) (t : Token) : Acc := { a with out := a.out ++ [t] }

/-- `note E` (R15, R603). -/
def Acc.note (a : Acc) (e : ErrCode) : Acc := { a with notes := a.notes ++ [e] }

/-- `emit(T)` inside a section decode. -/
def Work.emit (w : Work) (t : Token) : Work := { w with out := w.out ++ [t] }

/-- `note E` inside a section decode. -/
def Work.note (w : Work) (e : ErrCode) : Work := { w with notes := w.notes ++ [e] }

/-- `overflow()` (R302): `ovf <- 1; note DESCRIPTOR_OVERFLOW`. -/
def overflow (w : Work) : Work := { w with ovf := true, notes := w.notes ++ [.descriptorOverflow] }

/-! ### The command life cycle -/

/-- What `Exec` computes (R61): the tokens P, the notes N, the completion Q, and the contexts as the command leaves
them. -/
structure ExecResult where
  out : List Token
  notes : List ErrCode
  q : Completion
  ctxs : List CtxSlot
  deriving DecidableEq, Repr

/-- The region of a command is legal (R42). -/
def State.legalRegion (s : State) : Bool :=
  s.start.toNat ≤ s.endOff.toNat && s.endOff.toNat ≤ s.inst.capSize

/-- `BadRegion()` (R608): no token, BAD_REGION noted, no result CSR. -/
def badRegion (s : State) : ExecResult := ⟨[], [.badRegion], Completion.empty, s.ctxs⟩

/-- The region check each command but NOP and the reserved ones begins with (R608). -/
def checkRegion (r : State → ExecResult) (s : State) : ExecResult :=
  if s.legalRegion then r s else badRegion s

/-- The accept step with phase IDLE (R61 step 1, R600): OP stored, BUSY set, DONE cleared, P, N and Q as computed. -/
def startCommand (op : BitVec 4) (r : ExecResult) (s : State) : State :=
  { s with
    op := op
    phase := .busy
    done := false
    pend := r.out
    notes := r.notes
    compl := r.q
    ctxs := r.ctxs }

/-- A host write of `op` to CMD (R36, R600): accepted while BUSY = 0; while BUSY = 1 it is dropped and sets
E_HAZARD. -/
def acceptCommand (op : BitVec 4) (r : State → ExecResult) (s : State) : Host.Outcome State Fault Refusal :=
  match s.phase with
  | .idle => .next (startCommand op (r s) s)
  | .busy => .next (dropWrite s)

/-- Completion's writes of CTX_SECS[c] and CTX_STATE[c] (R54, R55). -/
def writeCtxResults : List CtxSlot → List (Word × CtxPhase) → List CtxSlot
  | x :: xs, (n, p) :: rs => { x with secs := n, last := p } :: writeCtxResults xs rs
  | xs, _ => xs

/-- A reassembly context holds nothing outside a RUN (R63, R700). -/
def clearContexts (xs : List CtxSlot) : List CtxSlot := xs.map fun x => { x with ctx := Context.initial }

/-- The complete step (R61 step 3): Q applied, errors recorded (R604), DONE set, BUSY cleared. -/
def completeCommand (s : State) : State :=
  { s with
    phase := .idle
    done := true
    errs := recordBits s.notes s.errs
    errCode := firstCode s.notes
    syncOff := s.compl.syncOff.getD s.syncOff
    pktCount := s.compl.pktCount.getD s.pktCount
    pktKept := s.compl.pktKept.getD s.pktKept
    frPos := s.compl.frPos.getD s.frPos
    crcResult := s.compl.crcResult.getD s.crcResult
    secCount := s.compl.secCount.getD s.secCount
    ctxs := clearContexts (writeCtxResults s.ctxs (s.compl.ctxResults.getD []))
    pend := []
    notes := []
    compl := Completion.empty }

/-- One engine step (R61 steps 2 and 3): push while P is not empty and the FIFO has room, complete when P is empty.
When neither is enabled nothing changes (R526, R712: a hang, not a fault). -/
def engineStep (s : State) : State :=
  match s.phase, s.pend with
  | .idle, _ => s
  | .busy, [] => completeCommand s
  | .busy, t :: ts => if s.fifo.length < s.inst.outDepth then { s with fifo := s.fifo ++ [t], pend := ts } else s

/-! ### Reset -/

/-- The reset input (R700, R701): every piece of state takes its reset value, also while BUSY. CAPMEM's bytes become
unspecified again (log 3). The moves to come and what the host has read are not state of the block and stay. -/
def resetBlock (s : State) : State :=
  { State.initial s.inst with epoch := s.epoch + 1, schedule := s.schedule, hostLog := s.hostLog }

end Sys2Proof.Machine
end

