-- ==== Sys2Proof/Machine/Operands.lean ====
section
/-! DEFINITION. How operands are read: byte order and slices (00_scope.md R11, R13; 20_memory.md R104), the class codes
(10_state.md R57), the CSR words, and the bounded reader with its record loop (45_descriptors.md R450, R451). -/

namespace Sys2Proof.Machine

/-! ### Bytes -/

/-- The big-endian number of a byte sequence (R13, R104): the first byte is the most significant. -/
def beNat (bs : Bytes) : Nat := bs.foldl (fun n b => n * 256 + b.toNat) 0

/-- `S[i .. j)` (R13): empty when j ≤ i. -/
def slice (S : Bytes) (i j : Nat) : Bytes := (S.drop i).take (j - i)

/-- `S[i]` (R13). The rules use it only for i < len(S); past the end this gives 0, which no rule reads. -/
def byteAt (S : Bytes) (i : Nat) : Byte := S.getD i 0

/-- `be(S, i, n)` (R13). -/
def be (S : Bytes) (i n : Nat) : Nat := beNat (slice S i (i + n))

/-! ### Class codes (R57) -/

/-- The 3-bit code of a class. -/
def classCode : TableClass → BitVec 3
  | .pat => 0
  | .nit => 1
  | .sdt => 2
  | .eit => 3
  | .none => 6
  | .any => 7

/-- The class a written code stores: "a write of 4 or 5 stores 6" (R44, R53). -/
def classOfCode (v : BitVec 3) : TableClass :=
  match v.toNat with
  | 0 => .pat
  | 1 => .nit
  | 2 => .sdt
  | 3 => .eit
  | 7 => .any
  | _ => .none

/-! ### CSR words -/

/-- CTX_CFG[c] as read (R53). -/
def CtxCfg.word (c : CtxCfg) : Word :=
  0#12 ++ BitVec.ofBool c.pkts ++ BitVec.ofBool c.raw ++ BitVec.ofBool c.all ++ BitVec.ofBool c.en ++
    classCode c.cls ++ c.pid

/-- CTX_CFG[c] as a write stores it (R53). -/
def CtxCfg.ofWord (v : Word) : CtxCfg :=
  ⟨v.extractLsb' 0 13, classOfCode (v.extractLsb' 13 3), v.getLsbD 16, v.getLsbD 17, v.getLsbD 18, v.getLsbD 19⟩

/-- PIDF as read (R43). -/
def State.pidfWord (s : State) : Word := BitVec.ofBool s.pidfEn ++ 0#18 ++ s.pidfPid

/-- HWCFG (R52). -/
def State.hwcfgWord (s : State) : Word :=
  BitVec.ofNat 16 s.inst.secbufSize ++ 0#12 ++ BitVec.ofNat 4 s.inst.nCtx

/-- The code of a context state (R55, R270). -/
def CtxPhase.code : CtxPhase → BitVec 2
  | .idle => 0
  | .collect => 1
  | .done => 2

/-! ### The bounded reader (R450) -/

/-- `r.field(n)`: a big-endian field of n bytes; one that does not fit reads 0, moves the cursor to the limit and
records DESCRIPTOR_OVERFLOW. -/
def readField (n : Nat) (r : Reader) (w : Work) : Nat × Reader × Work :=
  if r.cur + n ≤ r.lim then (be w.sec r.cur n, { r with cur := r.cur + n }, w)
  else (0, { r with cur := r.lim }, overflow w)

/-- `r.span(n)`: the next n bytes, as a reader of their own; a span that does not fit is clipped and records
DESCRIPTOR_OVERFLOW. -/
def readSpan (n : Nat) (r : Reader) (w : Work) : Reader × Reader × Work :=
  if r.cur + n > r.lim then (⟨r.cur, r.lim⟩, { r with cur := r.lim }, overflow w)
  else (⟨r.cur, r.cur + n⟩, { r with cur := r.cur + n }, w)

/-- The bytes a span covers. -/
def spanBytes (w : Work) (r : Reader) : Bytes := slice w.sec r.cur r.lim

/-- The end of a record loop (R451): a remainder shorter than a record's fixed header is not decoded and records
DESCRIPTOR_OVERFLOW. -/
def loopRemainder (r : Reader) (w : Work) : Work := if r.cur < r.lim then overflow w else w

/-- `RecordLoop(r, H): body` (R451), bounded by `fuel` iterations. -/
def recordLoop (h : Nat) (body : Reader → Work → Reader × Work) : Nat → Reader → Work → Work
  | 0, r, w => loopRemainder r w
  | fuel + 1, r, w =>
    if r.cur + h ≤ r.lim then recordLoop h body fuel (body r w).1 (body r w).2 else loopRemainder r w

/-- `RecordLoop(r, H): body`: each iteration advances the cursor, so as many iterations as bytes are enough. -/
def runRecords (h : Nat) (body : Reader → Work → Reader × Work) (r : Reader) (w : Work) : Work :=
  recordLoop h body (r.lim - r.cur) r w

end Sys2Proof.Machine
end

