-- ==== Sys2Proof/Machine/Framer.lean ====
section
/-! DEFINITION. The framer (40_framer.md R200-R216): sync detector, header parser, 188-byte slicer. Its working values
(10_state.md R62) are arguments and results here. -/

namespace Sys2Proof.Machine

/-- SYNC_BYTE (R8). -/
abbrev syncByte : Byte := 0x47#8

/-- PACKET_SIZE (R8). -/
abbrev packetSize : Nat := 188

/-- `find_sync` (R200) from `i`, looking at `fuel` offsets. -/
def findSyncFrom (cap : Nat → Byte) (e : Nat) : Nat → Nat → Option Nat
  | 0, _ => none
  | fuel + 1, i =>
    if i + packetSize < e then
      if cap i = syncByte ∧ cap (i + packetSize) = syncByte then some i
      else findSyncFrom cap e fuel (i + 1)
    else none

/-- `find_sync(a, e)` (R200); `none` is NotFound. -/
def findSync (cap : Nat → Byte) (a e : Nat) : Option Nat := findSyncFrom cap e (e - a) a

/-- `Payload(pos, afc)` (R206). -/
def payload (cap : Nat → Byte) (afcHonor : Bool) (pos : Nat) (afc : BitVec 2) : Bytes :=
  if !afcHonor then capSlice cap (pos + 4) (pos + packetSize)
  else if afc = 1#2 then capSlice cap (pos + 4) (pos + packetSize)
  else if afc = 3#2 then
    let afl := (cap (pos + 4)).toNat
    if 5 + afl ≤ packetSize then capSlice cap (pos + 5 + afl) (pos + packetSize) else []
  else []

/-- `DecodePacket(pos)` (R205) with the header fields of R133. -/
def decodePacket (cap : Nat → Byte) (afcHonor : Bool) (pos : Nat) : Packet :=
  let b1 := cap (pos + 1)
  let b2 := cap (pos + 2)
  let b3 := cap (pos + 3)
  let afc := b3.extractLsb' 4 2
  { offset := BitVec.ofNat 32 pos, tei := b1.getLsbD 7, pusi := b1.getLsbD 6, prio := b1.getLsbD 5,
    pid := b1.extractLsb' 0 5 ++ b2, sc := b3.extractLsb' 6 2, afc := afc, cc := b3.extractLsb' 0 4,
    payload := payload cap afcHonor pos afc }

/-- An item of the framer's event list (R215). -/
inductive FrameEvent where
  | pkt (p : Packet)
  | lost
  deriving DecidableEq, Repr

/-- What the slicer's loop gives: the events, the counters and the final cursor (R215). -/
structure Sliced where
  evs : List FrameEvent
  count : Nat
  kept : Nat
  pos : Nat
  deriving DecidableEq, Repr

/-- One more decoded frame before what the rest of the loop gives (R212). -/
def Sliced.cons (keep : Bool) (p : Packet) (r : Sliced) : Sliced :=
  { r with
    evs := if keep then .pkt p :: r.evs else r.evs
    count := r.count + 1
    kept := if keep then r.kept + 1 else r.kept }

/-- The operands of the framer in the snapshot (R221). -/
structure FrameArgs where
  cap : Nat → Byte
  endOff : Nat
  resync : Bool
  afcHonor : Bool
  pidfEn : Bool
  pidfPid : BitVec 13

/-- The PID filter (R212): whether a packet is retained. -/
def FrameArgs.retains (g : FrameArgs) (p : Packet) : Bool := !g.pidfEn || p.pid == g.pidfPid

/-- The loop of R215 from `pos`, bounded by `fuel` iterations. -/
def sliceFrames (g : FrameArgs) : Nat → Nat → Sliced
  | 0, pos => ⟨[], 0, 0, pos⟩
  | fuel + 1, pos =>
    if pos + packetSize ≤ g.endOff then
      if g.cap pos ≠ syncByte then
        if !g.resync then ⟨[.lost], 0, 0, pos⟩
        else
          match findSync g.cap (pos + 1) g.endOff with
          | none => ⟨[.lost], 0, 0, pos⟩
          | some q => { sliceFrames g fuel q with evs := .lost :: (sliceFrames g fuel q).evs }
      else
        let p := decodePacket g.cap g.afcHonor pos
        Sliced.cons (g.retains p) p (sliceFrames g fuel (pos + packetSize))
    else ⟨[], 0, 0, pos⟩

/-- The results of `Frame()` (R215); `syncOff` is `none` exactly when `nosync` holds. -/
structure Framed where
  syncOff : Option Nat
  sliced : Sliced
  deriving DecidableEq, Repr

/-- `Frame()` (R215) over `[start, END)`: at most END - START iterations (R216). -/
def frame (g : FrameArgs) (start : Nat) : Framed :=
  match findSync g.cap start g.endOff with
  | none => ⟨none, ⟨[], 0, 0, start⟩⟩
  | some q => ⟨some q, sliceFrames g (g.endOff - start) q⟩

/-- The framer's operands as a state gives them. -/
def State.frameArgs (s : State) : FrameArgs :=
  ⟨s.capAt, s.endOff.toNat, s.resync, s.afcHonor, s.pidfEn, s.pidfPid⟩

/-- `Frame()` on the snapshot `s`. -/
def State.frame (s : State) : Framed := Machine.frame s.frameArgs s.start.toNat

/-- SYNC_OFF from a search's result (R45): 0xFFFFFFFF is NotFound. -/
def syncWord : Option Nat → Word
  | none => 0xFFFFFFFF#32
  | some q => BitVec.ofNat 32 q

end Sys2Proof.Machine
end

