-- ==== Sys2Proof/Machine/Crc.lean ====
section
/-! DEFINITION. The CRC-32 validator (43_crc32.md R350-R352). -/

namespace Sys2Proof.Machine

/-- The polynomial (R350). -/
def crcPoly : Word := 0x04C11DB7#32

/-- One of the eight iterations of R351's inner loop. -/
def crcShift (r : Word) : Word :=
  if r.getLsbD 31 then (r <<< 1) ^^^ crcPoly else r <<< 1

/-- The eight iterations of R351's inner loop. -/
def crcShift8 (r : Word) : Word :=
  crcShift (crcShift (crcShift (crcShift (crcShift (crcShift (crcShift (crcShift r)))))))

/-- The register after one more byte (R351): the byte into the top 8 bits, then eight iterations. -/
def crcByte (r : Word) (b : Byte) : Word := crcShift8 (r ^^^ (b.setWidth 32 <<< 24))

/-- `crc32(B)` (R351): initial value 0xFFFFFFFF, no reflection, no final XOR. -/
def crc32 (bs : Bytes) : Word := bs.foldl crcByte 0xFFFFFFFF#32

/-- The table entry `T[i]` of R352. -/
def crcTable (i : Byte) : Word := crcShift8 (i.setWidth 32 <<< 24)

/-- The register after one more byte, by R352's table form. -/
def crcByteByTable (r : Word) (b : Byte) : Word :=
  (r <<< 8) ^^^ crcTable ((r >>> 24).setWidth 8 ^^^ b)

/-- `crc32(B)` by the table form of R352. -/
def crc32ByTable (bs : Bytes) : Word := bs.foldl crcByteByTable 0xFFFFFFFF#32

end Sys2Proof.Machine
end

