-- ==== Sys2Proof/Machine/Time.lean ====
section
/-! DEFINITION. EIT time arithmetic (44_tables.md R411, R420-R424). -/

namespace Sys2Proof.Machine

/-- `Bcd(b)` (R421): nibbles above 9 are not checked. -/
def bcd (b : Nat) : Nat := 10 * (b / 16 % 16) + b % 16

/-- `MjdDate(mjd)` (R420): (year, month, day), in exact integers with floor division (R12; every divisor is
positive). -/
def mjdDate (mjd : Int) : Int × Int × Int :=
  let yp := (100 * mjd - 1507820) / 36525
  let a := 36525 * yp / 100
  let n := mjd - 14956 - a
  let mp := (10000 * n - 1000) / 306001
  let d := n - 306001 * mp / 10000
  let k := if mp = 14 ∨ mp = 15 then 1 else 0
  (1900 + yp + k, mp - 1 - 12 * k, d)

/-- `DateTime((y, m, d), h, mi, s)` (R411, R169). -/
def dateTime (date : Int × Int × Int) (h mi s : Nat) : DateTime :=
  ⟨BitVec.ofInt 16 date.1, BitVec.ofInt 8 date.2.1, BitVec.ofInt 8 date.2.2, BitVec.ofNat 8 h, BitVec.ofNat 8 mi,
    BitVec.ofNat 8 s⟩

/-- Three BCD bytes HHMMSS as seconds (R411, R422). -/
def bcdSeconds (v : Nat) : Nat := 3600 * bcd (v / 65536 % 256) + 60 * bcd (v / 256 % 256) + bcd (v % 256)

/-- The start of an event as a date and time (R411): MJD, then BCD hour, minute and second as they are. -/
def startTime (st : Nat) : DateTime :=
  dateTime (mjdDate (st / 16777216 % 65536 : Nat)) (bcd (st / 65536 % 256)) (bcd (st / 256 % 256)) (bcd (st % 256))

/-- The finish of an event (R423). -/
def finishTime (st du : Nat) : DateTime :=
  let tot := bcdSeconds (st % 16777216) + bcdSeconds du
  let sod := tot % 86400
  dateTime (mjdDate (st / 16777216 % 65536 + tot / 86400 : Nat)) (sod / 3600) (sod % 3600 / 60) (sod % 60)

/-- The language code as reported (R424): 0x000000 is reported as "und". -/
def reportedLang (lang : BitVec 24) : BitVec 24 := if lang = 0 then 0x756E64#24 else lang

/-- The extended text (R412): the present texts in ascending descriptor_number order, no separator. -/
def extendedText (ev : EventAsm) : Bytes := (ev.ext.toList.filterMap id).flatten

/-- `EventToken(sid, eid, st, du, rs, fca, ev)` (R411), as the fields of the token. `flags` is the 16-bit field
running_status:3, free_CA_mode:1, descriptors_loop_length:12. -/
def eventItem (sid : BitVec 16) (eid st du flags : Nat) (ev : EventAsm) : EventItem :=
  { serviceId := sid, eventId := BitVec.ofNat 16 eid, startRaw := BitVec.ofNat 40 st, start := startTime st,
    durRaw := BitVec.ofNat 24 du, durSecs := BitVec.ofNat 20 (bcdSeconds du), finish := finishTime st du,
    runningStatus := BitVec.ofNat 3 (flags / 8192), freeCa := flags / 4096 % 2 == 1, lang := reportedLang ev.lang,
    name := ev.name, text := ev.text, extText := extendedText ev, hasContent := ev.hasContent,
    content := ev.content }

end Sys2Proof.Machine
end

