-- ==== Sys2Proof/Machine/Descriptors.lean ====
section
/-! DEFINITION. The DVB descriptor parser (45_descriptors.md R452-R481): one action per descriptor row over the
section decoder's working values, the dispatch of R455 and the descriptor loop of R452, and the rows' meanings. -/

namespace Sys2Proof.Machine

/-! ### The descriptor actions, on the body `[ba, bb)` of the current descriptor -/

/-- network_name (R460). -/
def descNetworkName (w : Work) : Work := w.emit (.nitName w.src w.index (spanBytes w w.body))

/-- One entry of service_list (R462). -/
def serviceListEntry (r : Reader) (w : Work) : Reader × Work :=
  let (sid, r, w) := readField 2 r w
  let (st, r, w) := readField 1 r w
  (r, w.emit (.nitService w.src w.index (BitVec.ofNat 16 sid) (BitVec.ofNat 8 st)))

/-- service_list (R462). -/
def descServiceList (w : Work) : Work := runRecords 3 serviceListEntry w.body w

/-- service (R465). -/
def descService (w : Work) : Work :=
  let (st, r, w) := readField 1 w.body w
  let (pl, r, w) := readField 1 r w
  let (p, r, w) := readSpan pl r w
  let (nl, r, w) := readField 1 r w
  let (n, _, w) := readSpan nl r w
  w.emit (.sdtService w.src w.index w.record (BitVec.ofNat 8 st) (spanBytes w p) (spanBytes w n))

/-- short_event (R470). -/
def descShortEvent (w : Work) : Work :=
  let (lang, r, w) := readField 3 w.body w
  let (nl, r, w) := readField 1 r w
  let (m, r, w) := readSpan nl r w
  let (tl, r, w) := readField 1 r w
  let (x, _, w) := readSpan tl r w
  { w with
    ev := { w.ev with
      hasShort := true
      lang := BitVec.ofNat 24 lang
      name := spanBytes w m
      text := spanBytes w x } }

/-- `ev.ext[dn] <- text` (R473): a repeated descriptor_number replaces the earlier text. -/
def EventAsm.setExt (ev : EventAsm) (dn : Fin 16) (text : Bytes) : EventAsm :=
  { ev with ext := ev.ext.set dn (some text) }

/-- extended_event (R473). -/
def descExtendedEvent (w : Work) : Work :=
  let (x, r, w) := readField 1 w.body w
  let (_, r, w) := readField 3 r w
  let (li, r, w) := readField 1 r w
  let (_, r, w) := readSpan li r w
  let (tl, r, w) := readField 1 r w
  let (text, _, w) := readSpan tl r w
  { w with ev := w.ev.setExt (Fin.ofNat 16 (x / 16)) (spanBytes w text) }

/-- One entry of content (R476), with the list so far in the event assembler. -/
def contentEntry (r : Reader) (w : Work) : Reader × Work :=
  let (x, r, w) := readField 1 r w
  let (u, r, w) := readField 1 r w
  (r, { w with
    ev := { w.ev with
      content := w.ev.content ++ [⟨BitVec.ofNat 4 (x / 16), BitVec.ofNat 4 x, BitVec.ofNat 8 u⟩] } })

/-- content (R476): the list starts empty, so a second 0x54 replaces the first (D31). -/
def descContent (w : Work) : Work :=
  runRecords 2 contentEntry w.body { w with ev := { w.ev with hasContent := true, content := [] } }

/-- component, recognised and skipped (R480). -/
def descSkip50 (w : Work) : Work := w

/-- parental rating, recognised and skipped (R480). -/
def descSkip55 (w : Work) : Work := w

/-- PDC, recognised and skipped (R480). -/
def descSkip69 (w : Work) : Work := w

/-- subtitling, recognised and skipped in every loop (R480). -/
def descSkip59 (_loop : DescLoop) (w : Work) : Work := w

/-- Every other (loop, tag) pair, skipped (R481). -/
def descOther (_loop : DescLoop) (_tag : Byte) (w : Work) : Work := w

/-! ### Dispatch and loop -/

/-- `Descriptor(loop, tag, ba, bb, ctx)` (R455), once decoded. A command or a table is no descriptor. -/
def runDescriptor (i : Instr) (w : Work) : Work :=
  match i with
  | .descNetworkName => descNetworkName w
  | .descServiceList => descServiceList w
  | .descService => descService w
  | .descShortEvent => descShortEvent w
  | .descExtendedEvent => descExtendedEvent w
  | .descContent => descContent w
  | .descSkip50 => descSkip50 w
  | .descSkip55 => descSkip55 w
  | .descSkip69 => descSkip69 w
  | .descSkip59 loop => descSkip59 loop w
  | .descOther loop tag => descOther loop tag w
  | .nop | .findSync | .parse | .run | .decode | .crc | .reservedCmd67 _ | .reservedCmd8F _ => w
  | .tblPat | .tblNitAct | .tblNitOth | .tblSdtAct | .tblSdtOth => w
  | .tblEitPfAct | .tblEitPfOth | .tblEitSchAct _ | .tblEitSchOth _ => w

/-- The head of one iteration of R452's loop: tag, length and body are read, the loop's reader moves past the body,
and the tag within the loop selects the instruction. -/
def fetchDescriptor (r : Reader) (w : Work) : Instr × Work :=
  let (tag, r, w) := readField 1 r w
  let (len, r, w) := readField 1 r w
  let (b, r, w) := readSpan len r w
  (decodeDescriptor w.loop (BitVec.ofNat 8 tag), { w with body := b, rd := r })

/-- One iteration of R452's loop. -/
def descriptorStep (r : Reader) (w : Work) : Reader × Work :=
  let (i, w) := fetchDescriptor r w
  (w.rd, runDescriptor i w)

/-- `DescLoop(a, e, loop, ctx)` (R452) over the span `r`. -/
def descLoop (loop : DescLoop) (r : Reader) (w : Work) : Work :=
  runRecords 2 descriptorStep r { w with loop := loop }

/-! ### The rows' meanings -/

/-- A descriptor or table instruction acts on the section decoder's working values and nothing else. -/
def onDecoder (f : Work → Work) (s : State) : Host.Outcome State Fault Refusal :=
  .next { s with decoder := f s.decoder }

/-- DESC_NETWORK_NAME (R460). -/
def execDescNetworkName (s : State) : Host.Outcome State Fault Refusal := onDecoder descNetworkName s

/-- DESC_SERVICE_LIST (R462). -/
def execDescServiceList (s : State) : Host.Outcome State Fault Refusal := onDecoder descServiceList s

/-- DESC_SERVICE (R465). -/
def execDescService (s : State) : Host.Outcome State Fault Refusal := onDecoder descService s

/-- DESC_SHORT_EVENT (R470). -/
def execDescShortEvent (s : State) : Host.Outcome State Fault Refusal := onDecoder descShortEvent s

/-- DESC_EXTENDED_EVENT (R473). -/
def execDescExtendedEvent (s : State) : Host.Outcome State Fault Refusal := onDecoder descExtendedEvent s

/-- DESC_CONTENT (R476). -/
def execDescContent (s : State) : Host.Outcome State Fault Refusal := onDecoder descContent s

/-- DESC_SKIP_50 (R480). -/
def execDescSkip50 (s : State) : Host.Outcome State Fault Refusal := onDecoder descSkip50 s

/-- DESC_SKIP_55 (R480). -/
def execDescSkip55 (s : State) : Host.Outcome State Fault Refusal := onDecoder descSkip55 s

/-- DESC_SKIP_69 (R480). -/
def execDescSkip69 (s : State) : Host.Outcome State Fault Refusal := onDecoder descSkip69 s

/-- DESC_SKIP_59 (R480). -/
def execDescSkip59 (loop : DescLoop) (s : State) : Host.Outcome State Fault Refusal := onDecoder (descSkip59 loop) s

/-- DESC_OTHER (R481). -/
def execDescOther (loop : DescLoop) (tag : Byte) (s : State) : Host.Outcome State Fault Refusal :=
  onDecoder (descOther loop tag) s

end Sys2Proof.Machine
end

