-- ==== Sys2Proof/Machine/Tables.lean ====
section
/-! DEFINITION. The table bodies PAT, NIT, SDT and EIT (44_tables.md R380-R405), the body dispatch (42_section_header.md
R313) and the table rows' meanings. -/

namespace Sys2Proof.Machine

/-- `Reader(lo, lim)` over the section body (R313): from t + 8 to crc_pos. -/
def bodyReader (w : Work) : Reader := ⟨w.tstart + 8, w.lim⟩

/-- One PAT entry (R380). -/
def patEntry (r : Reader) (w : Work) : Reader × Work :=
  let (pn, r, w) := readField 2 r w
  let (x, r, w) := readField 2 r w
  (r, w.emit (.patEntry w.src w.index (BitVec.ofNat 16 pn) (BitVec.ofNat 3 (x / 8192)) (BitVec.ofNat 13 x)
    (pn == 0)))

/-- `PatBody` (R380). -/
def patBody (w : Work) : Work := runRecords 4 patEntry (bodyReader w) w

/-- One NIT transport-stream record (R385): its tsid and onid are read and not emitted (D37). -/
def nitRecord (q : Reader) (w : Work) : Reader × Work :=
  let (_, q, w) := readField 2 q w
  let (_, q, w) := readField 2 q w
  let (x, q, w) := readField 2 q w
  let (d, q, w) := readSpan (x % 4096) q w
  (q, descLoop .nitTs d w)

/-- `NitBody` (R385). Bytes after the transport-stream loop are ignored (D57). -/
def nitBody (w : Work) : Work :=
  let (x, r, w) := readField 2 (bodyReader w) w
  let (net, r, w) := readSpan (x % 4096) r w
  let w := descLoop .nitNet net w
  let (y, r, w) := readField 2 r w
  let (ts, _, w) := readSpan (y % 4096) r w
  runRecords 6 nitRecord ts w

/-- The fields of a service record from its flags byte and its 16-bit field (R395). -/
def serviceRecord (sid fb x : Nat) : ServiceRecord :=
  ⟨BitVec.ofNat 16 sid, fb / 2 % 2 == 1, fb % 2 == 1, BitVec.ofNat 3 (x / 8192), x / 4096 % 2 == 1⟩

/-- One SDT service record (R395). -/
def sdtRecord (r : Reader) (w : Work) : Reader × Work :=
  let (sid, r, w) := readField 2 r w
  let (fb, r, w) := readField 1 r w
  let (x, r, w) := readField 2 r w
  let (d, r, w) := readSpan (x % 4096) r w
  (r, descLoop .sdtSvc d { w with record := serviceRecord sid fb x })

/-- `SdtBody` (R395): original_network_id and the reserved byte are skipped (C2, D29). -/
def sdtBody (w : Work) : Work :=
  let (_, r, w) := readField 2 (bodyReader w) w
  let (_, r, w) := readField 1 r w
  runRecords 5 sdtRecord r w

/-- The end of an event record (R405): the event is emitted only if a short-event descriptor was present. -/
def emitEvent (eid st du x : Nat) (w : Work) : Work :=
  if w.ev.hasShort then w.emit (.eitEvent w.src w.index (eventItem w.tidExt eid st du x w.ev)) else w

/-- One EIT event record (R405), with an event assembler of its own (R410). -/
def eitRecord (r : Reader) (w : Work) : Reader × Work :=
  let (eid, r, w) := readField 2 r w
  let (st, r, w) := readField 5 r w
  let (du, r, w) := readField 3 r w
  let (x, r, w) := readField 2 r w
  let (d, r, w) := readSpan (x % 4096) r w
  (r, emitEvent eid st du x (descLoop .eitEvt d { w with ev := EventAsm.new }))

/-- `EitBody` (R405): the service_id is the section's table_id_extension. -/
def eitBody (w : Work) : Work :=
  let (tsid, r, w) := readField 2 (bodyReader w) w
  let (onid, r, w) := readField 2 r w
  let (sl, r, w) := readField 1 r w
  let (lt, r, w) := readField 1 r w
  runRecords 12 eitRecord r (w.emit (.eitHdr w.src w.index w.tidExt (BitVec.ofNat 16 tsid) (BitVec.ofNat 16 onid)
    (BitVec.ofNat 8 sl) (BitVec.ofNat 8 lt)))

/-! ### One body per row -/

/-- TBL_PAT's body (R380). -/
def tblPat (w : Work) : Work := patBody w

/-- TBL_NIT_ACT's body (R385). -/
def tblNitAct (w : Work) : Work := nitBody w

/-- TBL_NIT_OTH's body (R385). -/
def tblNitOth (w : Work) : Work := nitBody w

/-- TBL_SDT_ACT's body (R395). -/
def tblSdtAct (w : Work) : Work := sdtBody w

/-- TBL_SDT_OTH's body (R395). -/
def tblSdtOth (w : Work) : Work := sdtBody w

/-- TBL_EIT_PF_ACT's body (R405). -/
def tblEitPfAct (w : Work) : Work := eitBody w

/-- TBL_EIT_PF_OTH's body (R405). -/
def tblEitPfOth (w : Work) : Work := eitBody w

/-- TBL_EIT_SCH_ACT's body (R405). The table_id's low bits change nothing. -/
def tblEitSchAct (_low : BitVec 4) (w : Work) : Work := eitBody w

/-- TBL_EIT_SCH_OTH's body (R405). The table_id's low bits change nothing. -/
def tblEitSchOth (_low : BitVec 4) (w : Work) : Work := eitBody w

/-- The body dispatch (R313), once decoded. A command or a descriptor is no table. -/
def runTable (i : Instr) (w : Work) : Work :=
  match i with
  | .tblPat => tblPat w
  | .tblNitAct => tblNitAct w
  | .tblNitOth => tblNitOth w
  | .tblSdtAct => tblSdtAct w
  | .tblSdtOth => tblSdtOth w
  | .tblEitPfAct => tblEitPfAct w
  | .tblEitPfOth => tblEitPfOth w
  | .tblEitSchAct low => tblEitSchAct low w
  | .tblEitSchOth low => tblEitSchOth low w
  | .nop | .findSync | .parse | .run | .decode | .crc | .reservedCmd67 _ | .reservedCmd8F _ => w
  | .descNetworkName | .descServiceList | .descService => w
  | .descShortEvent | .descExtendedEvent | .descContent => w
  | .descSkip50 | .descSkip55 | .descSkip69 | .descSkip59 _ | .descOther _ _ => w

/-! ### The rows' meanings -/

/-- TBL_PAT (R380). -/
def execTblPat (s : State) : Host.Outcome State Fault Refusal := onDecoder tblPat s

/-- TBL_NIT_ACT (R385). -/
def execTblNitAct (s : State) : Host.Outcome State Fault Refusal := onDecoder tblNitAct s

/-- TBL_NIT_OTH (R385). -/
def execTblNitOth (s : State) : Host.Outcome State Fault Refusal := onDecoder tblNitOth s

/-- TBL_SDT_ACT (R395). -/
def execTblSdtAct (s : State) : Host.Outcome State Fault Refusal := onDecoder tblSdtAct s

/-- TBL_SDT_OTH (R395). -/
def execTblSdtOth (s : State) : Host.Outcome State Fault Refusal := onDecoder tblSdtOth s

/-- TBL_EIT_PF_ACT (R405). -/
def execTblEitPfAct (s : State) : Host.Outcome State Fault Refusal := onDecoder tblEitPfAct s

/-- TBL_EIT_PF_OTH (R405). -/
def execTblEitPfOth (s : State) : Host.Outcome State Fault Refusal := onDecoder tblEitPfOth s

/-- TBL_EIT_SCH_ACT (R405). -/
def execTblEitSchAct (low : BitVec 4) (s : State) : Host.Outcome State Fault Refusal := onDecoder (tblEitSchAct low) s

/-- TBL_EIT_SCH_OTH (R405). -/
def execTblEitSchOth (low : BitVec 4) (s : State) : Host.Outcome State Fault Refusal := onDecoder (tblEitSchOth low) s

end Sys2Proof.Machine
end

