-- ==== Sys2Proof/Machine/Section.lean ====
section
/-! DEFINITION. The decode of one section (42_section_header.md R300-R316): class acceptance, the seven checks, the
header and the CRC check, the body dispatch, SEC_END. -/

namespace Sys2Proof.Machine

/-- `Accepts(cls, tid)` (R300). NONE never reaches the check; ANY accepts every value. -/
def accepts (cls : TableClass) (tid : Byte) : Bool :=
  match cls with
  | .pat => tid == 0x00#8
  | .nit => tid == 0x40#8 || tid == 0x41#8
  | .sdt => tid == 0x42#8 || tid == 0x46#8
  | .eit => 0x4E ≤ tid.toNat && tid.toNat ≤ 0x6F
  | .any => true
  | .none => false

/-- The largest section_length (R8, R310 check 5). -/
abbrev sectionLengthMax : Nat := 4093

/-- The table start `t = 1 + pointer_field` (R136). -/
def tableStart (S : Bytes) : Nat := 1 + (byteAt S 0).toNat

/-- The 2-byte length field (R310 step 2). -/
def lengthField (S : Bytes) : Nat := be S (tableStart S + 1) 2

/-- section_length, bits 11:0 of the length field (R137). -/
def sectionLength (S : Bytes) : Nat := lengthField S % 4096

/-- The first of R310's seven checks that fails, in their order (R311); none when all pass. -/
def sectionError (cls : TableClass) (S : Bytes) : Option ErrCode :=
  let t := tableStart S
  if S.length < 1 then some .truncatedSection
  else if S.length < t + 1 then some .truncatedSection
  else if !accepts cls (byteAt S t) then some .unexpectedTableId
  else if S.length < t + 3 then some .truncatedSection
  else if sectionLength S > sectionLengthMax then some .badSectionLength
  else if S.length - (t + 3) < sectionLength S then some .truncatedSection
  else if 1 ≤ sectionLength S ∧ sectionLength S ≤ 8 then some .truncatedSection
  else none

/-- `fail E` (R302): E noted, SEC_END emitted with its code. -/
def failSection (e : ErrCode) (w : Work) : Work :=
  (w.note e).emit (.secEnd w.src w.index e.code 0 w.ovf)

/-- The SEC_END that ends a decode (R310). -/
def endSection (w : Work) : Work := w.emit (.secEnd w.src w.index 0 w.crcStatus w.ovf)

/-- The SEC_HDR of a section with section_length 0 (R312): the fields outside it read 0, the CRC is not checked. -/
def emptyHeader (S : Bytes) : SectionHeader :=
  let t := tableStart S
  let x := lengthField S
  { pointerField := byteAt S 0, tableId := byteAt S t, ssi := x / 32768 % 2 == 1, priv := x / 16384 % 2 == 1,
    rsv1 := BitVec.ofNat 2 (x / 4096), sectionLength := 0, tidExt := 0, rsv2 := 0, version := 0,
    currentNext := false, sectionNumber := 0, lastSectionNumber := 0, crcStored := 0, crcCalc := 0,
    crcStatus := 0 }

/-- `crc_pos = t + 3 + L - 4` (R138). -/
def crcPos (S : Bytes) : Nat := tableStart S + 3 + sectionLength S - 4

/-- The stored CRC (R106). -/
def storedCrc (S : Bytes) : Word := BitVec.ofNat 32 (be S (crcPos S) 4)

/-- The computed CRC over `S[t .. crc_pos)` (R354, R361). -/
def calcCrc (S : Bytes) : Word := crc32 (slice S (tableStart S) (crcPos S))

/-- crc_status of a checked section (R310): 1 OK, 2 MISMATCH. -/
def checkedStatus (S : Bytes) : BitVec 2 := if calcCrc S = storedCrc S then 1 else 2

/-- The SEC_HDR of a section with section_length ≥ 9 (R310, R137). -/
def fullHeader (S : Bytes) : SectionHeader :=
  let t := tableStart S
  let vb := byteAt S (t + 5)
  { emptyHeader S with
    sectionLength := BitVec.ofNat 12 (sectionLength S), tidExt := BitVec.ofNat 16 (be S (t + 3) 2),
    rsv2 := vb.extractLsb' 6 2, version := vb.extractLsb' 1 5, currentNext := vb.getLsbD 0,
    sectionNumber := byteAt S (t + 6), lastSectionNumber := byteAt S (t + 7), crcStored := storedCrc S,
    crcCalc := calcCrc S, crcStatus := checkedStatus S }

/-- The working values at R310's body dispatch: the CRC checked, SEC_HDR emitted. -/
def atBody (w : Work) : Work :=
  let S := w.sec
  let w := { w with
    tstart := tableStart S
    lim := crcPos S
    tidExt := BitVec.ofNat 16 (be S (tableStart S + 3) 2)
    crcCalc := calcCrc S
    crcStatus := checkedStatus S }
  let w := if calcCrc S = storedCrc S then w else w.note .crcMismatch
  w.emit (.secHdr w.src w.index (fullHeader S))

/-- The body dispatch (R310, R313): the class and the table_id select the table row; ANY decodes no body. -/
def dispatchBody (w : Work) : Work :=
  match decodeTable w.cls (byteAt w.sec w.tstart) with
  | .ok i => runTable i w
  | .error _ => w

/-- `DecodeSection(S, cls, src, idx)` (R310), for cls ≠ NONE. -/
def decodeSection (S : Bytes) (cls : TableClass) (src : BitVec 4) (index : Word) : Work :=
  let w := Work.start S cls src index
  match sectionError cls S with
  | some e => failSection e w
  | none =>
    if sectionLength S = 0 then endSection (w.emit (.secHdr src index (emptyHeader S)))
    else endSection (dispatchBody (atBody w))

end Sys2Proof.Machine
end

