-- ==== Sys2Proof/Machine/Reassembler.lean ====
section
/-! DEFINITION. The reassembler (41_reassembler.md R250-R257): the per-context state machine and the walk of a RUN. -/

namespace Sys2Proof.Machine

/-- `Append(c, p)` (R255). -/
def appendPacket (secbuf c : Nat) (cfg : CtxCfg) (p : Packet) (x : Context) (a : Acc) : Context × Acc :=
  let room := secbuf - x.buf.length
  let clipped := p.payload.length > room
  let x := if clipped then { x with buf := x.buf ++ p.payload.take room, trunc := true }
    else { x with buf := x.buf ++ p.payload }
  let a := if clipped then a.note .secbufOverflow else a
  (x, if cfg.pkts then a.emit (.pkt (BitVec.ofNat 4 c) p) else a)

/-- `Open(c, p)` (R254). -/
def openUnit (secbuf c : Nat) (cfg : CtxCfg) (p : Packet) (x : Context) (a : Acc) : Context × Acc :=
  appendPacket secbuf c cfg p
    { x with k := BitVec.ofNat 32 x.closed, buf := [], trunc := false, state := .collect } a

/-- The tokens and notes of a section decode, after those before it. -/
def Acc.addWork (a : Acc) (w : Work) : Acc := ⟨a.out ++ w.out, a.notes ++ w.notes⟩

/-- `Close(c)` (R256). -/
def closeUnit (c : Nat) (cfg : CtxCfg) (x : Context) (a : Acc) : Context × Acc :=
  let src := BitVec.ofNat 4 c
  let a := if cfg.raw then a.emit (.secRaw src x.k x.buf x.trunc) else a
  let a := if cfg.cls = .none then a else a.addWork (decodeSection x.buf cfg.cls src x.k)
  ({ x with closed := x.closed + 1 }, a)

/-- `Step(c, p)` (R251). -/
def contextStep (secbuf c : Nat) (cfg : CtxCfg) (p : Packet) (x : Context) (a : Acc) : Context × Acc :=
  if p.pid ≠ cfg.pid then (x, a)
  else
    match x.state with
    | .done => (x, a)
    | .idle => if p.pusi then openUnit secbuf c cfg p x a else (x, a)
    | .collect =>
      if p.pusi then
        let (x, a) := closeUnit c cfg x a
        if cfg.all then openUnit secbuf c cfg p x a else ({ x with state := .done }, a)
      else appendPacket secbuf c cfg p x a

/-- One retained packet through the contexts from index `c` on, ascending (R270); a disabled one sees nothing
(R250). -/
def feedPacket (secbuf : Nat) (p : Packet) : Nat → List CtxSlot → Acc → List CtxSlot × Acc
  | _, [], a => ([], a)
  | c, x :: xs, a =>
    let (y, a) := if x.cfg.en then contextStep secbuf c x.cfg p x.ctx a else (x.ctx, a)
    let (ys, a) := feedPacket secbuf p (c + 1) xs a
    ({ x with ctx := y } :: ys, a)

/-- The framer's events in stream order (R270). -/
def feedEvents (secbuf : Nat) : List FrameEvent → List CtxSlot → Acc → List CtxSlot × Acc
  | [], xs, a => (xs, a)
  | .lost :: es, xs, a => feedEvents secbuf es xs (a.note .syncLost)
  | .pkt p :: es, xs, a => feedEvents secbuf es (feedPacket secbuf p 0 xs a).1 (feedPacket secbuf p 0 xs a).2

/-- The end-of-input closes (R257), contexts ascending from index `c`. -/
def closeAll : Nat → List CtxSlot → Acc → List CtxSlot × Acc
  | _, [], a => ([], a)
  | c, x :: xs, a =>
    let (y, a) := if x.cfg.en ∧ x.ctx.state = .collect then closeUnit c x.cfg x.ctx a else (x.ctx, a)
    let (ys, a) := closeAll (c + 1) xs a
    ({ x with ctx := y } :: ys, a)

/-- Every RUN starts each context idle and empty (R250). -/
def startContexts (xs : List CtxSlot) : List CtxSlot := xs.map fun x => { x with ctx := Context.initial }

end Sys2Proof.Machine
end

