-- ==== Sys2Proof/Machine/Commands.lean ====
section
/-! DEFINITION. The commands' `Exec` (30_encoding.md R180, R181; 40_framer.md R220, R221; 41_reassembler.md R270;
42_section_header.md R320; 43_crc32.md R360) and the command rows' meanings. -/

namespace Sys2Proof.Machine

/-- `Exec(0x0)` (R181). -/
def nopResult (s : State) : ExecResult := ⟨[], [], Completion.empty, s.ctxs⟩

/-- `Exec(op)` of a reserved command (R180). -/
def reservedResult (s : State) : ExecResult := ⟨[], [.badCommand], Completion.empty, s.ctxs⟩

/-- The note list a search begins with (R215). -/
def syncNotes : Option Nat → List ErrCode
  | none => [.notSynchronized]
  | some _ => []

/-- `Exec(0x1)` on a legal region (R220). -/
def findSyncResult (s : State) : ExecResult :=
  let q := findSync s.capAt s.start.toNat s.endOff.toNat
  ⟨[], syncNotes q, { Completion.empty with syncOff := some (syncWord q) }, s.ctxs⟩

/-- The framer's result CSRs (R221, R270). -/
def framerCompletion (f : Framed) : Completion :=
  { Completion.empty with
    syncOff := some (syncWord f.syncOff)
    pktCount := some (BitVec.ofNat 32 f.sliced.count)
    pktKept := some (BitVec.ofNat 32 f.sliced.kept)
    frPos := some (BitVec.ofNat 32 f.sliced.pos) }

/-- PARSE's walk of the event list (R221). -/
def parseEvents : List FrameEvent → Acc → Acc
  | [], a => a
  | .lost :: es, a => parseEvents es (a.note .syncLost)
  | .pkt p :: es, a => parseEvents es (a.emit (.pkt 0xF#4 p))

/-- `Exec(0x2)` on a legal region (R221). -/
def parseResult (s : State) : ExecResult :=
  let f := s.frame
  let a := parseEvents f.sliced.evs ⟨[], syncNotes f.syncOff⟩
  ⟨a.out, a.notes, framerCompletion f, s.ctxs⟩

/-- The units all contexts closed (R50). -/
def closedTotal (xs : List CtxSlot) : Nat := (xs.map fun x => x.ctx.closed).sum

/-- `Exec(0x3)` on a legal region (R270). CTX_STATE is what each context held before the end-of-input close. -/
def runResult (s : State) : ExecResult :=
  let f := s.frame
  let fed := feedEvents s.inst.secbufSize f.sliced.evs (startContexts s.ctxs) ⟨[], syncNotes f.syncOff⟩
  let fin := closeAll 0 fed.1 fed.2
  ⟨fin.2.out, fin.2.notes,
    { framerCompletion f with
      secCount := some (BitVec.ofNat 32 (closedTotal fin.1))
      ctxResults := some (List.zipWith (fun y x => (BitVec.ofNat 32 y.ctx.closed, x.ctx.state)) fin.1 fed.1) },
    fin.1⟩

/-- `Exec(0x4)` on a legal region (R320). CRC_RESULT is written only when the CRC was checked. -/
def decodeResult (s : State) : ExecResult :=
  if s.decClass = .none then ⟨[], [], Completion.empty, s.ctxs⟩
  else
    let w := decodeSection (s.capBytes s.start.toNat s.endOff.toNat) s.decClass 0xF#4 0
    ⟨w.out, w.notes,
      { Completion.empty with crcResult := if w.crcStatus = 0 then none else some w.crcCalc }, s.ctxs⟩

/-- `Exec(0x5)` on a legal region (R360). -/
def crcCommandResult (s : State) : ExecResult :=
  ⟨[], [], { Completion.empty with crcResult := some (crc32 (s.capBytes s.start.toNat s.endOff.toNat)) }, s.ctxs⟩

/-! ### The rows' meanings: the accept step of R61 -/

/-- NOP (R181). -/
def execNop (s : State) : Host.Outcome State Fault Refusal := acceptCommand 0x0#4 nopResult s

/-- FIND_SYNC (R220). -/
def execFindSync (s : State) : Host.Outcome State Fault Refusal := acceptCommand 0x1#4 (checkRegion findSyncResult) s

/-- PARSE (R221). -/
def execParse (s : State) : Host.Outcome State Fault Refusal := acceptCommand 0x2#4 (checkRegion parseResult) s

/-- RUN (R270). -/
def execRun (s : State) : Host.Outcome State Fault Refusal := acceptCommand 0x3#4 (checkRegion runResult) s

/-- DECODE (R320). -/
def execDecode (s : State) : Host.Outcome State Fault Refusal := acceptCommand 0x4#4 (checkRegion decodeResult) s

/-- CRC (R360). -/
def execCrc (s : State) : Host.Outcome State Fault Refusal := acceptCommand 0x5#4 (checkRegion crcCommandResult) s

/-- RESERVED_CMD_6_7 (R180): OP 6 or 7 is stored and accepted, and completes with BAD_COMMAND. -/
def execReservedCmd67 (low : BitVec 1) (s : State) : Host.Outcome State Fault Refusal :=
  acceptCommand (0b011#3 ++ low) reservedResult s

/-- RESERVED_CMD_8_F (R180): OP 8 to 15 is stored and accepted, and completes with BAD_COMMAND. -/
def execReservedCmd8F (low : BitVec 3) (s : State) : Host.Outcome State Fault Refusal :=
  acceptCommand (1#1 ++ low) reservedResult s

end Sys2Proof.Machine
end

