-- ==== Sys2Proof/Machine/HostPort.lean ====
section
/-! DEFINITION. The host's operations (20_memory.md R100-R103, R108; 46_output.md R525): the CSR map and its access
rules (10_state.md R34-R57), the CAPMEM port, the token port. A write to CMD is an instruction: see Fetch.lean. -/

namespace Sys2Proof.Machine

/-- The registers of R35's map. -/
inductive CsrReg where
  | cmd
  | status
  | ctrl
  | start
  | endOff
  | pidf
  | decClass
  | syncOff
  | pktCount
  | pktKept
  | frPos
  | crcResult
  | secCount
  | errCode
  | hwcfg
  | capsize
  | ctxCfg (c : Nat)
  | ctxSecs (c : Nat)
  | ctxState (c : Nat)
  deriving DecidableEq, Repr

/-- The byte offset of a register (R35). -/
def csrOffset : CsrReg → Nat
  | .cmd => 0x000
  | .status => 0x004
  | .ctrl => 0x008
  | .start => 0x00C
  | .endOff => 0x010
  | .pidf => 0x014
  | .decClass => 0x018
  | .syncOff => 0x01C
  | .pktCount => 0x020
  | .pktKept => 0x024
  | .frPos => 0x028
  | .crcResult => 0x02C
  | .secCount => 0x030
  | .errCode => 0x034
  | .hwcfg => 0x038
  | .capsize => 0x03C
  | .ctxCfg c => 0x040 + 0x10 * c
  | .ctxSecs c => 0x044 + 0x10 * c
  | .ctxState c => 0x048 + 0x10 * c

/-- The register at a byte offset, in an instance with `nCtx` contexts (R35). Offsets that are no multiple of 4, the
reserved word of each context and the contexts from N_CTX on are unmapped (R34, R56, R100). -/
def csrAt (nCtx off : Nat) : Option CsrReg :=
  match off with
  | 0x000 => some .cmd
  | 0x004 => some .status
  | 0x008 => some .ctrl
  | 0x00C => some .start
  | 0x010 => some .endOff
  | 0x014 => some .pidf
  | 0x018 => some .decClass
  | 0x01C => some .syncOff
  | 0x020 => some .pktCount
  | 0x024 => some .pktKept
  | 0x028 => some .frPos
  | 0x02C => some .crcResult
  | 0x030 => some .secCount
  | 0x034 => some .errCode
  | 0x038 => some .hwcfg
  | 0x03C => some .capsize
  | n =>
    let c := (n - 0x040) / 0x10
    if 0x040 ≤ n ∧ c < nCtx then
      match n % 0x10 with
      | 0x0 => some (.ctxCfg c)
      | 0x4 => some (.ctxSecs c)
      | 0x8 => some (.ctxState c)
      | _ => none
    else none

/-- A register's value as read (R36-R55): reserved bits read 0. -/
def readReg (s : State) : CsrReg → Word
  | .cmd => s.op.setWidth 32
  | .status => s.statusWord
  | .ctrl => s.ctrl.setWidth 32
  | .start => s.start
  | .endOff => s.endOff
  | .pidf => s.pidfWord
  | .decClass => (classCode s.decClass).setWidth 32
  | .syncOff => s.syncOff
  | .pktCount => s.pktCount
  | .pktKept => s.pktKept
  | .frPos => s.frPos
  | .crcResult => s.crcResult
  | .secCount => s.secCount
  | .errCode => s.errCode.setWidth 32
  | .hwcfg => s.hwcfgWord
  | .capsize => BitVec.ofNat 32 s.inst.capSize
  | .ctxCfg c => (s.ctxs[c]?.map fun x => x.cfg.word).getD 0
  | .ctxSecs c => (s.ctxs[c]?.map fun x => x.secs).getD 0
  | .ctxState c => (s.ctxs[c]?.map fun x => x.last.code.setWidth 32).getD 0

/-- The configuration registers: the RW registers but CMD, whose write is dropped while BUSY (R34). -/
def isConfigReg : CsrReg → Bool
  | .ctrl | .start | .endOff | .pidf | .decClass | .ctxCfg _ => true
  | .cmd | .status => false
  | .syncOff | .pktCount | .pktKept | .frPos | .crcResult | .secCount | .errCode => false
  | .hwcfg | .capsize | .ctxSecs _ | .ctxState _ => false

/-- A write of a configuration register (R39-R44, R53): reserved bits are ignored, class codes 4 and 5 store 6. -/
def storeReg (r : CsrReg) (v : Word) (s : State) : State :=
  match r with
  | .ctrl => { s with ctrl := v.extractLsb' 0 4 }
  | .start => { s with start := v }
  | .endOff => { s with endOff := v }
  | .pidf => { s with pidfEn := v.getLsbD 31, pidfPid := v.extractLsb' 0 13 }
  | .decClass => { s with decClass := classOfCode (v.extractLsb' 0 3) }
  | .ctxCfg c => { s with ctxs := s.ctxs.modify c fun x => { x with cfg := CtxCfg.ofWord v } }
  | .cmd | .status => s
  | .syncOff | .pktCount | .pktKept | .frPos | .crcResult | .secCount | .errCode => s
  | .hwcfg | .capsize | .ctxSecs _ | .ctxState _ => s

/-- A write to a register other than CMD (R34): STATUS always takes it, a configuration register takes it while BUSY = 0
and drops it with E_HAZARD while BUSY = 1, a read-only register ignores it. -/
def writeReg (r : CsrReg) (v : Word) (s : State) : State :=
  if r = .status then clearStatus v s
  else if isConfigReg r then
    match s.phase with
    | .idle => storeReg r v s
    | .busy => dropWrite s
  else s

/-- The value an operation returns to the host (log 5). -/
def State.reply (s : State) (r : Response) : State := { s with hostLog := s.hostLog ++ [r] }

/-- `CsrRead(off)` (R34, R100): an unmapped offset reads 0. -/
def csrRead (off : Nat) (s : State) : State :=
  s.reply (.csr (((csrAt s.inst.nCtx off).map (readReg s)).getD 0))

/-- `CsrWrite(off, v)` (R34, R100) of an offset other than CMD's: at an unmapped offset nothing happens. -/
def csrWrite (off : Nat) (v : Word) (s : State) : State :=
  match csrAt s.inst.nCtx off with
  | some r => writeReg r v s
  | none => s

/-- `CapWrite(a, v)` (R100, R102). While BUSY it is dropped and sets E_HAZARD; whether it does so beyond CAP_SIZE, where
R100 gives it no effect, is a free value (log 11). -/
def capWrite (a : Nat) (v : Byte) (s : State) : State :=
  match s.phase with
  | .idle => if a < s.inst.capSize then { s with mem := s.mem.write a v } else s
  | .busy => if a < s.inst.capSize ∨ Config.hazardOutsideCap = true then dropWrite s else s

/-- `CapRead(a)` (R100, R102). -/
def capRead (a : Nat) (s : State) : State := s.reply (.byte (s.capAt a))

/-- `TokPop()` (R525). -/
def tokPop (s : State) : State :=
  match s.fifo with
  | [] => s.reply .empty
  | t :: ts => { s.reply (.token t) with fifo := ts }

/-- A host operation that is not a write to CMD. -/
def hostStep (op : HostOp) (s : State) : State :=
  match op with
  | .capWrite a v => capWrite a v s
  | .capRead a => capRead a s
  | .csrWrite off v => csrWrite off v s
  | .csrRead off => csrRead off s
  | .tokPop => tokPop s

end Sys2Proof.Machine
end

