-- ==== Sys2Proof/Machine/Fetch.lean ====
section
/-! DEFINITION. What the next step does (00_scope.md R7, 20_memory.md R111): run an instruction, or make one move of an
agent. A command is fetched from the host's write to CMD (30_encoding.md R131); a table or descriptor instruction from
the section bytes, when the section decoder is run one dispatch at a time (log 7). -/

namespace Sys2Proof.Machine

/-- What a step is about to do: run an instruction in a state, or nothing more than reach a state. -/
inductive Fetched where
  | run (i : Instr) (s : State)
  | done (s : State)

/-- At a table dispatch (R313): the table_id under the class selects the instruction, and the decode stands at its
SEC_END next. Under ANY there is no body, so there is no instruction. -/
def fetchTable (s : State) : Fetched :=
  let s' := { s with decoder := { s.decoder with stage := .close } }
  match decodeTable s.decoder.cls (byteAt s.decoder.sec s.decoder.tstart) with
  | .ok i => .run i s'
  | .error _ => .done s'

/-- In a descriptor loop (R451, R452): while a descriptor header fits, its tag within the loop selects the instruction
and the cursor moves past the body; otherwise the loop ends. -/
def fetchDescriptorStep (s : State) : Fetched :=
  let w := s.decoder
  if w.rd.cur + 2 ≤ w.rd.lim then
    .run (fetchDescriptor w.rd w).1 { s with decoder := (fetchDescriptor w.rd w).2 }
  else .done { s with decoder := { loopRemainder w.rd w with stage := .close } }

/-- The end of a section decode run one dispatch at a time: SEC_END, and the tokens and notes join P and N. -/
def closeDecode (s : State) : State :=
  { s with
    pend := s.pend ++ (endSection s.decoder).out
    notes := s.notes ++ (endSection s.decoder).notes
    decoder := Work.idle }

/-- A host operation: a write to CMD is fetched as a command (R36, R600), any other takes effect at once (R108). -/
def fetchHost (op : HostOp) (s : State) : Fetched :=
  match op with
  | .csrWrite off v => if csrAt s.inst.nCtx off = some .cmd then .run (decodeCommand v) s else .done (hostStep op s)
  | .capWrite _ _ | .capRead _ | .csrRead _ | .tokPop => .done (hostStep op s)

/-- One round of `wait` (R190): STATUS is read; while BUSY = 1 the engine moves and `wait` repeats (log 13). -/
def waitRound (s : State) : State :=
  let t := s.reply (.csr s.statusWord)
  if s.busy then { t with schedule := .engine :: .wait :: s.schedule } else t

/-- One round of `drain` (R190): while tokens remain or BUSY = 1, one pop, then the engine moves and `drain` repeats
(log 13). -/
def drainRound (s : State) : State :=
  if !s.fifo.isEmpty || s.busy then { tokPop s with schedule := .engine :: .drain :: s.schedule } else s

/-- One move of an agent, already taken off the schedule. -/
def fetchMove (m : Move) (s : State) : Fetched :=
  match m with
  | .host op => fetchHost op s
  | .engine => .done (engineStep s)
  | .reset => .done (resetBlock s)
  | .wait => .done (waitRound s)
  | .drain => .done (drainRound s)

/-- What the next step does. A section decode in progress is part of one command's computation, which no agent's move
interrupts (R3, R61). Otherwise the next move of the schedule is made; when none is left the engine moves (log 4). -/
def fetch (s : State) : Fetched :=
  match s.decoder.stage with
  | .table => fetchTable s
  | .descriptor => fetchDescriptorStep s
  | .close => .done (closeDecode s)
  | .idle =>
    match s.schedule with
    | [] => .done (engineStep s)
    | m :: ms => fetchMove m { s with schedule := ms }

/-! ### Placing an instruction where it is fetched (log 8) -/

/-- A section decode at the body dispatch of a section whose table_id is `tid` and whose other bytes are 0, with an
empty body. -/
def workAtTable (cls : TableClass) (tid : Byte) : Work :=
  { Work.start (0 :: tid :: List.replicate 11 0) cls 0xF#4 0 with tstart := 1, lim := 9, stage := .table }

/-- A section decode in a descriptor loop of one descriptor whose tag is `tag` and whose length is 0. -/
def workAtDescriptor (loop : DescLoop) (tag : Byte) : Work :=
  { Work.start [tag, 0] .any 0xF#4 0 with rd := ⟨0, 2⟩, loop := loop, stage := .descriptor }

/-- `s` with a word stored where the next instruction is fetched: a CMD write as the host's next move with the engine
idle, or a section decode at its dispatch inside a command. -/
def placeWord (format : Format) (bits : Word) (s : State) : State :=
  match format with
  | .command =>
    { s with
      phase := .idle
      decoder := { s.decoder with stage := .idle }
      schedule := .host (.csrWrite (csrOffset .cmd) bits) :: s.schedule }
  | .tableId cls => { s with phase := .busy, decoder := workAtTable cls (bits.setWidth 8) }
  | .descriptor loop => { s with phase := .busy, decoder := workAtDescriptor loop (bits.setWidth 8) }

end Sys2Proof.Machine
end

