-- ==== Sys2Proof/Machine/Dispatch.lean ====
section
/-! DEFINITION. The dispatch: one arm per instruction, one meaning per arm. -/

namespace Sys2Proof.Machine

-- Every row of spec/opcode_table.json has its meaning; no arm is refused.
def exec (i : Instr) (s : State) : Host.Outcome State Fault Refusal :=
  match i with
  | .nop => Sys2Proof.Machine.execNop s
  | .findSync => Sys2Proof.Machine.execFindSync s
  | .parse => Sys2Proof.Machine.execParse s
  | .run => Sys2Proof.Machine.execRun s
  | .decode => Sys2Proof.Machine.execDecode s
  | .crc => Sys2Proof.Machine.execCrc s
  | .reservedCmd67 low => Sys2Proof.Machine.execReservedCmd67 low s
  | .reservedCmd8F low => Sys2Proof.Machine.execReservedCmd8F low s
  | .tblPat => Sys2Proof.Machine.execTblPat s
  | .tblNitAct => Sys2Proof.Machine.execTblNitAct s
  | .tblNitOth => Sys2Proof.Machine.execTblNitOth s
  | .tblSdtAct => Sys2Proof.Machine.execTblSdtAct s
  | .tblSdtOth => Sys2Proof.Machine.execTblSdtOth s
  | .tblEitPfAct => Sys2Proof.Machine.execTblEitPfAct s
  | .tblEitPfOth => Sys2Proof.Machine.execTblEitPfOth s
  | .tblEitSchAct low => Sys2Proof.Machine.execTblEitSchAct low s
  | .tblEitSchOth low => Sys2Proof.Machine.execTblEitSchOth low s
  | .descNetworkName => Sys2Proof.Machine.execDescNetworkName s
  | .descServiceList => Sys2Proof.Machine.execDescServiceList s
  | .descService => Sys2Proof.Machine.execDescService s
  | .descShortEvent => Sys2Proof.Machine.execDescShortEvent s
  | .descExtendedEvent => Sys2Proof.Machine.execDescExtendedEvent s
  | .descContent => Sys2Proof.Machine.execDescContent s
  | .descSkip50 => Sys2Proof.Machine.execDescSkip50 s
  | .descSkip55 => Sys2Proof.Machine.execDescSkip55 s
  | .descSkip69 => Sys2Proof.Machine.execDescSkip69 s
  | .descSkip59 loop => Sys2Proof.Machine.execDescSkip59 loop s
  | .descOther loop tag => Sys2Proof.Machine.execDescOther loop tag s

end Sys2Proof.Machine
end

