-- ==== Sys2Proof/Machine/Step.lean ====
section
/-! DEFINITION. One step of the machine, and placing an instruction where the step fetches it. -/

namespace Sys2Proof.Machine

/-- One step: what `fetch` selects, an instruction being run by `exec`. -/
def step (s : State) : Host.Outcome State Fault Refusal :=
  match fetch s with
  | .run i t => exec i t
  | .done t => .next t

/-- `s` with the instruction word stored where `step` fetches its next instruction, in the format the word is read in
(log 8, log 9). -/
def State.withFetchWord (s : State) (nbits w : Nat) : State :=
  placeWord (tableWordFormat nbits w) (BitVec.ofNat 32 (w % 2 ^ nbits)) s

end Sys2Proof.Machine
end

