-- ==== Sys2Proof/Machine/HostProgram.lean ====
section
/-! DEFINITION. The host program syntax (30_encoding.md R190): each line as the moves it stands for. -/

namespace Sys2Proof.Machine

/-- A line of a host program (R190). -/
inductive HostLine where
  | capw (address : Nat) (bytes : Bytes)
  | capfill (address n : Nat) (b : Byte)
  | csrw (r : CsrReg) (v : Word)
  | csrr (r : CsrReg)
  | wait
  | pop
  | drain
  | run (op : Word)
  | clr
  deriving DecidableEq, Repr

/-- One CapWrite for each byte, at rising addresses (R190). -/
def capwMoves : Nat → Bytes → List Move
  | _, [] => []
  | a, b :: bs => .host (.capWrite a b) :: capwMoves (a + 1) bs

/-- The moves of a line. `run` is a CMD write and a drain, `clr` writes 0x000FFF02 to STATUS (R190). -/
def lineMoves : HostLine → List Move
  | .capw a bs => capwMoves a bs
  | .capfill a n b => capwMoves a (List.replicate n b)
  | .csrw r v => [.host (.csrWrite (csrOffset r) v)]
  | .csrr r => [.host (.csrRead (csrOffset r))]
  | .wait => [.wait]
  | .pop => [.host .tokPop]
  | .drain => [.drain]
  | .run op => [.host (.csrWrite (csrOffset .cmd) op), .drain]
  | .clr => [.host (.csrWrite (csrOffset .status) 0x000FFF02#32)]

/-- The moves of a host program, loaded from outside the machine (log 8). -/
def State.withProgram (s : State) (p : List HostLine) : State := { s with schedule := p.flatMap lineMoves }

end Sys2Proof.Machine
end

