-- ==== Sys2Proof/Safety.lean ====
section
/-! DEFINITION. What counts as a good state and a safe run: the invariant every step keeps, and never stopping; and the
terms the statements use. -/

namespace Sys2Proof.Machine

/-- The invariant: the instance is legal (R8); CAPMEM is canonical and inside 0..CAP_SIZE-1 (R33); the FIFO holds at
most OUT_DEPTH tokens (R65); there are N_CTX contexts (R30); E_ENC is 0 (R37); while the engine is idle P, Q and the
note list are empty and no section decode is in progress (R60); while it is idle the contexts hold nothing (R63), and a
context's buffer never exceeds SECBUF_SIZE (R63); DONE = 1 only between commands (R37, R61). -/
structure State.Inv (s : State) : Prop where
  legal : s.inst.Legal
  memWf : s.mem.wf
  memInside : ∀ c ∈ s.mem, c.1 < s.inst.capSize
  fifoFits : s.fifo.length ≤ s.inst.outDepth
  ctxCount : s.ctxs.length = s.inst.nCtx
  noEncBit : s.errs.getLsbD 4 = false
  noEncNote : .unsupportedEncoding ∉ s.notes ++ s.decoder.notes
  idleEmpty : s.phase = .idle → s.pend = [] ∧ s.notes = [] ∧ s.compl = Completion.empty ∧ s.decoder.stage = .idle
  idleContexts : s.phase = .idle → ∀ x ∈ s.ctxs, x.ctx = Context.initial
  bufFits : ∀ x ∈ s.ctxs, x.ctx.buf.length ≤ s.inst.secbufSize
  doneIdle : s.done = true → s.phase = .idle

/-- A state no step stops in: the next step answers a state. -/
def State.Runs (s : State) : Prop := ∃ t, step s = .next t

/-- The states a run from `s` reaches. -/
inductive Reaches (s : State) : State → Prop where
  | start : Reaches s s
  | step {t u : State} : Reaches s t → Machine.step t = .next u → Reaches s u

/-- A safe run: every state reached has the invariant and goes on. -/
def State.Safe (s : State) : Prop := ∀ t, Reaches s t → t.Inv ∧ t.Runs

/-! ### Terms of the statements -/

/-- The rows of format `command` (R131). -/
def isCommand : Instr → Bool
  | .nop | .findSync | .parse | .run | .decode | .crc | .reservedCmd67 _ | .reservedCmd8F _ => true
  | .tblPat | .tblNitAct | .tblNitOth | .tblSdtAct | .tblSdtOth => false
  | .tblEitPfAct | .tblEitPfOth | .tblEitSchAct _ | .tblEitSchOth _ => false
  | .descNetworkName | .descServiceList | .descService => false
  | .descShortEvent | .descExtendedEvent | .descContent => false
  | .descSkip50 | .descSkip55 | .descSkip69 | .descSkip59 _ | .descOther _ _ => false

/-- The result CSRs of R711. -/
def isResultReg : CsrReg → Bool
  | .syncOff | .pktCount | .pktKept | .frPos | .crcResult | .secCount | .errCode => true
  | .ctxSecs _ | .ctxState _ => true
  | .cmd | .status | .ctrl | .start | .endOff | .pidf | .decClass | .hwcfg | .capsize | .ctxCfg _ => false

/-- The region of R42, as a proposition. -/
def State.HasRegion (s : State) : Prop := s.start.toNat ≤ s.endOff.toNat ∧ s.endOff.toNat ≤ s.inst.capSize

/-- The tokens the host has popped, oldest first. -/
def tokensRead (log : List Response) : List Token :=
  log.filterMap fun r => match r with
    | .token t => some t
    | .byte _ | .csr _ | .empty => none

/-- Every token computed since the log began, in order: popped, in the FIFO, pending. -/
def State.stream (s : State) : List Token := tokensRead s.hostLog ++ s.fifo ++ s.pend

/-- Every value R700 states for reset. -/
def State.AtReset (t : State) : Prop :=
  (readReg t .cmd = 0 ∧ readReg t .status = 0 ∧ readReg t .ctrl = 0x00000002#32 ∧ readReg t .start = 0 ∧
    readReg t .endOff = 0 ∧ readReg t .pidf = 0 ∧ readReg t .decClass = 0x00000007#32) ∧
  (readReg t .syncOff = 0xFFFFFFFF#32 ∧ readReg t .pktCount = 0 ∧ readReg t .pktKept = 0 ∧ readReg t .frPos = 0 ∧
    readReg t .crcResult = 0 ∧ readReg t .secCount = 0 ∧ readReg t .errCode = 0) ∧
  (readReg t .hwcfg = BitVec.ofNat 16 t.inst.secbufSize ++ 0#12 ++ BitVec.ofNat 4 t.inst.nCtx ∧
    readReg t .capsize = BitVec.ofNat 32 t.inst.capSize) ∧
  (t.ctxs.length = t.inst.nCtx ∧ ∀ c, c < t.inst.nCtx →
    readReg t (.ctxCfg c) = 0x0000C000#32 ∧ readReg t (.ctxSecs c) = 0 ∧ readReg t (.ctxState c) = 0) ∧
  (∀ x ∈ t.ctxs, x.ctx = ⟨.idle, 0, [], false, 0⟩) ∧
  (t.phase = .idle ∧ t.pend = [] ∧ t.compl = Completion.empty ∧ t.notes = [] ∧ t.fifo = [] ∧ t.irq = false) ∧
  (∀ a, a < t.inst.capSize → t.capAt a = Config.capReset t.epoch a)

/-- A body token of one unit (R523): of a kind R164-R170 list, carrying the unit's `src` and `index`. -/
def Token.isBody (src : BitVec 4) (index : Word) : Token → Bool
  | .patEntry s i _ _ _ _ | .nitName s i _ | .nitService s i _ _ => s == src && i == index
  | .sdtService s i _ _ _ _ | .eitHdr s i _ _ _ _ _ | .eitEvent s i _ => s == src && i == index
  | .pkt _ _ | .secRaw _ _ _ _ | .secHdr _ _ _ | .secEnd _ _ _ _ _ => false

/-- The `src` of a token (R161-R171). -/
def Token.src : Token → BitVec 4
  | .pkt s _ | .secRaw s _ _ _ | .secHdr s _ _ | .patEntry s _ _ _ _ _ | .nitName s _ _ | .nitService s _ _ _ => s
  | .sdtService s _ _ _ _ _ | .eitHdr s _ _ _ _ _ _ | .eitEvent s _ _ | .secEnd s _ _ _ _ => s

/-- The tokens of one source, in order. -/
def tokensOf (src : BitVec 4) (ts : List Token) : List Token := ts.filter fun t => t.src == src

/-- The packet of a framer event. -/
def FrameEvent.packet? : FrameEvent → Option Packet
  | .pkt p => some p
  | .lost => none

/-- SYNC_LOST for each loss of sync (R213). -/
def FrameEvent.note? : FrameEvent → Option ErrCode
  | .pkt _ => none
  | .lost => some .syncLost

/-- The unit indexes of context `src`'s SEC_END tokens, in order. -/
def closedUnits (src : BitVec 4) (ts : List Token) : List Word :=
  ts.filterMap fun t => match t with
    | .secEnd s i _ _ _ => if s = src then some i else none
    | .pkt _ _ | .secRaw _ _ _ _ | .secHdr _ _ _ | .patEntry _ _ _ _ _ _ | .nitName _ _ _ => none
    | .nitService _ _ _ _ | .sdtService _ _ _ _ _ _ | .eitHdr _ _ _ _ _ _ _ | .eitEvent _ _ _ => none

/-- `w'` is `w` after `n` occurrences of `overflow()` and the tokens `ts`, with the unit it decodes, its header values
and its stage unchanged. -/
def Work.Adds (w w' : Work) (ts : List Token) (n : Nat) : Prop :=
  w'.out = w.out ++ ts ∧ w'.notes = w.notes ++ List.replicate n .descriptorOverflow ∧
    w'.ovf = (w.ovf || n != 0) ∧ w'.sec = w.sec ∧ w'.src = w.src ∧ w'.index = w.index ∧ w'.cls = w.cls ∧
    w'.tstart = w.tstart ∧ w'.lim = w.lim ∧ w'.tidExt = w.tidExt ∧ w'.crcCalc = w.crcCalc ∧
    w'.crcStatus = w.crcStatus ∧ w'.stage = w.stage

/-- What a section decode reports: its tokens, its notes and the outcome of its CRC check. -/
def Work.SameReport (w w' : Work) : Prop :=
  w'.out = w.out ∧ w'.notes = w.notes ∧ w'.crcCalc = w.crcCalc ∧ w'.crcStatus = w.crcStatus

end Sys2Proof.Machine
end

