-- ==== Sys2Proof/Certificates/Slice0/Obligations.lean ====
section
/-! DEFINITION. The statements for the provers, in the order of the spec's files. -/

section

open Sys2Proof Sys2Proof.Machine

/-! ### Encoding and decoding (30_encoding.md) -/

/-- R130, R131, R145, R146: no bit of an encoding is dropped: every well-formed instruction is what its encoding
decodes to. -/
def Obligations.DecodingAnEncodingGivesTheInstruction : Prop :=
  ∀ i : Instr, i.wellFormed = true → decode (encode i) = .ok i

/-- R131, R145, R146: whatever a decoder answers is a well-formed instruction whose encoding is the word it read, a
command word's bits 31:4 apart. -/
def Obligations.EncodingADecodedWordGivesTheWord : Prop :=
  (∀ v : Word, (decodeCommand v).wellFormed = true ∧ encode (decodeCommand v) = ⟨.command, v &&& 0xF#32⟩) ∧
  (∀ (cls : TableClass) (tid : Byte) (i : Instr), decodeTable cls tid = .ok i →
    i.wellFormed = true ∧ encode i = ⟨.tableId cls, tid.setWidth 32⟩) ∧
  (∀ (loop : DescLoop) (tag : Byte), (decodeDescriptor loop tag).wellFormed = true ∧
    encode (decodeDescriptor loop tag) = ⟨.descriptor loop, tag.setWidth 32⟩)

/-- R300, R145: the table_ids a class accepts, and that the table decoder finds an instruction for exactly those, namely the
row of R145; ANY accepts every table_id and has no body. -/
def Obligations.TableDecoderAcceptsItsClass : Prop :=
  ∀ tid : Byte,
    (accepts .pat tid = true ↔ tid = 0x00#8) ∧
    (accepts .nit tid = true ↔ tid = 0x40#8 ∨ tid = 0x41#8) ∧
    (accepts .sdt tid = true ↔ tid = 0x42#8 ∨ tid = 0x46#8) ∧
    (accepts .eit tid = true ↔ 0x4E#8 ≤ tid ∧ tid ≤ 0x6F#8) ∧
    accepts .any tid = true ∧
    (∀ cls, cls ≠ .any → cls ≠ .none → ((∃ i, decodeTable cls tid = .ok i) ↔ accepts cls tid = true)) ∧
    decodeTable .any tid = .error (.noBody .any) ∧ decodeTable .none tid = .error (.noBody .none) ∧
    decodeTable .pat 0x00#8 = .ok .tblPat ∧ decodeTable .nit 0x40#8 = .ok .tblNitAct ∧
    decodeTable .nit 0x41#8 = .ok .tblNitOth ∧ decodeTable .sdt 0x42#8 = .ok .tblSdtAct ∧
    decodeTable .sdt 0x46#8 = .ok .tblSdtOth ∧ decodeTable .eit 0x4E#8 = .ok .tblEitPfAct ∧
    decodeTable .eit 0x4F#8 = .ok .tblEitPfOth ∧
    ∀ low : BitVec 4, decodeTable .eit (0x5#4 ++ low) = .ok (.tblEitSchAct low) ∧
      decodeTable .eit (0x6#4 ++ low) = .ok (.tblEitSchOth low)

/-- Words written out from the encodings of R131, R145 and R146 decode to the instructions they stand for, and every tag of
every loop selects the row of R146's table. -/
def Obligations.SpecWordsDecodeToTheirInstructions : Prop :=
  decode ⟨.command, 0x00000003#32⟩ = .ok .run ∧
  decode ⟨.command, 0x00000010#32⟩ = .ok .nop ∧
  decode ⟨.command, 0xFFFFFFF7#32⟩ = .ok (.reservedCmd67 1#1) ∧
  decode ⟨.command, 0x0000000D#32⟩ = .ok (.reservedCmd8F 0b101#3) ∧
  decode ⟨.tableId .pat, 0x00#32⟩ = .ok .tblPat ∧
  decode ⟨.tableId .eit, 0x5A#32⟩ = .ok (.tblEitSchAct 0xA#4) ∧
  decode ⟨.tableId .sdt, 0x41#32⟩ = .error (.unexpectedTableId .sdt 0x41#8) ∧
  decode ⟨.descriptor .sdtSvc, 0x48#32⟩ = .ok .descService ∧
  decode ⟨.descriptor .eitEvt, 0x48#32⟩ = .ok (.descOther .eitEvt 0x48#8) ∧
  decode ⟨.descriptor .nitTs, 0x59#32⟩ = .ok (.descSkip59 .nitTs) ∧
  decode ⟨.command, 0x1#32⟩ = .ok .findSync ∧ decode ⟨.command, 0x2#32⟩ = .ok .parse ∧
  decode ⟨.command, 0x4#32⟩ = .ok .decode ∧ decode ⟨.command, 0x5#32⟩ = .ok .crc ∧
  ∀ (loop : DescLoop) (tag : Byte), decode ⟨.descriptor loop, tag.setWidth 32⟩ = .ok (
    if loop = .nitNet ∧ tag = 0x40#8 then .descNetworkName
    else if loop = .nitTs ∧ tag = 0x41#8 then .descServiceList
    else if loop = .sdtSvc ∧ tag = 0x48#8 then .descService
    else if loop = .eitEvt ∧ tag = 0x4D#8 then .descShortEvent
    else if loop = .eitEvt ∧ tag = 0x4E#8 then .descExtendedEvent
    else if loop = .eitEvt ∧ tag = 0x54#8 then .descContent
    else if loop = .eitEvt ∧ tag = 0x50#8 then .descSkip50
    else if loop = .eitEvt ∧ tag = 0x55#8 then .descSkip55
    else if loop = .eitEvt ∧ tag = 0x69#8 then .descSkip69
    else if tag = 0x59#8 then .descSkip59 loop
    else .descOther loop tag)

/-! ### A step (00_scope.md R7; the model's own fetch, log 4, 7, 8) -/

/-- A step runs the decoded instruction: a host write of `v` to CMD, taken off the schedule, runs the command `v`
encodes; a section decode at its body dispatch runs the row its table_id selects and stands at its SEC_END next; a
descriptor loop in which a header fits runs the row the tag selects, in the state in which that descriptor's header is
read. Every other move of the schedule is made as it stands: each host operation but a CMD write takes its effect at once
(R108, R111), the engine makes its step, also when the schedule is empty; `wait` reads STATUS and `drain` pops, once for
each engine step, as long as R190 says (reset has its own statement). A section decode without a body row, and a descriptor
loop without room for a header, go on to SEC_END, whose tokens and notes join the command's. The schedule is the model's own
(log 4), so are the decoder's stages (log 7), the log of what the host has read (log 5) and the rounds of `wait` and `drain`
(log 13). -/
def Obligations.StepRunsTheDecodedInstruction : Prop :=
  (∀ (s : State) (v : Word) (i : Instr) (ms : List Move), s.decoder.stage = .idle →
    s.schedule = .host (.csrWrite 0x000 v) :: ms → decode ⟨.command, v⟩ = .ok i →
    step s = exec i { s with schedule := ms }) ∧
  (∀ (s : State) (i : Instr), s.decoder.stage = .table →
    decode ⟨.tableId s.decoder.cls, (byteAt s.decoder.sec s.decoder.tstart).setWidth 32⟩ = .ok i →
    step s = exec i { s with decoder := { s.decoder with stage := .close } }) ∧
  (∀ (s : State) (i : Instr), s.decoder.stage = .descriptor → s.decoder.rd.cur + 2 ≤ s.decoder.rd.lim →
    decode ⟨.descriptor s.decoder.loop, (byteAt s.decoder.sec s.decoder.rd.cur).setWidth 32⟩ = .ok i →
    step s = exec i { s with decoder := (fetchDescriptor s.decoder.rd s.decoder).2 }) ∧
  (∀ (s : State) (ms : List Move), s.decoder.stage = .idle →
    let s' := { s with schedule := ms }
    (∀ off v, s.schedule = .host (.csrWrite off v) :: ms → off ≠ 0x000 → step s = .next (csrWrite off v s')) ∧
    (∀ off, s.schedule = .host (.csrRead off) :: ms → step s = .next (csrRead off s')) ∧
    (∀ a v, s.schedule = .host (.capWrite a v) :: ms → step s = .next (capWrite a v s')) ∧
    (∀ a, s.schedule = .host (.capRead a) :: ms → step s = .next (capRead a s')) ∧
    (s.schedule = .host .tokPop :: ms → step s = .next (tokPop s')) ∧
    (s.schedule = .engine :: ms → step s = .next (engineStep s')) ∧
    (s.schedule = [] → step s = .next (engineStep s)) ∧
    (s.schedule = .wait :: ms → step s = .next { s with
      schedule := if s.phase = .busy then .engine :: .wait :: ms else ms
      hostLog := s.hostLog ++ [.csr (readReg s .status)] }) ∧
    (s.schedule = .drain :: ms → step s = .next
      (if s.fifo ≠ [] ∨ s.phase = .busy then { tokPop s' with schedule := .engine :: .drain :: ms } else s'))) ∧
  (∀ (s : State) (e : DecodeError), s.decoder.stage = .table →
    decode ⟨.tableId s.decoder.cls, (byteAt s.decoder.sec s.decoder.tstart).setWidth 32⟩ = .error e →
    step s = .next { s with decoder := { s.decoder with stage := .close } }) ∧
  (∀ s : State, s.decoder.stage = .descriptor → s.decoder.rd.lim < s.decoder.rd.cur + 2 →
    step s = .next { s with decoder :=
      { (if s.decoder.rd.cur < s.decoder.rd.lim then overflow s.decoder else s.decoder) with stage := .close } }) ∧
  ∀ s : State, s.decoder.stage = .close →
    let w := s.decoder
    step s = .next { s with
      pend := s.pend ++ w.out ++ [.secEnd w.src w.index 0 w.crcStatus w.ovf]
      notes := s.notes ++ w.notes
      decoder := Work.idle }

/-- R15, R612: nothing stops the block: in every state every instruction, and every step, goes on to a next state. -/
def Obligations.NothingStopsTheBlock : Prop :=
  (∀ (i : Instr) (s : State), ∃ t, exec i s = .next t) ∧ ∀ s : State, ∃ t, step s = .next t

/-! ### Registers (10_state.md) -/

/-- R34, R35, R56, R100: the offsets of R35's table; every register answers at its own offset, no offset answers for two registers, a read at a
register's offset returns its value and changes nothing else (but for the log of what the host has read, log 5), a write
to a read-only register changes nothing, and the offsets of no register (the words of the contexts from N_CTX on, the
reserved word of a context, offsets that are no multiple of 4, offsets from 0x140 on) read 0 and ignore writes. -/
def Obligations.CsrMapIsTheTable : Prop :=
  ([CsrReg.cmd, .status, .ctrl, .start, .endOff, .pidf, .decClass, .syncOff, .pktCount, .pktKept, .frPos, .crcResult,
    .secCount, .errCode, .hwcfg, .capsize].map csrOffset =
      [0x000, 0x004, 0x008, 0x00C, 0x010, 0x014, 0x018, 0x01C, 0x020, 0x024, 0x028, 0x02C, 0x030, 0x034, 0x038, 0x03C]) ∧
  (∀ c, csrOffset (.ctxCfg c) = 0x040 + 0x10 * c ∧ csrOffset (.ctxSecs c) = 0x044 + 0x10 * c ∧
    csrOffset (.ctxState c) = 0x048 + 0x10 * c) ∧
  ∀ s : State, s.inst.nCtx ≤ 15 →
    (∀ r off, csrAt s.inst.nCtx off = some r → csrOffset r = off) ∧
    (∀ r, (∀ c, r = .ctxCfg c ∨ r = .ctxSecs c ∨ r = .ctxState c → c < s.inst.nCtx) →
      csrAt s.inst.nCtx (csrOffset r) = some r ∧
        csrRead (csrOffset r) s = { s with hostLog := s.hostLog ++ [.csr (readReg s r)] }) ∧
    (∀ r v, isResultReg r = true ∨ r = .hwcfg ∨ r = .capsize → csrWrite (csrOffset r) v s = s) ∧
    (∀ off, (∃ c, s.inst.nCtx ≤ c ∧ c ≤ 15 ∧ 0x040 + 0x10 * c ≤ off ∧ off ≤ 0x04F + 0x10 * c) ∨
        (∃ c, off = 0x04C + 0x10 * c) ∨ off % 4 ≠ 0 ∨ 0x140 ≤ off →
      csrRead off s = s.reply (.csr 0) ∧ ∀ v, csrWrite off v s = s)

/-- R37, R38: the STATUS word's fields as read, and `irq`. -/
def Obligations.StatusWordShowsTheFlags : Prop :=
  ∀ s : State,
    (readReg s .status).getLsbD 0 = (s.phase == .busy) ∧
    (readReg s .status).getLsbD 1 = s.done ∧
    ((readReg s .status).getLsbD 2 = true ↔ ∃ n, 8 ≤ n ∧ n ≤ 19 ∧ (readReg s .status).getLsbD n = true) ∧
    (readReg s .status).getLsbD 3 = s.irq ∧
    (∀ n, n < 12 → n ≠ 4 → (readReg s .status).getLsbD (8 + n) = s.errs.getLsbD n) ∧
    (readReg s .status).getLsbD 12 = false ∧
    (readReg s .status).extractLsb' 4 4 = 0#4 ∧ (readReg s .status).extractLsb' 20 12 = 0#12 ∧
    (s.irq = true ↔ ((readReg s .ctrl).getLsbD 2 = true ∧ (readReg s .status).getLsbD 1 = true) ∨
      ((readReg s .ctrl).getLsbD 3 = true ∧ (readReg s .status).getLsbD 2 = true))

/-- R38, R610: the interrupt level falls only at a write of STATUS or CTRL, at the acceptance of a command, or at
reset. -/
def Obligations.IrqFallsOnlyByTheHostOrReset : Prop :=
  ∀ s t : State, step s = .next t → s.irq = true → t.irq = false →
    ∃ ms, s.schedule = .reset :: ms ∨
      ∃ off v, s.schedule = .host (.csrWrite off v) :: ms ∧
        (off = csrOffset .status ∨ (s.phase = .idle ∧ (off = csrOffset .ctrl ∨ off = csrOffset .cmd)))

/-- R37, R607: a write of STATUS, at any time, clears exactly the W1C bits it writes 1 to and changes nothing else, `clr`
(R190) clears them all, and a STATUS bit that is set is cleared by nothing else but reset; DONE also by the acceptance
of a command. -/
def Obligations.StatusBitsAreSticky : Prop :=
  (∀ (s : State) (v : Word),
    csrWrite 0x004 v s = { s with
      done := s.done && !v.getLsbD 1
      errs := (csrWrite 0x004 v s).errs } ∧
    (∀ n, n < 12 → (csrWrite 0x004 v s).errs.getLsbD n = (s.errs.getLsbD n && (!v.getLsbD (8 + n) || n == 4))) ∧
    (s.errs.getLsbD 4 = false → (csrWrite 0x004 0x000FFF02#32 s).errs = 0#12 ∧
      (csrWrite 0x004 0x000FFF02#32 s).done = false)) ∧
  ∀ s t : State, step s = .next t → (∀ ms, s.schedule ≠ .reset :: ms) →
    (∀ n, s.errs.getLsbD n = true → t.errs.getLsbD n = false →
      ∃ v ms, s.schedule = .host (.csrWrite (csrOffset .status) v) :: ms ∧ v.getLsbD (8 + n) = true) ∧
    (s.done = true → t.done = false →
      ∃ off v ms, s.schedule = .host (.csrWrite off v) :: ms ∧
        ((off = csrOffset .status ∧ v.getLsbD 1 = true) ∨ (off = csrOffset .cmd ∧ s.phase = .idle)))

/-- R34, R39-R43, R53: while BUSY = 0 a configuration register stores what is written to it, reserved bits reading 0,
and every other register keeps its value; while BUSY = 1 the write is dropped and sets E_HAZARD. R57: in every state the
words read hold the configuration's fields where R39-R44 and R53 place them, a class as its code. -/
def Obligations.ConfigurationWritesStoreOrAreDropped : Prop :=
  (∀ s : State,
    let code (k : TableClass) : BitVec 3 :=
      match k with | .pat => 0 | .nit => 1 | .sdt => 2 | .eit => 3 | .none => 6 | .any => 7
    readReg s .ctrl = s.ctrl.setWidth 32 ∧ readReg s .start = s.start ∧ readReg s .endOff = s.endOff ∧
    (readReg s .pidf).getLsbD 31 = s.pidfEn ∧ (readReg s .pidf).extractLsb' 0 13 = s.pidfPid ∧
    readReg s .decClass = (code s.decClass).setWidth 32 ∧
    ∀ (c : Nat) (x : CtxSlot), s.ctxs[c]? = some x →
      let v := readReg s (.ctxCfg c)
      v.extractLsb' 0 13 = x.cfg.pid ∧ v.extractLsb' 13 3 = code x.cfg.cls ∧ v.getLsbD 16 = x.cfg.en ∧
        v.getLsbD 17 = x.cfg.all ∧ v.getLsbD 18 = x.cfg.raw ∧ v.getLsbD 19 = x.cfg.pkts) ∧
  ∀ (s : State) (r : CsrReg) (v : Word), isConfigReg r = true → s.ctxs.length = s.inst.nCtx →
    csrAt s.inst.nCtx (csrOffset r) = some r →
    (s.phase = .idle →
      readReg (csrWrite (csrOffset r) v s) r =
        (match r with
          | .ctrl => v &&& 0x0000000F#32
          | .start | .endOff => v
          | .pidf => v &&& 0x80001FFF#32
          | .decClass => if v &&& 0x6#32 = 0x4#32 then 0x6#32 else v &&& 0x7#32
          | .ctxCfg _ =>
            if v &&& 0xC000#32 = 0x8000#32 then v &&& 0x000F1FFF#32 ||| 0xC000#32 else v &&& 0x000FFFFF#32
          | _ => 0) ∧
      (∀ r', r' ≠ r → r' ≠ .status → readReg (csrWrite (csrOffset r) v s) r' = readReg s r') ∧
      (csrWrite (csrOffset r) v s).errs = s.errs ∧ (csrWrite (csrOffset r) v s).done = s.done ∧
      (csrWrite (csrOffset r) v s).mem = s.mem ∧ (csrWrite (csrOffset r) v s).fifo = s.fifo) ∧
    (s.phase = .busy → csrWrite (csrOffset r) v s = { s with errs := s.errs ||| 0x800#12 })

/-! ### Capture memory (20_memory.md) -/

/-- R100, R102: a CapWrite while BUSY = 0 stores its byte and no other; beyond CAP_SIZE it has no effect and a read
gives 0; while BUSY = 1 no byte changes and, inside CAP_SIZE, E_HAZARD is set (beyond it that is left free, log 11). -/
def Obligations.CapmemHoldsTheLastByteWritten : Prop :=
  ∀ (s : State) (a : Nat) (v : Byte),
    (s.phase = .idle → a < s.inst.capSize →
      (capWrite a v s).capAt a = v ∧ (∀ b, b ≠ a → (capWrite a v s).capAt b = s.capAt b) ∧
      capWrite a v s = { s with mem := (capWrite a v s).mem }) ∧
    (s.phase = .idle → s.inst.capSize ≤ a → capWrite a v s = s) ∧
    (s.inst.capSize ≤ a → s.capAt a = 0) ∧
    (s.phase = .busy → (∀ b, (capWrite a v s).capAt b = s.capAt b) ∧
      (a < s.inst.capSize → capWrite a v s = { s with errs := s.errs ||| 0x800#12 })) ∧
    capRead a s = { s with hostLog := s.hostLog ++ [.byte (s.capAt a)] }

/-- R101, R33: no instruction and no engine step writes CAPMEM: a byte changes only by a CapWrite to it while BUSY = 0, or
by reset; and a command reads it only inside a legal region: with any other bytes outside [START, END) it computes the
same. -/
def Obligations.EngineOnlyReadsItsRegion : Prop :=
  (∀ (i : Instr) (s t : State), exec i s = .next t → t.mem = s.mem ∧ t.epoch = s.epoch ∧ ∀ a, t.capAt a = s.capAt a) ∧
  (∀ (s : State) (a : Nat), (engineStep s).capAt a = s.capAt a) ∧
  (∀ (s t : State) (a : Nat), step s = .next t → t.capAt a ≠ s.capAt a →
    ∃ ms, s.schedule = .reset :: ms ∨ (s.phase = .idle ∧ ∃ v, s.schedule = .host (.capWrite a v) :: ms)) ∧
  (∀ (i : Instr) (s t : State) (m : Memory) (e : Nat),
    (s.HasRegion → ∀ a, s.start.toNat ≤ a → a < s.endOff.toNat →
      State.capAt { s with mem := m, epoch := e } a = s.capAt a) →
    exec i s = .next t → exec i { s with mem := m, epoch := e } = .next { t with mem := m, epoch := e })

/-! ### The command life cycle (10_state.md R60, R61; 60_exceptions.md) -/

/-- R34, R36, R600: while BUSY = 1 a command is dropped with E_HAZARD, nothing else of the state changes, and it is not
queued. -/
def Obligations.BusyBlockDropsCommands : Prop :=
  ∀ (i : Instr) (s : State), isCommand i = true → s.phase = .busy →
    exec i s = .next { s with errs := s.errs ||| 0x800#12 }

/-- The frame of the commands (R36, R61): a command changes no register but CMD and STATUS, no byte of CAPMEM, neither
the FIFO nor the section decoder; of STATUS it clears DONE and sets BUSY when accepted, and sets E_HAZARD when
dropped. -/
def Obligations.CommandsKeepEverythingElse : Prop :=
  ∀ (i : Instr) (s t : State), isCommand i = true → exec i s = .next t →
    (∀ r, r ≠ .cmd → r ≠ .status → readReg t r = readReg s r) ∧
    (∀ a, t.capAt a = s.capAt a) ∧
    t.inst = s.inst ∧ t.fifo = s.fifo ∧ t.decoder = s.decoder ∧ t.schedule = s.schedule ∧ t.hostLog = s.hostLog ∧
    (s.phase = .idle → t.phase = .busy ∧ t.done = false ∧ t.errs = s.errs ∧ (encode i).bits = readReg t .cmd) ∧
    (s.phase = .busy → t.phase = .busy ∧ t.done = s.done ∧ t.errs = s.errs ||| 0x800#12 ∧ t.op = s.op)

/-- R604, R61, R45-R50, R54, R55: completion with the note list N and the pending completion Q: ERR_CODE is the code
of N's first error, or 0; the error bit of every code in N is set and no other bit changes; every other result
register takes Q's value where Q has one and stays where it has none, CTX_SECS[c] and CTX_STATE[c] by the context's
index; DONE is set and BUSY cleared; the FIFO, CAPMEM and the configuration stay. R36, R51, R52: in every state CMD
reads the OP, ERR_CODE the code and 0 above it, and HWCFG and CAPSIZE the instance's N_CTX, SECBUF_SIZE and CAP_SIZE.
R601: the codes. -/
def Obligations.CompletionRecordsTheNotes : Prop :=
  [ErrCode.notSynchronized, .truncatedSection, .unexpectedTableId, .crcMismatch, .unsupportedEncoding,
    .descriptorOverflow, .badSectionLength, .syncLost, .secbufOverflow, .badCommand, .badRegion].map ErrCode.code =
      [1, 2, 3, 4, 5, 6, 7, 8, 9, 10, 11] ∧
  (∀ s : State, readReg s .cmd = s.op.setWidth 32 ∧ readReg s .errCode = s.errCode.setWidth 32 ∧
    (readReg s .hwcfg).extractLsb' 0 4 = BitVec.ofNat 4 s.inst.nCtx ∧ (readReg s .hwcfg).extractLsb' 4 12 = 0#12 ∧
    (readReg s .hwcfg).extractLsb' 16 16 = BitVec.ofNat 16 s.inst.secbufSize ∧
    readReg s .capsize = BitVec.ofNat 32 s.inst.capSize ∧
    (s.inst.Legal → (readReg s .hwcfg).toNat = 65536 * s.inst.secbufSize + s.inst.nCtx ∧
      (readReg s .capsize).toNat = s.inst.capSize)) ∧
  ∀ s : State, s.phase = .busy → s.pend = [] →
    (engineStep s).errCode = (match s.notes with | [] => 0#4 | e :: _ => e.code) ∧
    readReg (engineStep s) .errCode = (match s.notes with | [] => 0#32 | e :: _ => e.code.setWidth 32) ∧
    (∀ n, n < 12 → ((engineStep s).errs.getLsbD n = true ↔
      s.errs.getLsbD n = true ∨ ∃ e ∈ s.notes, e.code.toNat = n + 1)) ∧
    (readReg (engineStep s) .syncOff = s.compl.syncOff.getD s.syncOff ∧
      readReg (engineStep s) .pktCount = s.compl.pktCount.getD s.pktCount ∧
      readReg (engineStep s) .pktKept = s.compl.pktKept.getD s.pktKept ∧
      readReg (engineStep s) .frPos = s.compl.frPos.getD s.frPos ∧
      readReg (engineStep s) .crcResult = s.compl.crcResult.getD s.crcResult ∧
      readReg (engineStep s) .secCount = s.compl.secCount.getD s.secCount) ∧
    (∀ (c : Nat) (x : CtxSlot), s.ctxs[c]? = some x →
      let r := ((s.compl.ctxResults.getD [])[c]?).getD (x.secs, x.last)
      readReg (engineStep s) (.ctxSecs c) = r.1 ∧
        readReg (engineStep s) (.ctxState c) = (match r.2 with | .idle => 0 | .collect => 1 | .done => 2)) ∧
    (engineStep s).done = true ∧ (engineStep s).phase = .idle ∧ (engineStep s).fifo = s.fifo ∧
    (∀ a, (engineStep s).capAt a = s.capAt a) ∧
    (∀ r, isConfigReg r = true ∨ r = .cmd → readReg (engineStep s) r = readReg s r)

/-- R711, R112: the result registers change, and error bits other than E_HAZARD are set, only when the engine completes
a command, or at reset. -/
def Obligations.ResultsAppearOnlyAtCompletion : Prop :=
  ∀ s t : State, step s = .next t → (∀ ms, s.schedule ≠ .reset :: ms) →
    ¬(s.phase = .busy ∧ s.pend = [] ∧ t.phase = .idle ∧ t.done = true) →
    (∀ r, isResultReg r = true → readReg t r = readReg s r) ∧
    (∀ n, n ≠ 11 → t.errs.getLsbD n = true → s.errs.getLsbD n = true)

/-- R720, R61: with room in the FIFO for every pending token, one push step per token and one complete step end the
command, and the FIFO has received P in order. A push step moves the first pending token to the tail of the FIFO and changes
nothing else; an idle engine has no step. -/
def Obligations.CommandCompletesOnceItsTokensFit : Prop :=
  (∀ s : State, s.phase = .idle → engineStep s = s) ∧
  (∀ (s : State) (x : Token) (xs : List Token), s.phase = .busy → s.pend = x :: xs → s.fifo.length < s.inst.outDepth →
    engineStep s = { s with fifo := s.fifo ++ [x], pend := xs }) ∧
  ∀ s : State, s.phase = .busy → s.fifo.length + s.pend.length ≤ s.inst.outDepth →
    engineStep^[s.pend.length + 1] s = completeCommand { s with fifo := s.fifo ++ s.pend, pend := [] } ∧
    (engineStep^[s.pend.length + 1] s).phase = .idle ∧ (engineStep^[s.pend.length + 1] s).done = true ∧
    ∀ k, k ≤ s.pend.length → (engineStep^[k] s).phase = .busy

/-- R712, R526: with a full FIFO and tokens pending, no engine step is enabled, and a host that only polls STATUS comes
back to the same state of the block, for ever (`wait` polls once for each engine step, log 13). -/
def Obligations.FullFifoHangsAPollingHost : Prop :=
  ∀ s : State, s.phase = .busy → s.pend ≠ [] → s.inst.outDepth ≤ s.fifo.length →
    engineStep s = s ∧
    (s.decoder.stage = .idle → s.schedule = [] → step s = .next s) ∧
    (∀ ms, s.decoder.stage = .idle → s.schedule = .wait :: ms → ∃ t, step s = .next t ∧
      step t = .next { s with hostLog := s.hostLog ++ [.csr (readReg s .status)] })

/-- R526, R520: the FIFO neither drops, duplicates nor reorders a token: what was popped, is in the FIFO and is pending
only grows at its end, and only when a command is accepted (or, in the model, when a section decode that is run one
dispatch at a time ends, log 7). -/
def Obligations.TokensAreNeverLostOrReordered : Prop :=
  ∀ s t : State, s.Inv → step s = .next t → (∀ ms, s.schedule ≠ .reset :: ms) →
    ∃ new, t.stream = s.stream ++ new ∧
      (new ≠ [] → (s.phase = .idle ∧ t.phase = .busy) ∨ s.decoder.stage = .close)

/-- R525: the host's pop: it removes and returns the head token, or returns EMPTY and changes nothing; tokens leave the
FIFO only by a pop or by reset. (The log that holds what was returned is the model's, log 5, and so is how often `drain`
pops, log 13.) -/
def Obligations.PopTakesTheHead : Prop :=
  ∀ s : State,
    (∀ x xs, s.fifo = x :: xs → tokPop s = { s with fifo := xs, hostLog := s.hostLog ++ [.token x] }) ∧
    (s.fifo = [] → tokPop s = { s with hostLog := s.hostLog ++ [.empty] }) ∧
    ∀ t, step s = .next t → t.fifo.length < s.fifo.length →
      ∃ ms, s.schedule = .host .tokPop :: ms ∨ s.schedule = .drain :: ms ∨ s.schedule = .reset :: ms

/-- R181, R180: NOP and the reserved commands make no region check. Completed, NOP leaves ERR_CODE 0 and DONE set, a
reserved command leaves ERR_CODE 10, E_BADCMD and DONE set; OP stays readable and everything else is as it was. -/
def Obligations.NopAndReservedCommandsNeedNoRegion : Prop :=
  ∀ s : State, s.Inv → s.phase = .idle →
    (∃ t, exec .nop s = .next t ∧ t.pend = [] ∧ t.done = false ∧
      engineStep t = { s with op := 0, done := true, errCode := 0 }) ∧
    (∀ low : BitVec 1, ∃ t, exec (.reservedCmd67 low) s = .next t ∧ t.pend = [] ∧
      engineStep t =
        { s with op := BitVec.ofNat 4 (6 + low.toNat), done := true, errCode := 10, errs := s.errs ||| 0x200#12 }) ∧
    (∀ low : BitVec 3, ∃ t, exec (.reservedCmd8F low) s = .next t ∧ t.pend = [] ∧
      engineStep t =
        { s with op := BitVec.ofNat 4 (8 + low.toNat), done := true, errCode := 10, errs := s.errs ||| 0x200#12 })

/-- R42, R608: FIND_SYNC, PARSE, RUN, DECODE and CRC on an illegal region emit nothing and, completed, leave ERR_CODE
11, E_REGION and DONE set and everything else as it was. -/
def Obligations.IllegalRegionRecordsBadRegion : Prop :=
  ∀ (s : State) (i : Instr), s.Inv → s.phase = .idle → ¬s.HasRegion →
    i = .findSync ∨ i = .parse ∨ i = .run ∨ i = .decode ∨ i = .crc →
    ∃ t, exec i s = .next t ∧ t.pend = [] ∧
      engineStep t =
        { s with op := (encode i).bits.setWidth 4, done := true, errCode := 11, errs := s.errs ||| 0x400#12 }

/-! ### The framer (40_framer.md) -/

/-- R200, R201, R220: FIND_SYNC on a legal region emits nothing; completed, SYNC_OFF is the first offset i of the region
with i + 188 < END and 0x47 at i and at i + 188, and ERR_CODE 0; when there is none, SYNC_OFF is 0xFFFFFFFF, ERR_CODE 1
and E_NOSYNC set; in a region of at most 188 bytes there is none. Everything else is as it was. -/
def Obligations.FindSyncReportsTheFirstSync : Prop :=
  ∀ s : State, s.Inv → s.phase = .idle → s.HasRegion →
    ∃ t, exec .findSync s = .next t ∧ t.pend = [] ∧
      (∀ i : Nat, s.start.toNat ≤ i → i + 188 < s.endOff.toNat → s.capAt i = 0x47#8 → s.capAt (i + 188) = 0x47#8 →
        (∀ j, s.start.toNat ≤ j → j < i → ¬(s.capAt j = 0x47#8 ∧ s.capAt (j + 188) = 0x47#8)) →
        engineStep t = { s with op := 1, done := true, errCode := 0, syncOff := BitVec.ofNat 32 i }) ∧
      ((∀ i : Nat, s.start.toNat ≤ i → i + 188 < s.endOff.toNat →
          ¬(s.capAt i = 0x47#8 ∧ s.capAt (i + 188) = 0x47#8)) →
        engineStep t =
          { s with op := 1, done := true, errCode := 1, errs := s.errs ||| 0x001#12, syncOff := 0xFFFFFFFF#32 })

/-- R133, R161, R205, R206, R207: the fields of a decoded packet, its offset the position decoded at, and the length of its payload in every case of R206. -/
def Obligations.PacketFieldsAndPayloadLength : Prop :=
  ∀ (cap : Nat → Byte) (honor : Bool) (pos : Nat),
    let p := decodePacket cap honor pos
    p.offset = BitVec.ofNat 32 pos ∧
    (p.tei = (cap (pos + 1)).getLsbD 7 ∧ p.pusi = (cap (pos + 1)).getLsbD 6 ∧ p.prio = (cap (pos + 1)).getLsbD 5 ∧
      p.pid.toNat = (cap (pos + 1)).toNat % 32 * 256 + (cap (pos + 2)).toNat ∧
      p.sc.toNat = (cap (pos + 3)).toNat / 64 ∧ p.afc.toNat = (cap (pos + 3)).toNat / 16 % 4 ∧
      p.cc.toNat = (cap (pos + 3)).toNat % 16) ∧
    p.payload.length =
      (if honor = false ∨ p.afc = 1#2 then 184
        else if p.afc = 3#2 then 183 - (cap (pos + 4)).toNat
        else 0) ∧
    ∀ k, k < p.payload.length → p.payload[k]? = some (cap (pos + 188 - p.payload.length + k))

/-- R200, R215, R216: the framer's loop is R215's, at every cursor up to END: the bound on its iterations is never what
ends it, the cursor never passes END, and its search after a loss of sync answers the first offset R200 describes. -/
def Obligations.FramerLoopIsTheRule : Prop :=
  ∀ (g : FrameArgs) (pos fuel : Nat), pos ≤ g.endOff → g.endOff - pos ≤ fuel →
    (sliceFrames g fuel pos).pos ≤ g.endOff ∧ pos ≤ (sliceFrames g fuel pos).pos ∧
    sliceFrames g fuel pos =
      (if g.endOff < pos + 188 then ⟨[], 0, 0, pos⟩
        else if g.cap pos = 0x47#8 then
          let p := decodePacket g.cap g.afcHonor pos
          let r := sliceFrames g (g.endOff - (pos + 188)) (pos + 188)
          if g.pidfEn = true ∧ p.pid ≠ g.pidfPid then { r with count := r.count + 1 }
          else { r with evs := .pkt p :: r.evs, count := r.count + 1, kept := r.kept + 1 }
        else if g.resync = false then ⟨[.lost], 0, 0, pos⟩
        else match findSync g.cap (pos + 1) g.endOff with
          | none => ⟨[.lost], 0, 0, pos⟩
          | some q =>
            let r := sliceFrames g (g.endOff - q) q
            { r with evs := .lost :: r.evs }) ∧
    ∀ q, findSync g.cap (pos + 1) g.endOff = some q ↔
      pos + 1 ≤ q ∧ q + 188 < g.endOff ∧ g.cap q = 0x47#8 ∧ g.cap (q + 188) = 0x47#8 ∧
        ∀ j, pos + 1 ≤ j → j < q → ¬(g.cap j = 0x47#8 ∧ g.cap (j + 188) = 0x47#8)

/-- R46, R47, R200, R207, R212, R215: over a legal region the framer's first sync offset is the first offset of the region
that R200 describes, its loop starts there, with enough iterations and with the operands the CSRs give, and without one
there is no frame and the cursor stays at START; every retained packet begins with 0x47 inside the region, its 188 bytes
end by END, it passes the PID filter and its payload has at most 184 bytes; PKT_KEPT counts the retained packets, and
equals PKT_COUNT when no filter is enabled. -/
def Obligations.RetainedPacketsLieInTheRegion : Prop :=
  ∀ s : State, s.HasRegion →
    (∀ p, FrameEvent.pkt p ∈ s.frame.sliced.evs →
      s.start.toNat ≤ p.offset.toNat ∧ p.offset.toNat + 188 ≤ s.endOff.toNat ∧ s.capAt p.offset.toNat = 0x47#8 ∧
      (s.pidfEn = true → p.pid = s.pidfPid) ∧ p.payload.length ≤ 184) ∧
    s.frame.sliced.kept = (s.frame.sliced.evs.filterMap FrameEvent.packet?).length ∧
    s.frame.sliced.kept ≤ s.frame.sliced.count ∧
    (s.pidfEn = false → s.frame.sliced.kept = s.frame.sliced.count) ∧
    s.start.toNat ≤ s.frame.sliced.pos ∧ s.frame.sliced.pos ≤ s.endOff.toNat ∧
    (s.frame.syncOff = none → s.frame.sliced = ⟨[], 0, 0, s.start.toNat⟩) ∧
    ∀ q, (s.frame.syncOff = some q ↔
        s.start.toNat ≤ q ∧ q + 188 < s.endOff.toNat ∧ s.capAt q = 0x47#8 ∧ s.capAt (q + 188) = 0x47#8 ∧
          ∀ j, s.start.toNat ≤ j → j < q → ¬(s.capAt j = 0x47#8 ∧ s.capAt (j + 188) = 0x47#8)) ∧
      (s.frame.syncOff = some q →
        s.frame.sliced = sliceFrames
          { cap := s.capAt, endOff := s.endOff.toNat, resync := (readReg s .ctrl).getLsbD 0,
            afcHonor := (readReg s .ctrl).getLsbD 1, pidfEn := s.pidfEn, pidfPid := s.pidfPid }
          (s.endOff.toNat - q) q)

/-- R221, R521: PARSE on a legal region: P is one PKT token with src 0xF for each retained packet, in stream order; the
notes are NOT_SYNCHRONIZED when the first search fails, then SYNC_LOST for each loss of sync; Q writes SYNC_OFF,
PKT_COUNT, PKT_KEPT and FR_POS and no other result register. -/
def Obligations.ParseEmitsOnePktPerRetainedPacket : Prop :=
  ∀ s : State, s.phase = .idle → s.HasRegion →
    exec .parse s = .next { s with
      op := 2
      phase := .busy
      done := false
      pend := (s.frame.sliced.evs.filterMap FrameEvent.packet?).map (Token.pkt 0xF#4)
      notes := (if s.frame.syncOff = none then [.notSynchronized] else []) ++
        s.frame.sliced.evs.filterMap FrameEvent.note?
      compl := {
        syncOff := some (match s.frame.syncOff with | none => 0xFFFFFFFF#32 | some q => BitVec.ofNat 32 q)
        pktCount := some (BitVec.ofNat 32 s.frame.sliced.count)
        pktKept := some (BitVec.ofNat 32 s.frame.sliced.kept)
        frPos := some (BitVec.ofNat 32 s.frame.sliced.pos)
        crcResult := none
        secCount := none
        ctxResults := none } }

/-! ### The reassembler (41_reassembler.md) -/

/-- R251, R253-R256: the transition table of a context, and what Open, Append and Close do to the unit, the tokens and
the notes. -/
def Obligations.ContextFollowsTheTransitionTable : Prop :=
  ∀ (secbuf c : Nat) (cfg : CtxCfg) (p : Packet) (x : Context) (a : Acc),
    (p.pid ≠ cfg.pid → contextStep secbuf c cfg p x a = (x, a)) ∧
    (p.pid = cfg.pid → x.state = .idle → p.pusi = false → contextStep secbuf c cfg p x a = (x, a)) ∧
    (p.pid = cfg.pid → x.state = .idle → p.pusi = true →
      contextStep secbuf c cfg p x a = openUnit secbuf c cfg p x a ∧
      (contextStep secbuf c cfg p x a).1.state = .collect) ∧
    (p.pid = cfg.pid → x.state = .collect → p.pusi = false →
      contextStep secbuf c cfg p x a = appendPacket secbuf c cfg p x a ∧
      (contextStep secbuf c cfg p x a).1.state = .collect) ∧
    (p.pid = cfg.pid → x.state = .collect → p.pusi = true → cfg.all = false →
      contextStep secbuf c cfg p x a =
        ({ (closeUnit c cfg x a).1 with state := .done }, (closeUnit c cfg x a).2)) ∧
    (p.pid = cfg.pid → x.state = .collect → p.pusi = true → cfg.all = true →
      contextStep secbuf c cfg p x a =
        openUnit secbuf c cfg p (closeUnit c cfg x a).1 (closeUnit c cfg x a).2 ∧
      (contextStep secbuf c cfg p x a).1.state = .collect) ∧
    (p.pid = cfg.pid → x.state = .done → contextStep secbuf c cfg p x a = (x, a)) ∧
    (x.buf.length ≤ secbuf →
      (appendPacket secbuf c cfg p x a).1 =
        { x with
          buf := (x.buf ++ p.payload).take secbuf
          trunc := x.trunc || decide (secbuf < x.buf.length + p.payload.length) } ∧
      (appendPacket secbuf c cfg p x a).2.out =
        a.out ++ (if cfg.pkts then [.pkt (BitVec.ofNat 4 c) p] else []) ∧
      (appendPacket secbuf c cfg p x a).2.notes =
        a.notes ++ (if secbuf < x.buf.length + p.payload.length then [.secbufOverflow] else [])) ∧
    openUnit secbuf c cfg p x a =
      appendPacket secbuf c cfg p ⟨.collect, BitVec.ofNat 32 x.closed, [], false, x.closed⟩ a ∧
    (closeUnit c cfg x a).1 = { x with closed := x.closed + 1 } ∧
    (closeUnit c cfg x a).2.out =
      a.out ++ (if cfg.raw then [.secRaw (BitVec.ofNat 4 c) x.k x.buf x.trunc] else []) ++
        (if cfg.cls = .none then [] else (decodeSection x.buf cfg.cls (BitVec.ofNat 4 c) x.k).out) ∧
    (closeUnit c cfg x a).2.notes =
      a.notes ++ (if cfg.cls = .none then [] else (decodeSection x.buf cfg.cls (BitVec.ofNat 4 c) x.k).notes)

/-- R259: what a context collects, and the tokens it emits up to and at the end of input, depend only on its own
configuration and the retained packets of its own PID: alone, and fed only those packets, it ends in the same state; and
beside any other contexts, and fed only those packets, it emits the same tokens. -/
def Obligations.ContextSeesOnlyItsPid : Prop :=
  ∀ (secbuf : Nat) (evs : List FrameEvent) (xs : List CtxSlot) (a b : Acc) (c : Nat) (x : CtxSlot),
    xs[c]? = some x →
    (feedEvents secbuf evs xs a).1[c]? =
      (feedEvents secbuf
        (evs.filter fun e => match e with
          | .lost => false
          | .pkt p => p.pid == x.cfg.pid)
        [x] b).1[0]? ∧
    ∀ ys : List CtxSlot, ys[c]? = some x → xs.length ≤ 15 → ys.length ≤ 15 →
      tokensOf (BitVec.ofNat 4 c) a.out = tokensOf (BitVec.ofNat 4 c) b.out →
      let all := feedEvents secbuf evs xs a
      let own := feedEvents secbuf
        (evs.filter fun e => match e with
          | .lost => false
          | .pkt p => p.pid == x.cfg.pid)
        ys b
      tokensOf (BitVec.ofNat 4 c) all.2.out = tokensOf (BitVec.ofNat 4 c) own.2.out ∧
        tokensOf (BitVec.ofNat 4 c) (closeAll 0 all.1 all.2).2.out =
          tokensOf (BitVec.ofNat 4 c) (closeAll 0 own.1 own.2).2.out

/-- R254, R257, R258: RUN closes the units of every context with a class in the order 0, 1, 2, …, each once: the indexes
of context c's SEC_END tokens count up to CTX_SECS[c]. -/
def Obligations.RunClosesUnitsInOrder : Prop :=
  ∀ (s t : State) (c : Nat) (x : CtxSlot), s.Inv → s.phase = .idle → s.HasRegion → exec .run s = .next t →
    s.ctxs[c]? = some x → x.cfg.cls ≠ .none →
    ∃ n rs, t.compl.ctxResults = some rs ∧ (rs[c]?.map fun r => r.1) = some (BitVec.ofNat 32 n) ∧
      closedUnits (BitVec.ofNat 4 c) t.pend = (List.range n).map (BitVec.ofNat 32)

/-- R270, R250, R258: RUN on a legal region is accepted with P, N and Q as its pseudocode gives them: the framer's
events fed in stream order to contexts that start idle and empty, then the end-of-input closes. The framer's results
are those of PARSE; CTX_SECS and CTX_STATE are written for every context, 0 and IDLE for a disabled one; with ALL = 0
at most one unit is closed; SEC_COUNT is the sum of CTX_SECS. R522: for each packet the enabled contexts react in
ascending index, each adding its tokens and notes after those before it, a disabled one adding none; and the end-of-input
closes come in ascending index. -/
def Obligations.RunFeedsTheContexts : Prop :=
  (∀ (secbuf : Nat) (p : Packet) (xs : List CtxSlot) (a : Acc),
    let one (c : Nat) (x : CtxSlot) : Context × Acc :=
      if x.cfg.en then contextStep secbuf c x.cfg p x.ctx ⟨[], []⟩ else (x.ctx, ⟨[], []⟩)
    feedPacket secbuf p 0 xs a =
      (xs.mapIdx fun c x => { x with ctx := (one c x).1 },
        ⟨a.out ++ (xs.mapIdx fun c x => (one c x).2.out).flatten,
          a.notes ++ (xs.mapIdx fun c x => (one c x).2.notes).flatten⟩)) ∧
  (∀ (secbuf : Nat) (evs : List FrameEvent) (xs : List CtxSlot) (a : Acc),
    feedEvents secbuf evs xs a = evs.foldl (fun r e => match e with
      | .lost => (r.1, ⟨r.2.out, r.2.notes ++ [.syncLost]⟩)
      | .pkt p => feedPacket secbuf p 0 r.1 r.2) (xs, a)) ∧
  (∀ (xs : List CtxSlot) (a : Acc),
    let one (c : Nat) (x : CtxSlot) : Context × Acc :=
      if x.cfg.en = true ∧ x.ctx.state = .collect then closeUnit c x.cfg x.ctx ⟨[], []⟩ else (x.ctx, ⟨[], []⟩)
    closeAll 0 xs a =
      (xs.mapIdx fun c x => { x with ctx := (one c x).1 },
        ⟨a.out ++ (xs.mapIdx fun c x => (one c x).2.out).flatten,
          a.notes ++ (xs.mapIdx fun c x => (one c x).2.notes).flatten⟩)) ∧
  ∀ s : State, s.phase = .idle → s.HasRegion →
    ∃ t, exec .run s = .next t ∧ t.op = 3 ∧ t.phase = .busy ∧ t.done = false ∧
      (let fed := feedEvents s.inst.secbufSize s.frame.sliced.evs
          (s.ctxs.map fun x => { x with ctx := ⟨.idle, 0, [], false, 0⟩ })
          ⟨[], if s.frame.syncOff = none then [.notSynchronized] else []⟩
        let fin := closeAll 0 fed.1 fed.2
        t.pend = fin.2.out ∧ t.notes = fin.2.notes ∧
        t.compl.syncOff = some (match s.frame.syncOff with | none => 0xFFFFFFFF#32 | some q => BitVec.ofNat 32 q) ∧
        t.compl.pktCount = some (BitVec.ofNat 32 s.frame.sliced.count) ∧
        t.compl.pktKept = some (BitVec.ofNat 32 s.frame.sliced.kept) ∧
        t.compl.frPos = some (BitVec.ofNat 32 s.frame.sliced.pos) ∧ t.compl.crcResult = none ∧
        ∃ ns : List Nat, ns.length = s.ctxs.length ∧ t.compl.secCount = some (BitVec.ofNat 32 ns.sum) ∧
          ∃ rs, t.compl.ctxResults = some rs ∧ rs.length = s.ctxs.length ∧
            ∀ (c : Nat) (x y : CtxSlot), s.ctxs[c]? = some x → fed.1[c]? = some y →
              ∃ n, ns[c]? = some n ∧ rs[c]? = some (BitVec.ofNat 32 n, y.ctx.state) ∧
                n = y.ctx.closed + (if x.cfg.en = true ∧ y.ctx.state = .collect then 1 else 0) ∧
                (x.cfg.en = false → n = 0 ∧ y.ctx.state = .idle) ∧ (x.cfg.all = false → n ≤ 1))

/-- R262: the decode of a unit never depends on bytes past offset 4351. -/
def Obligations.DecodeIgnoresBytesPastTheCapacity : Prop :=
  ∀ (S : Bytes) (cls : TableClass) (src : BitVec 4) (index : Word) (n : Nat), 4352 ≤ n →
    (decodeSection S cls src index).SameReport (decodeSection (S.take n) cls src index)

/-! ### The section decoder (42_section_header.md) -/

/-- R310, R311: the seven checks in their order; the first that fails is the section's only fatal error, reported by
one SEC_END token and one note. When all pass (R137, R314, R354, R361) a SEC_HDR comes first and a SEC_END last, and with
section_length at least 9 the SEC_HDR reports the fields of the section as they are, its stored CRC and the CRC computed
from the table_id up to it (the header of section_length 0 is R312's, stated on its own). -/
def Obligations.SectionReportsItsFirstFailedCheck : Prop :=
  ∀ (S : Bytes) (cls : TableClass) (src : BitVec 4) (index : Word),
    let t := 1 + (byteAt S 0).toNat
    let L := be S (t + 1) 2 % 4096
    let failsWith (e : ErrCode) := (decodeSection S cls src index).out = [.secEnd src index e.code 0 false] ∧
      (decodeSection S cls src index).notes = [e]
    (S = [] → failsWith .truncatedSection) ∧
    (S.length ≤ t → failsWith .truncatedSection) ∧
    (t < S.length → accepts cls (byteAt S t) = false → failsWith .unexpectedTableId) ∧
    (t < S.length → accepts cls (byteAt S t) = true → S.length < t + 3 → failsWith .truncatedSection) ∧
    (t + 3 ≤ S.length → accepts cls (byteAt S t) = true → 4093 < L → failsWith .badSectionLength) ∧
    (t + 3 ≤ S.length → accepts cls (byteAt S t) = true → L ≤ 4093 → S.length < t + 3 + L →
      failsWith .truncatedSection) ∧
    (t + 3 + L ≤ S.length → accepts cls (byteAt S t) = true → 1 ≤ L → L ≤ 8 → failsWith .truncatedSection) ∧
    (t + 3 + L ≤ S.length → accepts cls (byteAt S t) = true → L ≤ 4093 → L = 0 ∨ 9 ≤ L →
      ∃ h cs ovf, (decodeSection S cls src index).out.head? = some (.secHdr src index h) ∧
        (decodeSection S cls src index).out.getLast? = some (.secEnd src index 0 cs ovf) ∧
        h.tableId = byteAt S t ∧ h.sectionLength.toNat = L ∧ h.crcStatus = cs ∧
        (9 ≤ L →
          let crcPos := t + 3 + L - 4
          let stored := BitVec.ofNat 32 (be S crcPos 4)
          let computed := crc32 (slice S t crcPos)
          h = { pointerField := byteAt S 0, tableId := byteAt S t, ssi := (byteAt S (t + 1)).getLsbD 7,
                priv := (byteAt S (t + 1)).getLsbD 6, rsv1 := (byteAt S (t + 1)).extractLsb' 4 2,
                sectionLength := BitVec.ofNat 12 L, tidExt := BitVec.ofNat 16 (be S (t + 3) 2),
                rsv2 := (byteAt S (t + 5)).extractLsb' 6 2, version := (byteAt S (t + 5)).extractLsb' 1 5,
                currentNext := (byteAt S (t + 5)).getLsbD 0, sectionNumber := byteAt S (t + 6),
                lastSectionNumber := byteAt S (t + 7), crcStored := stored, crcCalc := computed,
                crcStatus := if computed = stored then 1 else 2 }))

/-- R312: a section with section_length 0. -/
def Obligations.ZeroLengthSectionYieldsAnEmptyRecord : Prop :=
  ∀ (S : Bytes) (cls : TableClass) (src : BitVec 4) (index : Word),
    let t := 1 + (byteAt S 0).toNat
    t + 3 ≤ S.length → accepts cls (byteAt S t) = true → be S (t + 1) 2 % 4096 = 0 →
    (decodeSection S cls src index).notes = [] ∧ (decodeSection S cls src index).crcStatus = 0 ∧
    (decodeSection S cls src index).out =
      [.secHdr src index
        { pointerField := byteAt S 0, tableId := byteAt S t, ssi := (byteAt S (t + 1)).getLsbD 7,
          priv := (byteAt S (t + 1)).getLsbD 6, rsv1 := (byteAt S (t + 1)).extractLsb' 4 2, sectionLength := 0,
          tidExt := 0, rsv2 := 0, version := 0, currentNext := false, sectionNumber := 0, lastSectionNumber := 0,
          crcStored := 0, crcCalc := 0, crcStatus := 0 },
        .secEnd src index 0 0 false]

/-- R302, R315, R316, R523: the tokens and notes of every decode: at most one SEC_HDR, the unit's body tokens, exactly
one SEC_END; and either one fatal code and nothing else, or CRC_MISMATCH exactly when the CRC fails, then one
DESCRIPTOR_OVERFLOW for each overflow, which SEC_END's `ovf` reports. -/
def Obligations.DecodeEmitsHeaderBodyEnd : Prop :=
  ∀ (S : Bytes) (cls : TableClass) (src : BitVec 4) (index : Word),
    ∃ e,
      ((e = .truncatedSection ∨ e = .unexpectedTableId ∨ e = .badSectionLength) ∧
        (decodeSection S cls src index).out = [.secEnd src index e.code 0 false] ∧
        (decodeSection S cls src index).notes = [e]) ∨
      ∃ h body n,
        (decodeSection S cls src index).out =
          .secHdr src index h :: body ++ [.secEnd src index 0 h.crcStatus (n != 0)] ∧
        (∀ x ∈ body, x.isBody src index = true) ∧
        (decodeSection S cls src index).notes =
          (if h.crcStatus = 2 then [.crcMismatch] else []) ++ List.replicate n .descriptorOverflow ∧
        (h.crcStatus = 0 ∨ h.crcStatus = 1 ∧ h.crcCalc = h.crcStored ∨ h.crcStatus = 2 ∧ h.crcCalc ≠ h.crcStored)

/-- R138, R310, R313, R452: a section decode runs the instructions: at its body dispatch the row the table_id selects does
what `exec` of that row does to the decoder, and each iteration of a descriptor loop does what `exec` of the row its tag
selects does. Where the class selects no row (ANY), the decode is its SEC_HDR and its SEC_END. At the body dispatch the
table starts at 1 + pointer_field, the body ends at the CRC, the table_id_extension and the CRC have been read and checked,
and the SEC_HDR is the one token so far. -/
def Obligations.SectionDecodeRunsTheRows : Prop :=
  (∀ (S : Bytes) (cls : TableClass) (src : BitVec 4) (index : Word),
    let tstart := 1 + (byteAt S 0).toNat
    let L := be S (tstart + 1) 2 % 4096
    let ended (w : Work) : Work := { w with out := w.out ++ [.secEnd w.src w.index 0 w.crcStatus w.ovf] }
    accepts cls (byteAt S tstart) = true → 9 ≤ L → L ≤ 4093 → tstart + 3 + L ≤ S.length →
    (∀ (i : Instr) (s t : State), decodeTable cls (byteAt S tstart) = .ok i →
      s.decoder = atBody (Work.start S cls src index) → exec i s = .next t →
      decodeSection S cls src index = ended t.decoder) ∧
    (∀ e, decodeTable cls (byteAt S tstart) = .error e →
      decodeSection S cls src index = ended (atBody (Work.start S cls src index)) ∧
      ∃ h, (decodeSection S cls src index).out = [.secHdr src index h, .secEnd src index 0 h.crcStatus false])) ∧
  (∀ (r : Reader) (w : Work) (s t : State), s.decoder = (fetchDescriptor r w).2 →
    exec (fetchDescriptor r w).1 s = .next t → descriptorStep r w = (t.decoder.rd, t.decoder)) ∧
  ∀ (S : Bytes) (cls : TableClass) (src : BitVec 4) (index : Word),
    let tstart := 1 + (byteAt S 0).toNat
    let crcPos := tstart + 3 + be S (tstart + 1) 2 % 4096 - 4
    let computed := crc32 (slice S tstart crcPos)
    let stored := BitVec.ofNat 32 (be S crcPos 4)
    ∃ h, atBody (Work.start S cls src index) = { Work.start S cls src index with
      tstart := tstart
      lim := crcPos
      tidExt := BitVec.ofNat 16 (be S (tstart + 3) 2)
      crcCalc := computed
      crcStatus := if computed = stored then 1 else 2
      out := [.secHdr src index h]
      notes := if computed = stored then [] else [.crcMismatch] }

/-- R320: DECODE on a legal region: with DEC_CLASS NONE nothing; otherwise the tokens and notes of the decode of
CAP[START .. END) with src 0xF and index 0. CRC_RESULT is written with the computed CRC exactly when a SEC_HDR with
crc_status ≠ 0 was emitted, and no other result register is written. The bytes of CAP[START .. END) are those of CAPMEM from
START on (R14). -/
def Obligations.DecodeReportsTheSection : Prop :=
  ∀ s : State, s.phase = .idle → s.HasRegion →
    let w := decodeSection (s.capBytes s.start.toNat s.endOff.toNat) s.decClass 0xF#4 0
    ∃ q, exec .decode s = .next { s with
        op := 4
        phase := .busy
        done := false
        pend := if s.decClass = .none then [] else w.out
        notes := if s.decClass = .none then [] else w.notes
        compl := { Completion.empty with crcResult := q } } ∧
      ((∃ h, s.decClass ≠ .none ∧ .secHdr 0xF#4 0 h ∈ w.out ∧ h.crcStatus ≠ 0 ∧ q = some h.crcCalc) ∨
        (q = none ∧ (s.decClass = .none ∨ ∀ h, .secHdr 0xF#4 0 h ∈ w.out → h.crcStatus = 0))) ∧
      (s.capBytes s.start.toNat s.endOff.toNat).length = s.endOff.toNat - s.start.toNat ∧
      ∀ k, k < s.endOff.toNat - s.start.toNat →
        (s.capBytes s.start.toNat s.endOff.toNat)[k]? = some (s.capAt (s.start.toNat + k))

/-! ### The CRC (43_crc32.md) -/

/-- R351, R352: the CRC is R351's iteration, the table form gives the same result for every input, and the table's
entries. -/
def Obligations.CrcTableFormAgrees : Prop :=
  (∀ bs : Bytes, crc32 bs = bs.foldl
    (fun (r : Word) (b : Byte) => (List.range 8).foldl
      (fun (r : Word) _ => if r.getLsbD 31 then (r <<< 1) ^^^ 0x04C11DB7#32 else r <<< 1) (r ^^^ (b.setWidth 32 <<< 24)))
    (0xFFFFFFFF#32 : Word)) ∧
  (∀ bs : Bytes, crc32ByTable bs = crc32 bs) ∧
  (∀ i : Byte, crcTable i = crcByte 0 i) ∧
  crcTable 0x00 = 0x00000000#32 ∧ crcTable 0x01 = 0x04C11DB7#32 ∧ crcTable 0x02 = 0x09823B6E#32 ∧
  crcTable 0x80 = 0x690CE0EE#32 ∧ crcTable 0xFF = 0xB1F740B4#32

/-- R353, R106: the residual property: a byte sequence with its four stored CRC bytes has CRC 0 exactly when the CRC of
the bytes before them is the stored one. -/
def Obligations.CrcResidualIsZeroExactlyWhenValid : Prop :=
  ∀ (bs : Bytes) (c0 c1 c2 c3 : Byte),
    crc32 (bs ++ [c0, c1, c2, c3]) = 0 ↔ crc32 bs = BitVec.ofNat 32 (be [c0, c1, c2, c3] 0 4)

/-- R360: CRC on a legal region emits nothing; completed, CRC_RESULT is the CRC of CAP[START .. END), by R351's
iteration, ERR_CODE is 0, DONE is set and everything else is as it was; an empty region gives 0xFFFFFFFF. The bytes of
CAP[START .. END) are those of CAPMEM from START on (R14). -/
def Obligations.CrcCommandReportsTheRegionsCrc : Prop :=
  ∀ s : State, s.Inv → s.phase = .idle → s.HasRegion →
    ∃ t v, exec .crc s = .next t ∧ t.pend = [] ∧
      engineStep t = { s with op := 5, done := true, errCode := 0, crcResult := v } ∧
      v = ((s.capBytes s.start.toNat s.endOff.toNat).foldl
        (fun (r : Word) (b : Byte) => (List.range 8).foldl
          (fun (r : Word) _ => if r.getLsbD 31 then (r <<< 1) ^^^ 0x04C11DB7#32 else r <<< 1) (r ^^^ (b.setWidth 32 <<< 24)))
        (0xFFFFFFFF#32 : Word)) ∧
      (s.start = s.endOff → v = 0xFFFFFFFF#32) ∧
      (s.capBytes s.start.toNat s.endOff.toNat).length = s.endOff.toNat - s.start.toNat ∧
      ∀ k, k < s.endOff.toNat - s.start.toNat →
        (s.capBytes s.start.toNat s.endOff.toNat)[k]? = some (s.capAt (s.start.toNat + k))

/-! ### The bounded reader (45_descriptors.md R450, R451, R454) -/

/-- R450, R451, R454: a reader's field that fits is the big-endian number of its bytes and moves the cursor past them; one
that does not fit reads 0, moves the cursor to the limit and records the overflow; a span is clipped to the limit,
recording the overflow, and lies inside its reader. The seven record loops: while a whole header fits the body runs once
and the loop goes on from where it left the cursor, which has moved on by at least the header and has not passed the
limit, which stays; otherwise a remainder records the overflow. R13, R104: the big-endian number of n + 1 bytes is 256 times
that of the first n and the last byte, and a slice holds the bytes between its ends. -/
def Obligations.ReadersAndRecordLoopsStayInTheirLimits : Prop :=
  (∀ (S : Bytes) (i n : Nat), be S i 0 = 0 ∧
    (∀ h : i + n < S.length, be S i (n + 1) = 256 * be S i n + (S[i + n]).toNat ∧ byteAt S (i + n) = S[i + n]) ∧
    (i + n ≤ S.length → (slice S i (i + n)).length = n ∧ ∀ k, k < n → (slice S i (i + n))[k]? = S[i + k]?)) ∧
  (∀ (n : Nat) (r : Reader) (w : Work), r.cur ≤ r.lim →
      (r.cur + n ≤ r.lim → readField n r w = (be w.sec r.cur n, ⟨r.cur + n, r.lim⟩, w) ∧
        readSpan n r w = (⟨r.cur, r.cur + n⟩, ⟨r.cur + n, r.lim⟩, w)) ∧
      (r.lim < r.cur + n → readField n r w = (0, ⟨r.lim, r.lim⟩, overflow w) ∧
        readSpan n r w = (⟨r.cur, r.lim⟩, ⟨r.lim, r.lim⟩, overflow w)) ∧
      overflow w = { w with ovf := true, notes := w.notes ++ [.descriptorOverflow] } ∧
      (r.lim ≤ w.sec.length → r.cur + n ≤ r.lim → be w.sec r.cur n < 256 ^ n)) ∧
  ∀ h body, (h, body) ∈ ([(4, patEntry), (6, nitRecord), (5, sdtRecord), (12, eitRecord), (2, descriptorStep),
      (3, serviceListEntry), (2, contentEntry)] : List (Nat × (Reader → Work → Reader × Work))) →
    ∀ (r : Reader) (w : Work),
      (r.cur + h ≤ r.lim →
        runRecords h body r w = runRecords h body (body r w).1 (body r w).2 ∧
        r.cur + h ≤ (body r w).1.cur ∧ (body r w).1.cur ≤ r.lim ∧ (body r w).1.lim = r.lim) ∧
      (¬r.cur + h ≤ r.lim → runRecords h body r w = if r.cur < r.lim then overflow w else w)

/-! ### The table bodies (44_tables.md) -/

/-- The frame of the table and descriptor rows (R302, R313, R454): such an instruction changes the section decoder's
working values only, and of them neither the section, the unit, its header values nor the stage (which is the model's own,
log 7); the reader, the loop, the descriptor body, the service record and the event may change. It appends body tokens of
its unit to those emitted, and notes DESCRIPTOR_OVERFLOW once for each overflow, which `ovf` remembers, and nothing
else. -/
def Obligations.TableAndDescriptorRowsKeepEverythingElse : Prop :=
  ∀ (i : Instr) (s t : State), isCommand i = false → exec i s = .next t →
    t = { s with decoder := t.decoder } ∧ (∀ a, t.capAt a = s.capAt a) ∧ (∀ r, readReg t r = readReg s r) ∧
    ∃ ts n, s.decoder.Adds t.decoder ts n ∧ ∀ x ∈ ts, x.isBody s.decoder.src s.decoder.index = true

/-- R380: TBL_PAT emits one PAT_ENTRY per whole 4-byte entry of the body, in wire order, and records the overflow when
the body is not a multiple of 4 bytes; nothing else changes. -/
def Obligations.PatBodyEmitsEveryEntry : Prop :=
  ∀ s : State,
    let w := s.decoder
    let lo := w.tstart + 8
    exec .tblPat s = .next { s with decoder := { w with
      out := w.out ++ (List.range ((w.lim - lo) / 4)).map (fun k =>
        let pn := be w.sec (lo + 4 * k) 2
        let x := be w.sec (lo + 4 * k + 2) 2
        .patEntry w.src w.index (BitVec.ofNat 16 pn) (BitVec.ofNat 3 (x / 8192)) (BitVec.ofNat 13 x) (pn == 0))
      notes := w.notes ++ (if (w.lim - lo) % 4 = 0 then [] else [.descriptorOverflow])
      ovf := w.ovf || (w.lim - lo) % 4 != 0 } }

/-- R385, R453, R523: TBL_NIT_ACT and TBL_NIT_OTH decode the same body: the NIT_NAME tokens of the network loop, then the
NIT_SERVICE tokens of the transport-stream loop. The two loops lie where their 12-bit lengths say; one that passes the
body's end is clipped to it and records the overflow, and a length field for which the body is too short reads 0, ends
the body and records the overflow. What follows the loops is ignored. -/
def Obligations.NitBodyEmitsNamesThenServices : Prop :=
  ∀ s : State, s.decoder.tstart + 8 ≤ s.decoder.lim →
    ∃ t names services, exec .tblNitAct s = .next t ∧ exec .tblNitOth s = .next t ∧
      t.decoder.out = s.decoder.out ++ names ++ services ∧
      (∀ x ∈ names, ∃ text, x = .nitName s.decoder.src s.decoder.index text) ∧
      (∀ x ∈ services, ∃ sid st, x = .nitService s.decoder.src s.decoder.index sid st) ∧
      (let w := s.decoder
        let loopAt (a : Nat) (v : Work) : Reader × Work :=
          let n := be w.sec a 2 % 4096
          if w.lim < a + 2 then (⟨w.lim, w.lim⟩, overflow v)
          else if w.lim < a + 2 + n then (⟨a + 2, w.lim⟩, overflow v)
          else (⟨a + 2, a + 2 + n⟩, v)
        let net := loopAt (w.tstart + 8) w
        let ts := loopAt net.1.lim (descLoop .nitNet net.1 net.2)
        t.decoder = runRecords 6 nitRecord ts.1 ts.2)

/-- R395: TBL_SDT_ACT and TBL_SDT_OTH decode the same body: 3 bytes are skipped, then the service records follow to the
CRC; a body shorter than 3 bytes records the overflow, once for each of the two skipped fields that does not fit, and decodes
no record. Every token is an SDT_SERVICE. -/
def Obligations.SdtBodyDecodesItsRecords : Prop :=
  ∀ s : State, s.decoder.tstart + 8 ≤ s.decoder.lim →
    ∃ t ts, exec .tblSdtAct s = .next t ∧ exec .tblSdtOth s = .next t ∧ t.decoder.out = s.decoder.out ++ ts ∧
      (∀ x ∈ ts, ∃ rec st p n, x = .sdtService s.decoder.src s.decoder.index rec st p n) ∧
      (s.decoder.tstart + 11 ≤ s.decoder.lim →
        t.decoder = runRecords 5 sdtRecord ⟨s.decoder.tstart + 11, s.decoder.lim⟩ s.decoder) ∧
      (s.decoder.lim < s.decoder.tstart + 11 → ts = [] ∧ t.decoder = { s.decoder with
        notes := s.decoder.notes ++
          List.replicate ([2, 3].countP fun k => s.decoder.lim < s.decoder.tstart + 8 + k) .descriptorOverflow
        ovf := true })

/-- R405, R450, R453: the four EIT rows decode the same body: one EIT_HDR, even when its fields overflow, then EIT_EVENT
tokens, all with the section's table_id_extension as their service_id. In a body shorter than 6 bytes a field that fits is
read, each that does not reads 0 and records the overflow, and there is no event. -/
def Obligations.EitBodyEmitsHeaderThenEvents : Prop :=
  ∀ (s : State) (low : BitVec 4), s.decoder.tstart + 8 ≤ s.decoder.lim →
    let w := s.decoder
    let lo := w.tstart + 8
    ∃ t ts tsid onid sl lt, exec .tblEitPfAct s = .next t ∧ exec .tblEitPfOth s = .next t ∧
      exec (.tblEitSchAct low) s = .next t ∧ exec (.tblEitSchOth low) s = .next t ∧
      t.decoder.out = w.out ++ .eitHdr w.src w.index w.tidExt tsid onid sl lt :: ts ∧
      (∀ x ∈ ts, ∃ e, x = .eitEvent w.src w.index e ∧ e.serviceId = w.tidExt) ∧
      tsid.toNat = (if lo + 2 ≤ w.lim then be w.sec lo 2 else 0) ∧
      onid.toNat = (if lo + 4 ≤ w.lim then be w.sec (lo + 2) 2 else 0) ∧
      sl = (if lo + 5 ≤ w.lim then byteAt w.sec (lo + 4) else 0) ∧
      lt = (if lo + 6 ≤ w.lim then byteAt w.sec (lo + 5) else 0) ∧
      (lo + 6 ≤ w.lim →
        t.decoder = runRecords 12 eitRecord ⟨lo + 6, w.lim⟩ (w.emit (.eitHdr w.src w.index w.tidExt tsid onid sl lt))) ∧
      (w.lim < lo + 6 → ts = [] ∧ t.decoder = { w with
        out := w.out ++ [.eitHdr w.src w.index w.tidExt tsid onid sl lt]
        notes := w.notes ++ List.replicate ([2, 4, 5, 6].countP fun k => w.lim < lo + k) .descriptorOverflow
        ovf := true })

/-- R385, R395, R405, R452: one record whose fixed header fits: its fields, its descriptor loop (clipped to the
container, with the overflow recorded) and, for an event, its EIT_EVENT exactly when the loop held a short-event
descriptor; a descriptor loop is a record loop of 2-byte headers, run under its loop's name; and one descriptor: the tag
within the loop selects the row, the body is the declared length clipped to the loop, and the loop goes on after it. -/
def Obligations.RecordsReadTheirHeaderAndLoop : Prop :=
  ∀ (r : Reader) (w : Work),
    let clip (a n : Nat) (v : Work) : Work := if a + n ≤ r.lim then v else overflow v
    (∀ loop, descLoop loop r w = runRecords 2 descriptorStep r { w with loop := loop }) ∧
    (r.cur + 6 ≤ r.lim →
      let n := be w.sec (r.cur + 4) 2 % 4096
      let e := min (r.cur + 6 + n) r.lim
      nitRecord r w = (⟨e, r.lim⟩, descLoop .nitTs ⟨r.cur + 6, e⟩ (clip (r.cur + 6) n w))) ∧
    (r.cur + 5 ≤ r.lim →
      let x := be w.sec (r.cur + 3) 2
      let e := min (r.cur + 5 + x % 4096) r.lim
      let fb := be w.sec (r.cur + 2) 1
      sdtRecord r w = (⟨e, r.lim⟩, descLoop .sdtSvc ⟨r.cur + 5, e⟩
        { clip (r.cur + 5) (x % 4096) w with
          record := ⟨BitVec.ofNat 16 (be w.sec r.cur 2), fb.testBit 1, fb.testBit 0, BitVec.ofNat 3 (x / 8192),
            x.testBit 12⟩ })) ∧
    (r.cur + 12 ≤ r.lim →
      let x := be w.sec (r.cur + 10) 2
      let e := min (r.cur + 12 + x % 4096) r.lim
      let v := descLoop .eitEvt ⟨r.cur + 12, e⟩ { clip (r.cur + 12) (x % 4096) w with ev := EventAsm.new }
      eitRecord r w = (⟨e, r.lim⟩,
        if v.ev.hasShort then
          v.emit (.eitEvent w.src w.index (eventItem w.tidExt (be w.sec r.cur 2) (be w.sec (r.cur + 2) 5)
            (be w.sec (r.cur + 7) 3) x v.ev))
        else v)) ∧
    (r.cur + 2 ≤ r.lim →
      let n := be w.sec (r.cur + 1) 1
      let e := min (r.cur + 2 + n) r.lim
      fetchDescriptor r w = (decodeDescriptor w.loop (byteAt w.sec r.cur),
        { clip (r.cur + 2) n w with body := ⟨r.cur + 2, e⟩, rd := ⟨e, r.lim⟩ }))

/-- R420, R421, R422, R426: Bcd is ten times the high nibble and the low nibble; three BCD bytes give seconds; MjdDate
is the source's formula, its floors taken of exact fractions; and from MJD 15079, 1900-03-01, each day is the calendar
successor of the day before (R426 takes this last from general knowledge and checks it). R169, R420-R423: the ranges
of the calendar values: for every start time and duration the wire can carry, the year is 1858..2038, the month 1..12,
the day 1..31, the start's hour, minute and second at most 165, and the finish a time of day. -/
def Obligations.EventTimesStayInRange : Prop :=
  (∀ b : Byte, bcd b.toNat = 10 * (b.extractLsb' 4 4).toNat + (b.extractLsb' 0 4).toNat) ∧
  (∀ h m s : Byte, bcdSeconds ((h ++ m ++ s).toNat) = 3600 * bcd h.toNat + 60 * bcd m.toNat + bcd s.toNat) ∧
  (∀ mjd : Int, 0 ≤ mjd → mjd ≤ 65548 →
    let y' : Int := Int.floor (((mjd : Rat) - 150782 / 10) / (36525 / 100))
    let a : Int := Int.floor ((y' : Rat) * (36525 / 100))
    let m' : Int := Int.floor (((mjd : Rat) - 149561 / 10 - (a : Rat)) / (306001 / 10000))
    let k : Int := if m' = 14 ∨ m' = 15 then 1 else 0
    mjdDate mjd = (1900 + y' + k, m' - 1 - 12 * k, mjd - 14956 - a - Int.floor ((m' : Rat) * (306001 / 10000)))) ∧
  mjdDate 15079 = (1900, 3, 1) ∧
  (∀ mjd : Int, 15079 ≤ mjd → mjd < 65548 →
    let d := mjdDate mjd
    let leap := d.1 % 4 = 0 ∧ (d.1 % 100 ≠ 0 ∨ d.1 % 400 = 0)
    let last : Int := if d.2.1 = 2 then (if leap then 29 else 28)
      else if d.2.1 = 4 ∨ d.2.1 = 6 ∨ d.2.1 = 9 ∨ d.2.1 = 11 then 30 else 31
    mjdDate (mjd + 1) =
      if d.2.2 < last then (d.1, d.2.1, d.2.2 + 1) else if d.2.1 < 12 then (d.1, d.2.1 + 1, 1) else (d.1 + 1, 1, 1)) ∧
  (∀ mjd : Int, 0 ≤ mjd → mjd ≤ 65548 →
    1858 ≤ (mjdDate mjd).1 ∧ (mjdDate mjd).1 ≤ 2038 ∧ 1 ≤ (mjdDate mjd).2.1 ∧ (mjdDate mjd).2.1 ≤ 12 ∧
    1 ≤ (mjdDate mjd).2.2 ∧ (mjdDate mjd).2.2 ≤ 31) ∧
  ∀ st du : Nat, st < 2 ^ 40 → du < 2 ^ 24 →
    st / 2 ^ 24 + (bcdSeconds (st % 2 ^ 24) + bcdSeconds du) / 86400 ≤ 65548 ∧ bcdSeconds du ≤ 604065 ∧
    (∀ d, d = startTime st ∨ d = finishTime st du →
      1858 ≤ d.year.toNat ∧ d.year.toNat ≤ 2038 ∧ 1 ≤ d.month.toNat ∧ d.month.toNat ≤ 12 ∧ 1 ≤ d.day.toNat ∧
      d.day.toNat ≤ 31 ∧ d.hour.toNat ≤ 165 ∧ d.minute.toNat ≤ 165 ∧ d.second.toNat ≤ 165) ∧
    (finishTime st du).hour.toNat ≤ 23 ∧ (finishTime st du).minute.toNat ≤ 59 ∧
    (finishTime st du).second.toNat ≤ 59

/-- R411, R412, R423, R424: the fields of an EIT_EVENT token: the finish is the start plus the duration, the language
000000 is reported as "und", and the extended texts are joined in ascending descriptor_number order. -/
def Obligations.EventTokenReportsTheEvent : Prop :=
  ∀ (sid : BitVec 16) (eid st du x : Nat) (ev : EventAsm), eid < 2 ^ 16 → st < 2 ^ 40 → du < 2 ^ 24 → x < 2 ^ 16 →
    let e := eventItem sid eid st du x ev
    let sod := 3600 * bcd (st / 65536 % 256) + 60 * bcd (st / 256 % 256) + bcd (st % 256)
    e.serviceId = sid ∧ e.eventId.toNat = eid ∧ e.startRaw.toNat = st ∧ e.durRaw.toNat = du ∧
    e.start.hour.toNat = bcd (st / 65536 % 256) ∧ e.start.minute.toNat = bcd (st / 256 % 256) ∧
    e.start.second.toNat = bcd (st % 256) ∧
    (e.start.year, e.start.month, e.start.day) =
      (BitVec.ofInt 16 (mjdDate (st / 2 ^ 24 : Nat)).1, BitVec.ofInt 8 (mjdDate (st / 2 ^ 24 : Nat)).2.1,
        BitVec.ofInt 8 (mjdDate (st / 2 ^ 24 : Nat)).2.2) ∧
    e.durSecs.toNat = 3600 * bcd (du / 65536) + 60 * bcd (du / 256 % 256) + bcd (du % 256) ∧
    e.runningStatus.toNat = x / 8192 ∧ e.freeCa = x.testBit 12 ∧
    e.lang = (if ev.lang = 0 then 0x756E64#24 else ev.lang) ∧ e.name = ev.name ∧ e.text = ev.text ∧
    e.extText = (List.finRange 16).flatMap (fun d => (ev.ext[d]).getD []) ∧
    e.hasContent = ev.hasContent ∧ e.content = ev.content ∧
    e.finish.hour.toNat * 3600 + e.finish.minute.toNat * 60 + e.finish.second.toNat =
      (sod + e.durSecs.toNat) % 86400 ∧
    ∃ days : Nat, days = st / 2 ^ 24 + (sod + e.durSecs.toNat) / 86400 ∧
      (e.finish.year, e.finish.month, e.finish.day) =
        (BitVec.ofInt 16 (mjdDate days).1, BitVec.ofInt 8 (mjdDate days).2.1, BitVec.ofInt 8 (mjdDate days).2.2)

/-! ### The descriptors (45_descriptors.md) -/

/-- R460, R462: DESC_NETWORK_NAME emits its body as one NIT_NAME; DESC_SERVICE_LIST emits one NIT_SERVICE per whole
3-byte entry of its body, in wire order, and records the overflow for a remainder; nothing else changes. -/
def Obligations.NitDescriptorsEmitTheirTokens : Prop :=
  ∀ s : State,
    let w := s.decoder
    let n := w.body.lim - w.body.cur
    exec .descNetworkName s = .next { s with decoder := { w with
      out := w.out ++ [.nitName w.src w.index (slice w.sec w.body.cur w.body.lim)] } } ∧
    exec .descServiceList s = .next { s with decoder := { w with
      out := w.out ++ (List.range (n / 3)).map (fun k =>
        .nitService w.src w.index (BitVec.ofNat 16 (be w.sec (w.body.cur + 3 * k) 2))
          (BitVec.ofNat 8 (be w.sec (w.body.cur + 3 * k + 2) 1)))
      notes := w.notes ++ (if n % 3 = 0 then [] else [.descriptorOverflow])
      ovf := w.ovf || n % 3 != 0 } }

/-- R465: DESC_SERVICE emits exactly one SDT_SERVICE with its record's fields, always: a length byte past the body reads
0, and a name past the body is clipped. -/
def Obligations.ServiceDescriptorEmitsOneToken : Prop :=
  ∀ s : State, s.decoder.body.cur ≤ s.decoder.body.lim →
    let w := s.decoder
    let b := w.body.lim
    let byte (a : Nat) := if a < b then be w.sec a 1 else 0
    let p0 := min (w.body.cur + 2) b
    let p1 := min (p0 + byte (w.body.cur + 1)) b
    let n0 := min (p1 + 1) b
    let n1 := min (n0 + byte p1) b
    ∃ n, exec .descService s = .next { s with decoder := { w with
        out := w.out ++ [.sdtService w.src w.index w.record (BitVec.ofNat 8 (byte w.body.cur)) (slice w.sec p0 p1)
          (slice w.sec n0 n1)]
        notes := w.notes ++ List.replicate n .descriptorOverflow
        ovf := w.ovf || n != 0 } } ∧
      (n = 0 ↔ w.body.cur + 2 ≤ b ∧ p0 + byte (w.body.cur + 1) + 1 ≤ b ∧ n0 + byte p1 ≤ b)

/-- R470: DESC_SHORT_EVENT marks the event and stores its language, name and text, each clipped to the body; a second
one replaces the first. -/
def Obligations.ShortEventStoresItsTexts : Prop :=
  ∀ s : State, s.decoder.body.cur ≤ s.decoder.body.lim →
    let w := s.decoder
    let b := w.body.lim
    let byte (a : Nat) := if a < b then be w.sec a 1 else 0
    let c := min (w.body.cur + 3) b
    let m0 := min (c + 1) b
    let m1 := min (m0 + byte c) b
    let x0 := min (m1 + 1) b
    let x1 := min (x0 + byte m1) b
    ∃ n, exec .descShortEvent s = .next { s with decoder := { w with
        ev := { w.ev with
          hasShort := true
          lang := BitVec.ofNat 24 (if w.body.cur + 3 ≤ b then be w.sec w.body.cur 3 else 0)
          name := slice w.sec m0 m1
          text := slice w.sec x0 x1 }
        notes := w.notes ++ List.replicate n .descriptorOverflow
        ovf := w.ovf || n != 0 } } ∧
      (n = 0 ↔ w.body.cur + 4 ≤ b ∧ m0 + byte c + 1 ≤ b ∧ x0 + byte m1 ≤ b)

/-- R473: DESC_EXTENDED_EVENT stores its text, clipped to the body, under its descriptor_number, replacing an earlier
one; the language and the items are skipped. -/
def Obligations.ExtendedEventStoresItsText : Prop :=
  ∀ s : State, s.decoder.body.cur ≤ s.decoder.body.lim →
    let w := s.decoder
    let b := w.body.lim
    let byte (a : Nat) := if a < b then be w.sec a 1 else 0
    let l := if w.body.cur + 4 ≤ b then w.body.cur + 4 else b
    let i1 := min (min (l + 1) b + byte l) b
    let x0 := min (i1 + 1) b
    let x1 := min (x0 + byte i1) b
    ∃ (n : Nat) (ext : Vector (Option Bytes) 16), exec .descExtendedEvent s = .next { s with decoder := { w with
        ev := { w.ev with ext := ext }
        notes := w.notes ++ List.replicate n .descriptorOverflow
        ovf := w.ovf || n != 0 } } ∧
      (∀ d : Fin 16, ext[d] = if d.val = byte w.body.cur / 16 then some (slice w.sec x0 x1) else w.ev.ext[d]) ∧
      (n = 0 ↔ w.body.cur + 5 ≤ b ∧ min (l + 1) b + byte l + 1 ≤ b ∧ x0 + byte i1 ≤ b)

/-- R476: DESC_CONTENT replaces the content list by one entry per 2 bytes of its body, and records the overflow for an
odd byte; nothing else changes. -/
def Obligations.ContentDescriptorReplacesTheList : Prop :=
  ∀ s : State,
    let w := s.decoder
    let n := w.body.lim - w.body.cur
    exec .descContent s = .next { s with decoder := { w with
      ev := { w.ev with
        hasContent := true
        content := (List.range (n / 2)).map (fun k =>
          let x := be w.sec (w.body.cur + 2 * k) 1
          ⟨BitVec.ofNat 4 (x / 16), BitVec.ofNat 4 x, BitVec.ofNat 8 (be w.sec (w.body.cur + 2 * k + 1) 1)⟩) }
      notes := w.notes ++ (if n % 2 = 0 then [] else [.descriptorOverflow])
      ovf := w.ovf || n % 2 != 0 } }

/-- R480, R481: the recognised-and-skipped rows and DESC_OTHER do nothing. -/
def Obligations.SkippedDescriptorsChangeNothing : Prop :=
  ∀ (s : State) (loop : DescLoop) (tag : Byte),
    exec .descSkip50 s = .next s ∧ exec .descSkip55 s = .next s ∧ exec .descSkip69 s = .next s ∧
    exec (.descSkip59 loop) s = .next s ∧ exec (.descOther loop tag) s = .next s

/-! ### Reset (70_reset_and_hazards.md) -/

/-- R700, R701: reset leaves every register, the engine, the contexts, the FIFO and `irq` at the stated values and CAPMEM
unspecified (each byte a free value, log 2 and 3), also while BUSY: the command is abandoned, and only the block's
parameters stay (log 1). In the model a reset is a move of the schedule (log 4), made while no section decode is being run
one dispatch at a time (log 7); the decoder's working values end idle (log 7), and the moves still to come (log 4) and
what the host has read (log 5) stay. -/
def Obligations.ResetGivesTheStatedValues : Prop :=
  State.reset.AtReset ∧
  ∀ (s : State) (ms : List Move), s.decoder.stage = .idle → s.schedule = .reset :: ms →
    ∃ t, step s = .next t ∧ t.AtReset ∧ t.inst = s.inst ∧ t.epoch = s.epoch + 1 ∧ t.mem = [] ∧
      t.decoder = Work.idle ∧ t.schedule = ms ∧ t.hostLog = s.hostLog

/-! ### The invariant -/

/-- The machine right after reset has the invariant, in every legal instance. -/
def Obligations.ResetHasTheInvariant : Prop :=
  State.reset.Inv ∧ ∀ c : Instance, c.Legal → (State.initial c).Inv

/-- Every step of every state with the invariant keeps it. (The canonical form of CAPMEM and the decoder's stage, two of
its clauses, are the model's own: log 2 and 7.) -/
def Obligations.EveryStepKeepsTheInvariant : Prop := ∀ s t : State, s.Inv → step s = .next t → t.Inv

/-- Every run from every state with the invariant is safe: it keeps the invariant and never stops. -/
def Obligations.EveryRunIsSafe : Prop := ∀ s : State, s.Inv → s.Safe

end
end

