-- ==== Sys2Proof/Laws/State.lean ====
section
/-! SUPPORT. One lemma per field per update, so that no later proof unfolds a record update. -/

namespace Sys2Proof.Machine

/-! ### Updates of State -/

@[simp] theorem dropWrite_inst (s : State) : (dropWrite s).inst = s.inst := rfl
@[simp] theorem dropWrite_mem (s : State) : (dropWrite s).mem = s.mem := rfl
@[simp] theorem dropWrite_epoch (s : State) : (dropWrite s).epoch = s.epoch := rfl
@[simp] theorem dropWrite_op (s : State) : (dropWrite s).op = s.op := rfl
@[simp] theorem dropWrite_phase (s : State) : (dropWrite s).phase = s.phase := rfl
@[simp] theorem dropWrite_done (s : State) : (dropWrite s).done = s.done := rfl
@[simp] theorem dropWrite_errs (s : State) : (dropWrite s).errs = s.errs ||| hazardBit := rfl
@[simp] theorem dropWrite_ctrl (s : State) : (dropWrite s).ctrl = s.ctrl := rfl
@[simp] theorem dropWrite_start (s : State) : (dropWrite s).start = s.start := rfl
@[simp] theorem dropWrite_endOff (s : State) : (dropWrite s).endOff = s.endOff := rfl
@[simp] theorem dropWrite_pidfEn (s : State) : (dropWrite s).pidfEn = s.pidfEn := rfl
@[simp] theorem dropWrite_pidfPid (s : State) : (dropWrite s).pidfPid = s.pidfPid := rfl
@[simp] theorem dropWrite_decClass (s : State) : (dropWrite s).decClass = s.decClass := rfl
@[simp] theorem dropWrite_syncOff (s : State) : (dropWrite s).syncOff = s.syncOff := rfl
@[simp] theorem dropWrite_pktCount (s : State) : (dropWrite s).pktCount = s.pktCount := rfl
@[simp] theorem dropWrite_pktKept (s : State) : (dropWrite s).pktKept = s.pktKept := rfl
@[simp] theorem dropWrite_frPos (s : State) : (dropWrite s).frPos = s.frPos := rfl
@[simp] theorem dropWrite_crcResult (s : State) : (dropWrite s).crcResult = s.crcResult := rfl
@[simp] theorem dropWrite_secCount (s : State) : (dropWrite s).secCount = s.secCount := rfl
@[simp] theorem dropWrite_errCode (s : State) : (dropWrite s).errCode = s.errCode := rfl
@[simp] theorem dropWrite_ctxs (s : State) : (dropWrite s).ctxs = s.ctxs := rfl
@[simp] theorem dropWrite_pend (s : State) : (dropWrite s).pend = s.pend := rfl
@[simp] theorem dropWrite_notes (s : State) : (dropWrite s).notes = s.notes := rfl
@[simp] theorem dropWrite_compl (s : State) : (dropWrite s).compl = s.compl := rfl
@[simp] theorem dropWrite_fifo (s : State) : (dropWrite s).fifo = s.fifo := rfl
@[simp] theorem dropWrite_decoder (s : State) : (dropWrite s).decoder = s.decoder := rfl
@[simp] theorem dropWrite_schedule (s : State) : (dropWrite s).schedule = s.schedule := rfl
@[simp] theorem dropWrite_hostLog (s : State) : (dropWrite s).hostLog = s.hostLog := rfl

@[simp] theorem clearStatus_inst (v : Word) (s : State) : (clearStatus v s).inst = s.inst := rfl
@[simp] theorem clearStatus_mem (v : Word) (s : State) : (clearStatus v s).mem = s.mem := rfl
@[simp] theorem clearStatus_epoch (v : Word) (s : State) : (clearStatus v s).epoch = s.epoch := rfl
@[simp] theorem clearStatus_op (v : Word) (s : State) : (clearStatus v s).op = s.op := rfl
@[simp] theorem clearStatus_phase (v : Word) (s : State) : (clearStatus v s).phase = s.phase := rfl
@[simp] theorem clearStatus_done (v : Word) (s : State) : (clearStatus v s).done = (s.done && !v.getLsbD 1) := rfl
@[simp] theorem clearStatus_errs (v : Word) (s : State) :
    (clearStatus v s).errs = s.errs &&& ~~~(v.extractLsb' 8 12 &&& errMask) := rfl
@[simp] theorem clearStatus_ctrl (v : Word) (s : State) : (clearStatus v s).ctrl = s.ctrl := rfl
@[simp] theorem clearStatus_start (v : Word) (s : State) : (clearStatus v s).start = s.start := rfl
@[simp] theorem clearStatus_endOff (v : Word) (s : State) : (clearStatus v s).endOff = s.endOff := rfl
@[simp] theorem clearStatus_pidfEn (v : Word) (s : State) : (clearStatus v s).pidfEn = s.pidfEn := rfl
@[simp] theorem clearStatus_pidfPid (v : Word) (s : State) : (clearStatus v s).pidfPid = s.pidfPid := rfl
@[simp] theorem clearStatus_decClass (v : Word) (s : State) : (clearStatus v s).decClass = s.decClass := rfl
@[simp] theorem clearStatus_syncOff (v : Word) (s : State) : (clearStatus v s).syncOff = s.syncOff := rfl
@[simp] theorem clearStatus_pktCount (v : Word) (s : State) : (clearStatus v s).pktCount = s.pktCount := rfl
@[simp] theorem clearStatus_pktKept (v : Word) (s : State) : (clearStatus v s).pktKept = s.pktKept := rfl
@[simp] theorem clearStatus_frPos (v : Word) (s : State) : (clearStatus v s).frPos = s.frPos := rfl
@[simp] theorem clearStatus_crcResult (v : Word) (s : State) : (clearStatus v s).crcResult = s.crcResult := rfl
@[simp] theorem clearStatus_secCount (v : Word) (s : State) : (clearStatus v s).secCount = s.secCount := rfl
@[simp] theorem clearStatus_errCode (v : Word) (s : State) : (clearStatus v s).errCode = s.errCode := rfl
@[simp] theorem clearStatus_ctxs (v : Word) (s : State) : (clearStatus v s).ctxs = s.ctxs := rfl
@[simp] theorem clearStatus_pend (v : Word) (s : State) : (clearStatus v s).pend = s.pend := rfl
@[simp] theorem clearStatus_notes (v : Word) (s : State) : (clearStatus v s).notes = s.notes := rfl
@[simp] theorem clearStatus_compl (v : Word) (s : State) : (clearStatus v s).compl = s.compl := rfl
@[simp] theorem clearStatus_fifo (v : Word) (s : State) : (clearStatus v s).fifo = s.fifo := rfl
@[simp] theorem clearStatus_decoder (v : Word) (s : State) : (clearStatus v s).decoder = s.decoder := rfl
@[simp] theorem clearStatus_schedule (v : Word) (s : State) : (clearStatus v s).schedule = s.schedule := rfl
@[simp] theorem clearStatus_hostLog (v : Word) (s : State) : (clearStatus v s).hostLog = s.hostLog := rfl

@[simp] theorem State.reply_inst (s : State) (r : Response) : (s.reply r).inst = s.inst := rfl
@[simp] theorem State.reply_mem (s : State) (r : Response) : (s.reply r).mem = s.mem := rfl
@[simp] theorem State.reply_epoch (s : State) (r : Response) : (s.reply r).epoch = s.epoch := rfl
@[simp] theorem State.reply_op (s : State) (r : Response) : (s.reply r).op = s.op := rfl
@[simp] theorem State.reply_phase (s : State) (r : Response) : (s.reply r).phase = s.phase := rfl
@[simp] theorem State.reply_done (s : State) (r : Response) : (s.reply r).done = s.done := rfl
@[simp] theorem State.reply_errs (s : State) (r : Response) : (s.reply r).errs = s.errs := rfl
@[simp] theorem State.reply_ctrl (s : State) (r : Response) : (s.reply r).ctrl = s.ctrl := rfl
@[simp] theorem State.reply_start (s : State) (r : Response) : (s.reply r).start = s.start := rfl
@[simp] theorem State.reply_endOff (s : State) (r : Response) : (s.reply r).endOff = s.endOff := rfl
@[simp] theorem State.reply_pidfEn (s : State) (r : Response) : (s.reply r).pidfEn = s.pidfEn := rfl
@[simp] theorem State.reply_pidfPid (s : State) (r : Response) : (s.reply r).pidfPid = s.pidfPid := rfl
@[simp] theorem State.reply_decClass (s : State) (r : Response) : (s.reply r).decClass = s.decClass := rfl
@[simp] theorem State.reply_syncOff (s : State) (r : Response) : (s.reply r).syncOff = s.syncOff := rfl
@[simp] theorem State.reply_pktCount (s : State) (r : Response) : (s.reply r).pktCount = s.pktCount := rfl
@[simp] theorem State.reply_pktKept (s : State) (r : Response) : (s.reply r).pktKept = s.pktKept := rfl
@[simp] theorem State.reply_frPos (s : State) (r : Response) : (s.reply r).frPos = s.frPos := rfl
@[simp] theorem State.reply_crcResult (s : State) (r : Response) : (s.reply r).crcResult = s.crcResult := rfl
@[simp] theorem State.reply_secCount (s : State) (r : Response) : (s.reply r).secCount = s.secCount := rfl
@[simp] theorem State.reply_errCode (s : State) (r : Response) : (s.reply r).errCode = s.errCode := rfl
@[simp] theorem State.reply_ctxs (s : State) (r : Response) : (s.reply r).ctxs = s.ctxs := rfl
@[simp] theorem State.reply_pend (s : State) (r : Response) : (s.reply r).pend = s.pend := rfl
@[simp] theorem State.reply_notes (s : State) (r : Response) : (s.reply r).notes = s.notes := rfl
@[simp] theorem State.reply_compl (s : State) (r : Response) : (s.reply r).compl = s.compl := rfl
@[simp] theorem State.reply_fifo (s : State) (r : Response) : (s.reply r).fifo = s.fifo := rfl
@[simp] theorem State.reply_decoder (s : State) (r : Response) : (s.reply r).decoder = s.decoder := rfl
@[simp] theorem State.reply_schedule (s : State) (r : Response) : (s.reply r).schedule = s.schedule := rfl
@[simp] theorem State.reply_hostLog (s : State) (r : Response) : (s.reply r).hostLog = s.hostLog ++ [r] := rfl

@[simp] theorem startCommand_inst (op : BitVec 4) (r : ExecResult) (s : State) :
    (startCommand op r s).inst = s.inst := rfl
@[simp] theorem startCommand_mem (op : BitVec 4) (r : ExecResult) (s : State) :
    (startCommand op r s).mem = s.mem := rfl
@[simp] theorem startCommand_epoch (op : BitVec 4) (r : ExecResult) (s : State) :
    (startCommand op r s).epoch = s.epoch := rfl
@[simp] theorem startCommand_op (op : BitVec 4) (r : ExecResult) (s : State) : (startCommand op r s).op = op := rfl
@[simp] theorem startCommand_phase (op : BitVec 4) (r : ExecResult) (s : State) :
    (startCommand op r s).phase = .busy := rfl
@[simp] theorem startCommand_done (op : BitVec 4) (r : ExecResult) (s : State) :
    (startCommand op r s).done = false := rfl
@[simp] theorem startCommand_errs (op : BitVec 4) (r : ExecResult) (s : State) :
    (startCommand op r s).errs = s.errs := rfl
@[simp] theorem startCommand_ctrl (op : BitVec 4) (r : ExecResult) (s : State) :
    (startCommand op r s).ctrl = s.ctrl := rfl
@[simp] theorem startCommand_start (op : BitVec 4) (r : ExecResult) (s : State) :
    (startCommand op r s).start = s.start := rfl
@[simp] theorem startCommand_endOff (op : BitVec 4) (r : ExecResult) (s : State) :
    (startCommand op r s).endOff = s.endOff := rfl
@[simp] theorem startCommand_pidfEn (op : BitVec 4) (r : ExecResult) (s : State) :
    (startCommand op r s).pidfEn = s.pidfEn := rfl
@[simp] theorem startCommand_pidfPid (op : BitVec 4) (r : ExecResult) (s : State) :
    (startCommand op r s).pidfPid = s.pidfPid := rfl
@[simp] theorem startCommand_decClass (op : BitVec 4) (r : ExecResult) (s : State) :
    (startCommand op r s).decClass = s.decClass := rfl
@[simp] theorem startCommand_syncOff (op : BitVec 4) (r : ExecResult) (s : State) :
    (startCommand op r s).syncOff = s.syncOff := rfl
@[simp] theorem startCommand_pktCount (op : BitVec 4) (r : ExecResult) (s : State) :
    (startCommand op r s).pktCount = s.pktCount := rfl
@[simp] theorem startCommand_pktKept (op : BitVec 4) (r : ExecResult) (s : State) :
    (startCommand op r s).pktKept = s.pktKept := rfl
@[simp] theorem startCommand_frPos (op : BitVec 4) (r : ExecResult) (s : State) :
    (startCommand op r s).frPos = s.frPos := rfl
@[simp] theorem startCommand_crcResult (op : BitVec 4) (r : ExecResult) (s : State) :
    (startCommand op r s).crcResult = s.crcResult := rfl
@[simp] theorem startCommand_secCount (op : BitVec 4) (r : ExecResult) (s : State) :
    (startCommand op r s).secCount = s.secCount := rfl
@[simp] theorem startCommand_errCode (op : BitVec 4) (r : ExecResult) (s : State) :
    (startCommand op r s).errCode = s.errCode := rfl
@[simp] theorem startCommand_ctxs (op : BitVec 4) (r : ExecResult) (s : State) :
    (startCommand op r s).ctxs = r.ctxs := rfl
@[simp] theorem startCommand_pend (op : BitVec 4) (r : ExecResult) (s : State) :
    (startCommand op r s).pend = r.out := rfl
@[simp] theorem startCommand_notes (op : BitVec 4) (r : ExecResult) (s : State) :
    (startCommand op r s).notes = r.notes := rfl
@[simp] theorem startCommand_compl (op : BitVec 4) (r : ExecResult) (s : State) :
    (startCommand op r s).compl = r.q := rfl
@[simp] theorem startCommand_fifo (op : BitVec 4) (r : ExecResult) (s : State) :
    (startCommand op r s).fifo = s.fifo := rfl
@[simp] theorem startCommand_decoder (op : BitVec 4) (r : ExecResult) (s : State) :
    (startCommand op r s).decoder = s.decoder := rfl
@[simp] theorem startCommand_schedule (op : BitVec 4) (r : ExecResult) (s : State) :
    (startCommand op r s).schedule = s.schedule := rfl
@[simp] theorem startCommand_hostLog (op : BitVec 4) (r : ExecResult) (s : State) :
    (startCommand op r s).hostLog = s.hostLog := rfl

@[simp] theorem completeCommand_inst (s : State) : (completeCommand s).inst = s.inst := rfl
@[simp] theorem completeCommand_mem (s : State) : (completeCommand s).mem = s.mem := rfl
@[simp] theorem completeCommand_epoch (s : State) : (completeCommand s).epoch = s.epoch := rfl
@[simp] theorem completeCommand_op (s : State) : (completeCommand s).op = s.op := rfl
@[simp] theorem completeCommand_phase (s : State) : (completeCommand s).phase = .idle := rfl
@[simp] theorem completeCommand_done (s : State) : (completeCommand s).done = true := rfl
@[simp] theorem completeCommand_errs (s : State) : (completeCommand s).errs = recordBits s.notes s.errs := rfl
@[simp] theorem completeCommand_ctrl (s : State) : (completeCommand s).ctrl = s.ctrl := rfl
@[simp] theorem completeCommand_start (s : State) : (completeCommand s).start = s.start := rfl
@[simp] theorem completeCommand_endOff (s : State) : (completeCommand s).endOff = s.endOff := rfl
@[simp] theorem completeCommand_pidfEn (s : State) : (completeCommand s).pidfEn = s.pidfEn := rfl
@[simp] theorem completeCommand_pidfPid (s : State) : (completeCommand s).pidfPid = s.pidfPid := rfl
@[simp] theorem completeCommand_decClass (s : State) : (completeCommand s).decClass = s.decClass := rfl
@[simp] theorem completeCommand_syncOff (s : State) :
    (completeCommand s).syncOff = s.compl.syncOff.getD s.syncOff := rfl
@[simp] theorem completeCommand_pktCount (s : State) :
    (completeCommand s).pktCount = s.compl.pktCount.getD s.pktCount := rfl
@[simp] theorem completeCommand_pktKept (s : State) :
    (completeCommand s).pktKept = s.compl.pktKept.getD s.pktKept := rfl
@[simp] theorem completeCommand_frPos (s : State) : (completeCommand s).frPos = s.compl.frPos.getD s.frPos := rfl
@[simp] theorem completeCommand_crcResult (s : State) :
    (completeCommand s).crcResult = s.compl.crcResult.getD s.crcResult := rfl
@[simp] theorem completeCommand_secCount (s : State) :
    (completeCommand s).secCount = s.compl.secCount.getD s.secCount := rfl
@[simp] theorem completeCommand_errCode (s : State) : (completeCommand s).errCode = firstCode s.notes := rfl
@[simp] theorem completeCommand_ctxs (s : State) :
    (completeCommand s).ctxs = clearContexts (writeCtxResults s.ctxs (s.compl.ctxResults.getD [])) := rfl
@[simp] theorem completeCommand_pend (s : State) : (completeCommand s).pend = [] := rfl
@[simp] theorem completeCommand_notes (s : State) : (completeCommand s).notes = [] := rfl
@[simp] theorem completeCommand_compl (s : State) : (completeCommand s).compl = Completion.empty := rfl
@[simp] theorem completeCommand_fifo (s : State) : (completeCommand s).fifo = s.fifo := rfl
@[simp] theorem completeCommand_decoder (s : State) : (completeCommand s).decoder = s.decoder := rfl
@[simp] theorem completeCommand_schedule (s : State) : (completeCommand s).schedule = s.schedule := rfl
@[simp] theorem completeCommand_hostLog (s : State) : (completeCommand s).hostLog = s.hostLog := rfl

@[simp] theorem resetBlock_inst (s : State) : (resetBlock s).inst = s.inst := rfl
@[simp] theorem resetBlock_mem (s : State) : (resetBlock s).mem = (State.initial s.inst).mem := rfl
@[simp] theorem resetBlock_epoch (s : State) : (resetBlock s).epoch = s.epoch + 1 := rfl
@[simp] theorem resetBlock_op (s : State) : (resetBlock s).op = (State.initial s.inst).op := rfl
@[simp] theorem resetBlock_phase (s : State) : (resetBlock s).phase = (State.initial s.inst).phase := rfl
@[simp] theorem resetBlock_done (s : State) : (resetBlock s).done = (State.initial s.inst).done := rfl
@[simp] theorem resetBlock_errs (s : State) : (resetBlock s).errs = (State.initial s.inst).errs := rfl
@[simp] theorem resetBlock_ctrl (s : State) : (resetBlock s).ctrl = (State.initial s.inst).ctrl := rfl
@[simp] theorem resetBlock_start (s : State) : (resetBlock s).start = (State.initial s.inst).start := rfl
@[simp] theorem resetBlock_endOff (s : State) : (resetBlock s).endOff = (State.initial s.inst).endOff := rfl
@[simp] theorem resetBlock_pidfEn (s : State) : (resetBlock s).pidfEn = (State.initial s.inst).pidfEn := rfl
@[simp] theorem resetBlock_pidfPid (s : State) : (resetBlock s).pidfPid = (State.initial s.inst).pidfPid := rfl
@[simp] theorem resetBlock_decClass (s : State) : (resetBlock s).decClass = (State.initial s.inst).decClass := rfl
@[simp] theorem resetBlock_syncOff (s : State) : (resetBlock s).syncOff = (State.initial s.inst).syncOff := rfl
@[simp] theorem resetBlock_pktCount (s : State) : (resetBlock s).pktCount = (State.initial s.inst).pktCount := rfl
@[simp] theorem resetBlock_pktKept (s : State) : (resetBlock s).pktKept = (State.initial s.inst).pktKept := rfl
@[simp] theorem resetBlock_frPos (s : State) : (resetBlock s).frPos = (State.initial s.inst).frPos := rfl
@[simp] theorem resetBlock_crcResult (s : State) : (resetBlock s).crcResult = (State.initial s.inst).crcResult := rfl
@[simp] theorem resetBlock_secCount (s : State) : (resetBlock s).secCount = (State.initial s.inst).secCount := rfl
@[simp] theorem resetBlock_errCode (s : State) : (resetBlock s).errCode = (State.initial s.inst).errCode := rfl
@[simp] theorem resetBlock_ctxs (s : State) : (resetBlock s).ctxs = (State.initial s.inst).ctxs := rfl
@[simp] theorem resetBlock_pend (s : State) : (resetBlock s).pend = (State.initial s.inst).pend := rfl
@[simp] theorem resetBlock_notes (s : State) : (resetBlock s).notes = (State.initial s.inst).notes := rfl
@[simp] theorem resetBlock_compl (s : State) : (resetBlock s).compl = (State.initial s.inst).compl := rfl
@[simp] theorem resetBlock_fifo (s : State) : (resetBlock s).fifo = (State.initial s.inst).fifo := rfl
@[simp] theorem resetBlock_decoder (s : State) : (resetBlock s).decoder = (State.initial s.inst).decoder := rfl
@[simp] theorem resetBlock_schedule (s : State) : (resetBlock s).schedule = s.schedule := rfl
@[simp] theorem resetBlock_hostLog (s : State) : (resetBlock s).hostLog = s.hostLog := rfl

/-! ### Updates of the section decoder's working values -/

@[simp] theorem Work.emit_sec (w : Work) (t : Token) : (w.emit t).sec = w.sec := rfl
@[simp] theorem Work.emit_src (w : Work) (t : Token) : (w.emit t).src = w.src := rfl
@[simp] theorem Work.emit_index (w : Work) (t : Token) : (w.emit t).index = w.index := rfl
@[simp] theorem Work.emit_cls (w : Work) (t : Token) : (w.emit t).cls = w.cls := rfl
@[simp] theorem Work.emit_tstart (w : Work) (t : Token) : (w.emit t).tstart = w.tstart := rfl
@[simp] theorem Work.emit_lim (w : Work) (t : Token) : (w.emit t).lim = w.lim := rfl
@[simp] theorem Work.emit_tidExt (w : Work) (t : Token) : (w.emit t).tidExt = w.tidExt := rfl
@[simp] theorem Work.emit_crcCalc (w : Work) (t : Token) : (w.emit t).crcCalc = w.crcCalc := rfl
@[simp] theorem Work.emit_crcStatus (w : Work) (t : Token) : (w.emit t).crcStatus = w.crcStatus := rfl
@[simp] theorem Work.emit_ovf (w : Work) (t : Token) : (w.emit t).ovf = w.ovf := rfl
@[simp] theorem Work.emit_rd (w : Work) (t : Token) : (w.emit t).rd = w.rd := rfl
@[simp] theorem Work.emit_loop (w : Work) (t : Token) : (w.emit t).loop = w.loop := rfl
@[simp] theorem Work.emit_body (w : Work) (t : Token) : (w.emit t).body = w.body := rfl
@[simp] theorem Work.emit_record (w : Work) (t : Token) : (w.emit t).record = w.record := rfl
@[simp] theorem Work.emit_ev (w : Work) (t : Token) : (w.emit t).ev = w.ev := rfl
@[simp] theorem Work.emit_out (w : Work) (t : Token) : (w.emit t).out = w.out ++ [t] := rfl
@[simp] theorem Work.emit_notes (w : Work) (t : Token) : (w.emit t).notes = w.notes := rfl
@[simp] theorem Work.emit_stage (w : Work) (t : Token) : (w.emit t).stage = w.stage := rfl

@[simp] theorem Work.note_sec (w : Work) (e : ErrCode) : (w.note e).sec = w.sec := rfl
@[simp] theorem Work.note_src (w : Work) (e : ErrCode) : (w.note e).src = w.src := rfl
@[simp] theorem Work.note_index (w : Work) (e : ErrCode) : (w.note e).index = w.index := rfl
@[simp] theorem Work.note_cls (w : Work) (e : ErrCode) : (w.note e).cls = w.cls := rfl
@[simp] theorem Work.note_tstart (w : Work) (e : ErrCode) : (w.note e).tstart = w.tstart := rfl
@[simp] theorem Work.note_lim (w : Work) (e : ErrCode) : (w.note e).lim = w.lim := rfl
@[simp] theorem Work.note_tidExt (w : Work) (e : ErrCode) : (w.note e).tidExt = w.tidExt := rfl
@[simp] theorem Work.note_crcCalc (w : Work) (e : ErrCode) : (w.note e).crcCalc = w.crcCalc := rfl
@[simp] theorem Work.note_crcStatus (w : Work) (e : ErrCode) : (w.note e).crcStatus = w.crcStatus := rfl
@[simp] theorem Work.note_ovf (w : Work) (e : ErrCode) : (w.note e).ovf = w.ovf := rfl
@[simp] theorem Work.note_rd (w : Work) (e : ErrCode) : (w.note e).rd = w.rd := rfl
@[simp] theorem Work.note_loop (w : Work) (e : ErrCode) : (w.note e).loop = w.loop := rfl
@[simp] theorem Work.note_body (w : Work) (e : ErrCode) : (w.note e).body = w.body := rfl
@[simp] theorem Work.note_record (w : Work) (e : ErrCode) : (w.note e).record = w.record := rfl
@[simp] theorem Work.note_ev (w : Work) (e : ErrCode) : (w.note e).ev = w.ev := rfl
@[simp] theorem Work.note_out (w : Work) (e : ErrCode) : (w.note e).out = w.out := rfl
@[simp] theorem Work.note_notes (w : Work) (e : ErrCode) : (w.note e).notes = w.notes ++ [e] := rfl
@[simp] theorem Work.note_stage (w : Work) (e : ErrCode) : (w.note e).stage = w.stage := rfl

@[simp] theorem overflow_sec (w : Work) : (overflow w).sec = w.sec := rfl
@[simp] theorem overflow_src (w : Work) : (overflow w).src = w.src := rfl
@[simp] theorem overflow_index (w : Work) : (overflow w).index = w.index := rfl
@[simp] theorem overflow_cls (w : Work) : (overflow w).cls = w.cls := rfl
@[simp] theorem overflow_tstart (w : Work) : (overflow w).tstart = w.tstart := rfl
@[simp] theorem overflow_lim (w : Work) : (overflow w).lim = w.lim := rfl
@[simp] theorem overflow_tidExt (w : Work) : (overflow w).tidExt = w.tidExt := rfl
@[simp] theorem overflow_crcCalc (w : Work) : (overflow w).crcCalc = w.crcCalc := rfl
@[simp] theorem overflow_crcStatus (w : Work) : (overflow w).crcStatus = w.crcStatus := rfl
@[simp] theorem overflow_ovf (w : Work) : (overflow w).ovf = true := rfl
@[simp] theorem overflow_rd (w : Work) : (overflow w).rd = w.rd := rfl
@[simp] theorem overflow_loop (w : Work) : (overflow w).loop = w.loop := rfl
@[simp] theorem overflow_body (w : Work) : (overflow w).body = w.body := rfl
@[simp] theorem overflow_record (w : Work) : (overflow w).record = w.record := rfl
@[simp] theorem overflow_ev (w : Work) : (overflow w).ev = w.ev := rfl
@[simp] theorem overflow_out (w : Work) : (overflow w).out = w.out := rfl
@[simp] theorem overflow_notes (w : Work) : (overflow w).notes = w.notes ++ [.descriptorOverflow] := rfl
@[simp] theorem overflow_stage (w : Work) : (overflow w).stage = w.stage := rfl

/-! ### Updates of an accumulator -/

@[simp] theorem Acc.emit_out (a : Acc) (t : Token) : (a.emit t).out = a.out ++ [t] := rfl
@[simp] theorem Acc.emit_notes (a : Acc) (t : Token) : (a.emit t).notes = a.notes := rfl
@[simp] theorem Acc.note_out (a : Acc) (e : ErrCode) : (a.note e).out = a.out := rfl
@[simp] theorem Acc.note_notes (a : Acc) (e : ErrCode) : (a.note e).notes = a.notes ++ [e] := rfl
@[simp] theorem Acc.addWork_out (a : Acc) (w : Work) : (a.addWork w).out = a.out ++ w.out := rfl
@[simp] theorem Acc.addWork_notes (a : Acc) (w : Work) : (a.addWork w).notes = a.notes ++ w.notes := rfl

end Sys2Proof.Machine
end

