-- ==== Sys2Proof/Laws/Csr.lean ====
section
/-! SUPPORT. The CSR map (10_state.md R35, R56) by offset, and the STATUS word (R37) by bit. -/

namespace Sys2Proof.Machine

/-- The context registers. -/
theorem csrAt_high {n off : Nat} (h : 0x40 ≤ off) : csrAt n off =
    if (off - 0x40) / 0x10 < n then
      if off % 0x10 = 0 then some (.ctxCfg ((off - 0x40) / 0x10))
      else if off % 0x10 = 4 then some (.ctxSecs ((off - 0x40) / 0x10))
      else if off % 0x10 = 8 then some (.ctxState ((off - 0x40) / 0x10))
      else none
    else none := by
  obtain ⟨k, rfl⟩ := Nat.exists_eq_add_of_le h
  have e : csrAt n (0x40 + k) =
      if 0x040 ≤ 0x40 + k ∧ (0x40 + k - 0x040) / 0x10 < n then
        match (0x40 + k) % 0x10 with
        | 0x0 => some (.ctxCfg ((0x40 + k - 0x040) / 0x10))
        | 0x4 => some (.ctxSecs ((0x40 + k - 0x040) / 0x10))
        | 0x8 => some (.ctxState ((0x40 + k - 0x040) / 0x10))
        | _ => none
      else none := by
    rw [Nat.add_comm]
    rfl
  rw [e]
  simp only [h, true_and]
  congr 1
  split <;> simp_all

theorem csrAt_unaligned {n off : Nat} (h : off % 4 ≠ 0) : csrAt n off = none := by
  by_cases h' : off < 0x40
  · interval_cases off <;> first | rfl | (exact absurd rfl h)
  · rw [csrAt_high (by omega), if_neg (show ¬off % 0x10 = 0 by omega), if_neg (show ¬off % 0x10 = 4 by omega),
      if_neg (show ¬off % 0x10 = 8 by omega), ite_self]

/-- CMD answers at offset 0 only, so a host write elsewhere is no command (R35). -/
theorem csrAt_ne_cmd {n off : Nat} (h : off ≠ 0) : csrAt n off ≠ some .cmd := by
  by_cases h' : off < 0x40
  · interval_cases off <;> first | exact absurd rfl h | exact nofun
  · rw [csrAt_high (by omega)]
    repeat' split
    all_goals exact nofun

/-- The STATUS word, bit by bit (R37). -/
theorem statusWord_getLsbD (s : State) (n : Nat) : s.statusWord.getLsbD n =
    if n = 0 then s.busy else if n = 1 then s.done else if n = 2 then s.errFlag else if n = 3 then s.irq
    else if n < 8 then false else s.errField.getLsbD (n - 8) := by
  unfold State.statusWord
  simp only [BitVec.getLsbD_append, BitVec.getLsbD_ofBool, BitVec.getLsbD_zero]
  rcases n with _ | _ | _ | _ | n
  · simp
  · simp
  · simp
  · simp
  · have e : n + 1 + 1 + 1 + 1 - 8 = n - 4 := by omega
    simp only [Nat.add_eq_zero_iff, e]
    by_cases h : n < 4
    · simp [h]
    · by_cases h2 : n - 4 < 12
      · simp [h, h2, show ¬n + 4 < 8 by omega]
      · simp [h, h2, show ¬n + 4 < 8 by omega, BitVec.getLsbD_of_ge s.errField (n - 4) (by omega)]

end Sys2Proof.Machine
end

