-- ==== Sys2Proof/Laws/Memory.lean ====
section
/-! SUPPORT. CAPMEM (10_state.md R33, 20_memory.md R100-R102): reading after writing, and the canonical form. -/

namespace Sys2Proof.Machine

theorem Memory.read?_write_same (m : Memory) (a : Nat) (v : Byte) : (m.write a v).read? a = some v := by
  induction m with
  | nil => simp [Memory.write, Memory.read?]
  | cons c m ih =>
    obtain ⟨k, x⟩ := c
    unfold Memory.write
    split
    · simp [Memory.read?]
    · split
      · simp [Memory.read?]
      · simp [Memory.read?, ih, Ne.symm ‹¬a = k›]

theorem Memory.read?_write_other (m : Memory) {a b : Nat} (v : Byte) (h : b ≠ a) :
    (m.write a v).read? b = m.read? b := by
  induction m with
  | nil => simp [Memory.write, Memory.read?, h.symm]
  | cons c m ih =>
    obtain ⟨k, x⟩ := c
    unfold Memory.write
    split
    · simp [Memory.read?, h.symm]
    · split
      · simp [Memory.read?, h.symm, ← ‹a = k›]
      · simp [Memory.read?, ih]

/-- What a write lists: the address written, and what was listed. -/
theorem Memory.mem_write {m : Memory} {a : Nat} {v : Byte} {c : Host.Cell} (h : c ∈ m.write a v) :
    c.1 = a ∨ c ∈ m := by
  induction m with
  | nil => simp [Memory.write] at h; simp [h]
  | cons d m ih =>
    obtain ⟨k, x⟩ := d
    unfold Memory.write at h
    split at h
    · simp only [List.mem_cons] at h ⊢
      rcases h with rfl | h
      · exact .inl rfl
      · exact .inr h
    · split at h
      · simp only [List.mem_cons] at h ⊢
        rcases h with rfl | h
        · exact .inl rfl
        · exact .inr (.inr h)
      · simp only [List.mem_cons] at h ⊢
        rcases h with rfl | h
        · exact .inr (.inl rfl)
        · exact (ih h).imp id .inr

/-- A write keeps the canonical form. -/
theorem Memory.write_wf {m : Memory} (a : Nat) (v : Byte) (h : m.wf) : (m.write a v).wf := by
  induction m with
  | nil => simp [Memory.write]
  | cons c m ih =>
    obtain ⟨k, x⟩ := c
    replace h := List.pairwise_cons.1 h
    unfold Memory.write
    split
    · refine List.pairwise_cons.2 ⟨fun d hd => ?_, List.pairwise_cons.2 h⟩
      rcases List.mem_cons.1 hd with rfl | hd
      · assumption
      · exact Nat.lt_trans ‹_› (h.1 d hd)
    · split
      · exact List.pairwise_cons.2 ⟨fun d hd => by simpa [‹a = k›] using h.1 d hd, h.2⟩
      · refine List.pairwise_cons.2 ⟨fun d hd => ?_, ih h.2⟩
        rcases Memory.mem_write hd with hd | hd
        · simp only [hd]; omega
        · exact h.1 d hd

/-- Reset memory has the canonical form. -/
theorem Memory.wf_reset (c : Instance) : (State.initial c).mem.wf := List.Pairwise.nil

theorem Memory.wf_capWrite (a : Nat) (v : Byte) {s : State} (h : s.mem.wf) : (capWrite a v s).mem.wf := by
  unfold capWrite
  split <;> split <;> first | exact Memory.write_wf a v h | exact h

/-- `CAP[a]` depends on the parameters, the written bytes and the epoch only. -/
theorem State.capAt_congr {s t : State} (hi : t.inst = s.inst) (hm : t.mem = s.mem) (he : t.epoch = s.epoch)
    (a : Nat) : t.capAt a = s.capAt a := by
  simp [State.capAt, hi, hm, he]

theorem capWrite_capAt_same {s : State} {a : Nat} (v : Byte) (hp : s.phase = .idle) (ha : a < s.inst.capSize) :
    (capWrite a v s).capAt a = v := by
  simp [capWrite, hp, ha, State.capAt, Memory.read?_write_same]

theorem capWrite_capAt_other {s : State} {a b : Nat} (v : Byte) (h : b ≠ a) :
    (capWrite a v s).capAt b = s.capAt b := by
  unfold capWrite
  split <;> split
  · simp [State.capAt, Memory.read?_write_other, h]
  · rfl
  · exact State.capAt_congr rfl rfl rfl b
  · rfl

/-- Two memories that agree on a range give the same bytes of it. -/
theorem capSlice_congr {cap cap' : Nat → Byte} {a b : Nat} (h : ∀ i, a ≤ i → i < b → cap i = cap' i) :
    capSlice cap a b = capSlice cap' a b := by
  apply List.map_congr_left
  intro i hi
  rw [List.mem_range'_1] at hi
  exact h i hi.1 (by omega)

theorem capSlice_length (cap : Nat → Byte) (a b : Nat) : (capSlice cap a b).length = b - a := by
  simp [capSlice]

end Sys2Proof.Machine
end

