-- ==== Sys2Proof/Laws/Decoder.lean ====
section
/-! SUPPORT. What reading, the record loops, the descriptor actions and the table bodies can do to the section decoder's
working values (45_descriptors.md R450-R452, 44_tables.md): they append tokens of the unit and overflow notes, and
leave the unit, its header values and the stage alone. -/

namespace Sys2Proof.Machine

/-! ### Adding tokens and overflows -/

theorem Work.Adds.refl (w : Work) : w.Adds w [] 0 := by simp [Work.Adds]

theorem Work.Adds.trans {w u v : Work} {ts us : List Token} {m n : Nat} (h : w.Adds u ts m) (k : u.Adds v us n) :
    w.Adds v (ts ++ us) (m + n) := by
  obtain ⟨h1, h2, h3, h4, h5, h6, h7, h8, h9, h10, h11, h12, h13⟩ := h
  obtain ⟨k1, k2, k3, k4, k5, k6, k7, k8, k9, k10, k11, k12, k13⟩ := k
  refine ⟨by simp [k1, h1], by simp [k2, h2], ?_, k4.trans h4, k5.trans h5, k6.trans h6,
    k7.trans h7, k8.trans h8, k9.trans h9, k10.trans h10, k11.trans h11, k12.trans h12, k13.trans h13⟩
  rw [k3, h3, Bool.or_assoc]
  congr 1
  cases m <;> cases n <;> simp

/-- A relation between working values: some tokens, each with the property `P` of the unit's source, index and
table_id_extension, and some overflows were added. -/
def Work.Grows (P : BitVec 4 → Word → BitVec 16 → Token → Prop) (w w' : Work) : Prop :=
  ∃ ts n, w.Adds w' ts n ∧ ∀ x ∈ ts, P w.src w.index w.tidExt x

section

variable {P Q : BitVec 4 → Word → BitVec 16 → Token → Prop}

theorem Work.Grows.refl (w : Work) : w.Grows P w := ⟨[], 0, .refl w, by simp⟩

theorem Work.Grows.trans {w u v : Work} (h : w.Grows P u) (k : u.Grows P v) : w.Grows P v := by
  obtain ⟨ts, m, h, ht⟩ := h
  obtain ⟨us, n, k, ku⟩ := k
  refine ⟨ts ++ us, m + n, h.trans k, fun x hx => ?_⟩
  obtain ⟨-, -, -, -, h5, h6, -, -, -, h10, -, -, -⟩ := h
  rcases List.mem_append.1 hx with hx | hx
  · exact ht x hx
  · simpa [h5, h6, h10] using ku x hx

theorem Work.Grows.mono {w u : Work} (h : w.Grows P u) (f : ∀ a b c x, P a b c x → Q a b c x) : w.Grows Q u := by
  obtain ⟨ts, n, h, ht⟩ := h
  exact ⟨ts, n, h, fun x hx => f _ _ _ x (ht x hx)⟩

theorem Work.Grows.emit {w u : Work} {t : Token} (h : w.Grows P u) (ht : P w.src w.index w.tidExt t) :
    w.Grows P (u.emit t) := by
  refine h.trans ⟨[t], 0, by simp [Work.Adds], ?_⟩
  obtain ⟨ts, n, ⟨-, -, -, -, h5, h6, -, -, -, h10, -, -, -⟩, -⟩ := h
  simpa [h5, h6, h10] using ht

theorem Work.Grows.overflow {w u : Work} (h : w.Grows P u) : w.Grows P (Machine.overflow u) :=
  h.trans ⟨[], 1, by simp [Work.Adds], by simp⟩

theorem Work.Grows.fields {w u : Work} (h : w.Grows P u) : u.sec = w.sec ∧ u.src = w.src ∧ u.index = w.index ∧
    u.tidExt = w.tidExt ∧ u.crcCalc = w.crcCalc ∧ u.crcStatus = w.crcStatus ∧ u.stage = w.stage := by
  obtain ⟨ts, n, ⟨-, -, -, h4, h5, h6, -, -, -, h10, h11, h12, h13⟩, -⟩ := h
  exact ⟨h4, h5, h6, h10, h11, h12, h13⟩

/-! ### Readers and record loops -/

theorem readField_grows {w u : Work} (h : w.Grows P u) (n : Nat) (r : Reader) : w.Grows P (readField n r u).2.2 := by
  unfold readField
  split
  · exact h
  · exact h.overflow

theorem readSpan_grows {w u : Work} (h : w.Grows P u) (n : Nat) (r : Reader) : w.Grows P (readSpan n r u).2.2 := by
  unfold readSpan
  split
  · exact h.overflow
  · exact h

theorem Work.Grows.field {w u v : Work} (h : w.Grows P u) {n x : Nat} {r r' : Reader}
    (e : readField n r u = (x, r', v)) : w.Grows P v := by simpa [e] using readField_grows h n r

theorem Work.Grows.span {w u v : Work} (h : w.Grows P u) {n : Nat} {r b r' : Reader}
    (e : readSpan n r u = (b, r', v)) : w.Grows P v := by simpa [e] using readSpan_grows h n r

theorem loopRemainder_grows {w u : Work} (h : w.Grows P u) (r : Reader) : w.Grows P (loopRemainder r u) := by
  unfold loopRemainder
  split
  · exact h.overflow
  · exact h

theorem recordLoop_grows {h : Nat} {body : Reader → Work → Reader × Work} (hb : ∀ r w, Work.Grows P w (body r w).2)
    {w : Work} (fuel : Nat) (r : Reader) (u : Work) (hu : w.Grows P u) : w.Grows P (recordLoop h body fuel r u) := by
  induction fuel generalizing r u with
  | zero => exact loopRemainder_grows hu r
  | succ fuel ih =>
    unfold recordLoop
    split
    · exact ih _ _ (hu.trans (hb r u))
    · exact loopRemainder_grows hu r

theorem runRecords_grows {h : Nat} {body : Reader → Work → Reader × Work} (hb : ∀ r w, Work.Grows P w (body r w).2)
    {w u : Work} (hu : w.Grows P u) (r : Reader) : w.Grows P (runRecords h body r u) :=
  recordLoop_grows hb _ r u hu

/-- A change of the loop, the current body, the record or the event is no change of the unit. -/
theorem Work.Grows.withRecord {w u : Work} (h : w.Grows P u) (x : ServiceRecord) :
    w.Grows P { u with record := x } := h

theorem Work.Grows.withEv {w u : Work} (h : w.Grows P u) (x : EventAsm) : w.Grows P { u with ev := x } := h

theorem Work.Grows.withLoop {w u : Work} (h : w.Grows P u) (x : DescLoop) : w.Grows P { u with loop := x } := h

theorem Work.Grows.withBody {w u : Work} (h : w.Grows P u) (b r : Reader) :
    w.Grows P { u with body := b, rd := r } := h

end

/-! ### The kinds of tokens each action emits -/

def isNitName (s : BitVec 4) (i : Word) (_ : BitVec 16) (x : Token) : Prop := ∃ text, x = .nitName s i text
def isNitService (s : BitVec 4) (i : Word) (_ : BitVec 16) (x : Token) : Prop := ∃ sid st, x = .nitService s i sid st
def isSdtService (s : BitVec 4) (i : Word) (_ : BitVec 16) (x : Token) : Prop :=
  ∃ rec st p n, x = .sdtService s i rec st p n
def isPatEntry (s : BitVec 4) (i : Word) (_ : BitVec 16) (x : Token) : Prop := ∃ pn rsv pid b, x = .patEntry s i pn rsv pid b
def isEvent (s : BitVec 4) (i : Word) (sid : BitVec 16) (x : Token) : Prop :=
  ∃ e, x = .eitEvent s i e ∧ e.serviceId = sid
def isNone (_ : BitVec 4) (_ : Word) (_ : BitVec 16) (_ : Token) : Prop := False
def isUnitBody (s : BitVec 4) (i : Word) (_ : BitVec 16) (x : Token) : Prop := x.isBody s i = true

theorem isNitName.body (a b c x) (h : isNitName a b c x) : isUnitBody a b c x := by
  obtain ⟨_, rfl⟩ := h; simp [isUnitBody, Token.isBody]
theorem isNitService.body (a b c x) (h : isNitService a b c x) : isUnitBody a b c x := by
  obtain ⟨_, _, rfl⟩ := h; simp [isUnitBody, Token.isBody]
theorem isSdtService.body (a b c x) (h : isSdtService a b c x) : isUnitBody a b c x := by
  obtain ⟨_, _, _, _, rfl⟩ := h; simp [isUnitBody, Token.isBody]
theorem isPatEntry.body (a b c x) (h : isPatEntry a b c x) : isUnitBody a b c x := by
  obtain ⟨_, _, _, _, rfl⟩ := h; simp [isUnitBody, Token.isBody]
theorem isEvent.body (a b c x) (h : isEvent a b c x) : isUnitBody a b c x := by
  obtain ⟨_, rfl, _⟩ := h; simp [isUnitBody, Token.isBody]
theorem isNone.any {P : BitVec 4 → Word → BitVec 16 → Token → Prop} (a b c x) (h : isNone a b c x) : P a b c x :=
  h.elim

/-! ### The descriptor actions -/

theorem descNetworkName_grows (w : Work) : w.Grows isNitName (descNetworkName w) :=
  (Work.Grows.refl w).emit ⟨_, rfl⟩

theorem serviceListEntry_grows (r : Reader) (w : Work) : w.Grows isNitService (serviceListEntry r w).2 := by
  rcases e1 : readField 2 r w with ⟨sid, r1, w1⟩
  rcases e2 : readField 1 r1 w1 with ⟨st, r2, w2⟩
  have h : w.Grows isNitService w2 := ((Work.Grows.refl w).field e1).field e2
  simp only [serviceListEntry, e1, e2]
  exact h.emit ⟨_, _, by rw [h.fields.2.1, h.fields.2.2.1]⟩

theorem descServiceList_grows (w : Work) : w.Grows isNitService (descServiceList w) :=
  runRecords_grows serviceListEntry_grows (.refl w) _

theorem descService_grows (w : Work) : w.Grows isSdtService (descService w) := by
  rcases e1 : readField 1 w.body w with ⟨st, r1, w1⟩
  rcases e2 : readField 1 r1 w1 with ⟨pl, r2, w2⟩
  rcases e3 : readSpan pl r2 w2 with ⟨p, r3, w3⟩
  rcases e4 : readField 1 r3 w3 with ⟨nl, r4, w4⟩
  rcases e5 : readSpan nl r4 w4 with ⟨n, r5, w5⟩
  have h : w.Grows isSdtService w5 := (((((Work.Grows.refl w).field e1).field e2).span e3).field e4).span e5
  simp only [descService, e1, e2, e3, e4, e5]
  exact h.emit ⟨_, _, _, _, by rw [h.fields.2.1, h.fields.2.2.1]⟩

theorem descShortEvent_grows (w : Work) : w.Grows isNone (descShortEvent w) := by
  rcases e1 : readField 3 w.body w with ⟨lang, r1, w1⟩
  rcases e2 : readField 1 r1 w1 with ⟨nl, r2, w2⟩
  rcases e3 : readSpan nl r2 w2 with ⟨m, r3, w3⟩
  rcases e4 : readField 1 r3 w3 with ⟨tl, r4, w4⟩
  rcases e5 : readSpan tl r4 w4 with ⟨x, r5, w5⟩
  have h : w.Grows isNone w5 := (((((Work.Grows.refl w).field e1).field e2).span e3).field e4).span e5
  simp only [descShortEvent, e1, e2, e3, e4, e5]
  exact h.withEv _

theorem descExtendedEvent_grows (w : Work) : w.Grows isNone (descExtendedEvent w) := by
  rcases e1 : readField 1 w.body w with ⟨x, r1, w1⟩
  rcases e2 : readField 3 r1 w1 with ⟨l, r2, w2⟩
  rcases e3 : readField 1 r2 w2 with ⟨li, r3, w3⟩
  rcases e4 : readSpan li r3 w3 with ⟨it, r4, w4⟩
  rcases e5 : readField 1 r4 w4 with ⟨tl, r5, w5⟩
  rcases e6 : readSpan tl r5 w5 with ⟨t, r6, w6⟩
  have h : w.Grows isNone w6 :=
    ((((((Work.Grows.refl w).field e1).field e2).field e3).span e4).field e5).span e6
  simp only [descExtendedEvent, e1, e2, e3, e4, e5, e6]
  exact h.withEv _

theorem contentEntry_grows (r : Reader) (w : Work) : w.Grows isNone (contentEntry r w).2 := by
  rcases e1 : readField 1 r w with ⟨x, r1, w1⟩
  rcases e2 : readField 1 r1 w1 with ⟨u, r2, w2⟩
  have h : w.Grows isNone w2 := ((Work.Grows.refl w).field e1).field e2
  simp only [contentEntry, e1, e2]
  exact h.withEv _

theorem descContent_grows (w : Work) : w.Grows isNone (descContent w) :=
  runRecords_grows contentEntry_grows ((Work.Grows.refl w).withEv _) _

theorem fetchDescriptor_grows {P : BitVec 4 → Word → BitVec 16 → Token → Prop} {w u : Work} (h : w.Grows P u)
    (r : Reader) : w.Grows P (fetchDescriptor r u).2 := by
  rcases e1 : readField 1 r u with ⟨tag, r1, w1⟩
  rcases e2 : readField 1 r1 w1 with ⟨len, r2, w2⟩
  rcases e3 : readSpan len r2 w2 with ⟨b, r3, w3⟩
  simp only [fetchDescriptor, e1, e2, e3]
  exact (((h.field e1).field e2).span e3).withBody _ _

/-! ### The descriptor loop, by loop -/

/-- The tokens a descriptor loop can emit. -/
def loopTokens : DescLoop → BitVec 4 → Word → BitVec 16 → Token → Prop
  | .nitNet => isNitName
  | .nitTs => isNitService
  | .sdtSvc => isSdtService
  | .eitEvt => isNone

theorem runDescriptor_grows (loop : DescLoop) (tag : Byte) (w : Work) :
    w.Grows (loopTokens loop) (runDescriptor (decodeDescriptor loop tag) w) := by
  unfold decodeDescriptor
  split
  · exact .refl w
  · cases loop <;> simp only
    · split
      · exact descNetworkName_grows w
      · exact .refl w
    · split
      · exact descServiceList_grows w
      · exact .refl w
    · split
      · exact descService_grows w
      · exact .refl w
    · repeat' split
      · exact descShortEvent_grows w
      · exact descExtendedEvent_grows w
      · exact descContent_grows w
      all_goals exact .refl w

/-- A change of the working values that leaves the descriptor loop, its reader and the current body alone. -/
def Work.SamePlace (w u : Work) : Prop := u.loop = w.loop ∧ u.rd = w.rd ∧ u.body = w.body

theorem Work.SamePlace.field {w u v : Work} (h : w.SamePlace u) {n x : Nat} {r r' : Reader}
    (e : readField n r u = (x, r', v)) : w.SamePlace v := by
  unfold readField at e
  split at e <;> cases e <;> exact h

theorem Work.SamePlace.span {w u v : Work} (h : w.SamePlace u) {n : Nat} {r b r' : Reader}
    (e : readSpan n r u = (b, r', v)) : w.SamePlace v := by
  unfold readSpan at e
  split at e <;> cases e <;> exact h

theorem runRecords_samePlace {h : Nat} {body : Reader → Work → Reader × Work}
    (hb : ∀ r w, Work.SamePlace w (body r w).2) (r : Reader) (w : Work) : w.SamePlace (runRecords h body r w) := by
  unfold runRecords
  have rem : ∀ (r : Reader) (u : Work), u.SamePlace (loopRemainder r u) := by
    intro r u; unfold loopRemainder; split <;> exact ⟨rfl, rfl, rfl⟩
  generalize r.lim - r.cur = fuel
  induction fuel generalizing r w with
  | zero => exact rem r w
  | succ fuel ih =>
    unfold recordLoop
    split
    · obtain ⟨h1, h2, h3⟩ := hb r w
      obtain ⟨k1, k2, k3⟩ := ih (body r w).1 (body r w).2
      exact ⟨k1.trans h1, k2.trans h2, k3.trans h3⟩
    · exact rem r w

theorem descService_samePlace (w : Work) : w.SamePlace (descService w) := by
  rcases e1 : readField 1 w.body w with ⟨st, r1, w1⟩
  rcases e2 : readField 1 r1 w1 with ⟨pl, r2, w2⟩
  rcases e3 : readSpan pl r2 w2 with ⟨p, r3, w3⟩
  rcases e4 : readField 1 r3 w3 with ⟨nl, r4, w4⟩
  rcases e5 : readSpan nl r4 w4 with ⟨n, r5, w5⟩
  have h0 : w.SamePlace w := ⟨rfl, rfl, rfl⟩
  simp only [descService, e1, e2, e3, e4, e5]
  have h := ((((h0.field e1).field e2).span e3).field e4).span e5
  exact ⟨h.1, h.2.1, h.2.2⟩

theorem descShortEvent_samePlace (w : Work) : w.SamePlace (descShortEvent w) := by
  rcases e1 : readField 3 w.body w with ⟨lang, r1, w1⟩
  rcases e2 : readField 1 r1 w1 with ⟨nl, r2, w2⟩
  rcases e3 : readSpan nl r2 w2 with ⟨m, r3, w3⟩
  rcases e4 : readField 1 r3 w3 with ⟨tl, r4, w4⟩
  rcases e5 : readSpan tl r4 w4 with ⟨x, r5, w5⟩
  have h0 : w.SamePlace w := ⟨rfl, rfl, rfl⟩
  simp only [descShortEvent, e1, e2, e3, e4, e5]
  have h := ((((h0.field e1).field e2).span e3).field e4).span e5
  exact ⟨h.1, h.2.1, h.2.2⟩

theorem descExtendedEvent_samePlace (w : Work) : w.SamePlace (descExtendedEvent w) := by
  rcases e1 : readField 1 w.body w with ⟨x, r1, w1⟩
  rcases e2 : readField 3 r1 w1 with ⟨l, r2, w2⟩
  rcases e3 : readField 1 r2 w2 with ⟨li, r3, w3⟩
  rcases e4 : readSpan li r3 w3 with ⟨it, r4, w4⟩
  rcases e5 : readField 1 r4 w4 with ⟨tl, r5, w5⟩
  rcases e6 : readSpan tl r5 w5 with ⟨t, r6, w6⟩
  have h0 : w.SamePlace w := ⟨rfl, rfl, rfl⟩
  simp only [descExtendedEvent, e1, e2, e3, e4, e5, e6]
  have h := (((((h0.field e1).field e2).field e3).span e4).field e5).span e6
  exact ⟨h.1, h.2.1, h.2.2⟩

theorem serviceListEntry_samePlace (r : Reader) (w : Work) : w.SamePlace (serviceListEntry r w).2 := by
  rcases e1 : readField 2 r w with ⟨sid, r1, w1⟩
  rcases e2 : readField 1 r1 w1 with ⟨st, r2, w2⟩
  have h0 : w.SamePlace w := ⟨rfl, rfl, rfl⟩
  simp only [serviceListEntry, e1, e2]
  have h := (h0.field e1).field e2
  exact ⟨h.1, h.2.1, h.2.2⟩

theorem contentEntry_samePlace (r : Reader) (w : Work) : w.SamePlace (contentEntry r w).2 := by
  rcases e1 : readField 1 r w with ⟨x, r1, w1⟩
  rcases e2 : readField 1 r1 w1 with ⟨u, r2, w2⟩
  have h0 : w.SamePlace w := ⟨rfl, rfl, rfl⟩
  simp only [contentEntry, e1, e2]
  have h := (h0.field e1).field e2
  exact ⟨h.1, h.2.1, h.2.2⟩

theorem descContent_samePlace (w : Work) : w.SamePlace (descContent w) := by
  obtain ⟨h1, h2, h3⟩ := runRecords_samePlace (h := 2) contentEntry_samePlace w.body
    { w with ev := { w.ev with hasContent := true, content := [] } }
  exact ⟨h1, h2, h3⟩

/-- No descriptor action changes which loop it stands in, its reader or its body. -/
theorem runDescriptor_samePlace (i : Instr) (w : Work) : w.SamePlace (runDescriptor i w) :=
  match i with
  | .descServiceList => runRecords_samePlace serviceListEntry_samePlace _ w
  | .descService => descService_samePlace w
  | .descShortEvent => descShortEvent_samePlace w
  | .descExtendedEvent => descExtendedEvent_samePlace w
  | .descContent => descContent_samePlace w
  | .nop | .findSync | .parse | .run | .decode | .crc | .reservedCmd67 _ | .reservedCmd8F _ => ⟨rfl, rfl, rfl⟩
  | .tblPat | .tblNitAct | .tblNitOth | .tblSdtAct | .tblSdtOth => ⟨rfl, rfl, rfl⟩
  | .tblEitPfAct | .tblEitPfOth | .tblEitSchAct _ | .tblEitSchOth _ => ⟨rfl, rfl, rfl⟩
  | .descNetworkName | .descSkip50 | .descSkip55 | .descSkip69 | .descSkip59 _ | .descOther _ _ => ⟨rfl, rfl, rfl⟩

/-- What the head of an iteration selects, and in which loop it stands. -/
theorem fetchDescriptor_loop (r : Reader) (w : Work) :
    (fetchDescriptor r w).2.loop = w.loop ∧
      (fetchDescriptor r w).1 = decodeDescriptor w.loop (BitVec.ofNat 8 (readField 1 r w).1) := by
  rcases e1 : readField 1 r w with ⟨tag, r1, w1⟩
  rcases e2 : readField 1 r1 w1 with ⟨len, r2, w2⟩
  rcases e3 : readSpan len r2 w2 with ⟨b, r3, w3⟩
  have h0 : w.SamePlace w := ⟨rfl, rfl, rfl⟩
  have h := ((h0.field e1).field e2).span e3
  simp only [fetchDescriptor, e1, e2, e3, h.1]
  trivial

/-- One iteration of a descriptor loop, in the loop the working values stand in. -/
theorem descriptorStep_grows (r : Reader) (w : Work) :
    w.Grows (loopTokens w.loop) (descriptorStep r w).2 ∧ (descriptorStep r w).2.loop = w.loop := by
  obtain ⟨hl, hd⟩ := fetchDescriptor_loop r w
  refine ⟨(fetchDescriptor_grows (.refl w) r).trans ?_, (runDescriptor_samePlace _ _).1.trans hl⟩
  rw [show (descriptorStep r w).2 = runDescriptor (fetchDescriptor r w).1 (fetchDescriptor r w).2 from rfl, hd]
  exact runDescriptor_grows _ _ _

theorem descLoop_grows {P : BitVec 4 → Word → BitVec 16 → Token → Prop} {w u : Work} (loop : DescLoop)
    (hP : ∀ a b c x, loopTokens loop a b c x → P a b c x) (h : w.Grows P u) (r : Reader) :
    w.Grows P (descLoop loop r u) := by
  refine h.trans ?_
  unfold descLoop runRecords
  generalize r.lim - r.cur = fuel
  have h0 : u.Grows P { u with loop := loop } := (Work.Grows.refl u).withLoop _
  have hl0 : ({ u with loop := loop } : Work).loop = loop := rfl
  generalize ({ u with loop := loop } : Work) = v at h0 hl0
  induction fuel generalizing r v with
  | zero => exact loopRemainder_grows h0 r
  | succ fuel ih =>
    unfold recordLoop
    split
    · have hs := descriptorStep_grows r v
      exact ih _ _ (h0.trans (hs.1.mono (by rw [hl0]; exact hP))) (hs.2.trans hl0)
    · exact loopRemainder_grows h0 r

/-! ### The table bodies -/

theorem patEntry_grows (r : Reader) (w : Work) : w.Grows isPatEntry (patEntry r w).2 := by
  rcases e1 : readField 2 r w with ⟨pn, r1, w1⟩
  rcases e2 : readField 2 r1 w1 with ⟨x, r2, w2⟩
  have h : w.Grows isPatEntry w2 := ((Work.Grows.refl w).field e1).field e2
  simp only [patEntry, e1, e2]
  exact h.emit ⟨_, _, _, _, by rw [h.fields.2.1, h.fields.2.2.1]⟩

theorem patBody_grows (w : Work) : w.Grows isPatEntry (patBody w) := runRecords_grows patEntry_grows (.refl w) _

theorem nitRecord_grows (r : Reader) (w : Work) : w.Grows isNitService (nitRecord r w).2 := by
  rcases e1 : readField 2 r w with ⟨_, r1, w1⟩
  rcases e2 : readField 2 r1 w1 with ⟨_, r2, w2⟩
  rcases e3 : readField 2 r2 w2 with ⟨x, r3, w3⟩
  rcases e4 : readSpan (x % 4096) r3 w3 with ⟨d, r4, w4⟩
  simp only [nitRecord, e1, e2, e3, e4]
  exact descLoop_grows .nitTs (fun _ _ _ _ h => h) (((((Work.Grows.refl w).field e1).field e2).field e3).span e4) d

/-- The NIT's two parts: the network loop, and the transport-stream loop. -/
theorem nitBody_grows (w : Work) : ∃ u, w.Grows isNitName u ∧ u.Grows isNitService (nitBody w) := by
  rcases e1 : readField 2 (bodyReader w) w with ⟨x, r1, w1⟩
  rcases e2 : readSpan (x % 4096) r1 w1 with ⟨net, r2, w2⟩
  rcases e3 : readField 2 r2 (descLoop .nitNet net w2) with ⟨y, r3, w3⟩
  rcases e4 : readSpan (y % 4096) r3 w3 with ⟨ts, r4, w4⟩
  simp only [nitBody, e1, e2, e3, e4]
  refine ⟨descLoop .nitNet net w2, descLoop_grows .nitNet (fun _ _ _ _ h => h)
    (((Work.Grows.refl w).field e1).span e2) net, ?_⟩
  exact runRecords_grows nitRecord_grows (((Work.Grows.refl _).field e3).span e4) ts

theorem sdtRecord_grows (r : Reader) (w : Work) : w.Grows isSdtService (sdtRecord r w).2 := by
  rcases e1 : readField 2 r w with ⟨sid, r1, w1⟩
  rcases e2 : readField 1 r1 w1 with ⟨fb, r2, w2⟩
  rcases e3 : readField 2 r2 w2 with ⟨x, r3, w3⟩
  rcases e4 : readSpan (x % 4096) r3 w3 with ⟨d, r4, w4⟩
  simp only [sdtRecord, e1, e2, e3, e4]
  exact descLoop_grows .sdtSvc (fun _ _ _ _ h => h) ((((((Work.Grows.refl w).field e1).field e2).field e3).span
    e4).withRecord _) d

theorem sdtBody_grows (w : Work) : w.Grows isSdtService (sdtBody w) := by
  rcases e1 : readField 2 (bodyReader w) w with ⟨_, r1, w1⟩
  rcases e2 : readField 1 r1 w1 with ⟨_, r2, w2⟩
  simp only [sdtBody, e1, e2]
  exact runRecords_grows sdtRecord_grows (((Work.Grows.refl w).field e1).field e2) r2

theorem emitEvent_grows {w u : Work} (h : w.Grows isEvent u) (eid st du x : Nat) :
    w.Grows isEvent (emitEvent eid st du x u) := by
  unfold emitEvent
  split
  · exact h.emit ⟨_, by rw [h.fields.2.1, h.fields.2.2.1], h.fields.2.2.2.1⟩
  · exact h

theorem eitRecord_grows (r : Reader) (w : Work) : w.Grows isEvent (eitRecord r w).2 := by
  rcases e1 : readField 2 r w with ⟨eid, r1, w1⟩
  rcases e2 : readField 5 r1 w1 with ⟨st, r2, w2⟩
  rcases e3 : readField 3 r2 w2 with ⟨du, r3, w3⟩
  rcases e4 : readField 2 r3 w3 with ⟨x, r4, w4⟩
  rcases e5 : readSpan (x % 4096) r4 w4 with ⟨d, r5, w5⟩
  simp only [eitRecord, e1, e2, e3, e4, e5]
  exact emitEvent_grows (descLoop_grows .eitEvt isNone.any (((((((Work.Grows.refl w).field e1).field e2).field
    e3).field e4).span e5).withEv _) d) _ _ _ _

/-- The EIT's two parts: its header token, and its events. -/
theorem eitBody_grows (w : Work) : ∃ u tsid onid sl lt, w.Grows isNone u ∧
    (u.emit (.eitHdr w.src w.index w.tidExt tsid onid sl lt)).Grows isEvent (eitBody w) := by
  rcases e1 : readField 2 (bodyReader w) w with ⟨tsid, r1, w1⟩
  rcases e2 : readField 2 r1 w1 with ⟨onid, r2, w2⟩
  rcases e3 : readField 1 r2 w2 with ⟨sl, r3, w3⟩
  rcases e4 : readField 1 r3 w3 with ⟨lt, r4, w4⟩
  have h : w.Grows isNone w4 := ((((Work.Grows.refl w).field e1).field e2).field e3).field e4
  obtain ⟨-, h2, h3, h4, -⟩ := h.fields
  simp only [eitBody, e1, e2, e3, e4]
  refine ⟨w4, BitVec.ofNat 16 tsid, BitVec.ofNat 16 onid, BitVec.ofNat 8 sl, BitVec.ofNat 8 lt, h, ?_⟩
  rw [h2, h3, h4]
  exact runRecords_grows eitRecord_grows (.refl _) _

theorem nitBody_body (w : Work) : w.Grows isUnitBody (nitBody w) := by
  obtain ⟨u, h, k⟩ := nitBody_grows w
  exact (h.mono isNitName.body).trans (k.mono isNitService.body)

theorem eitBody_body (w : Work) : w.Grows isUnitBody (eitBody w) := by
  obtain ⟨u, tsid, onid, sl, lt, h, k⟩ := eitBody_grows w
  exact ((h.mono isNone.any).emit (by simp [isUnitBody, Token.isBody])).trans (k.mono isEvent.body)

/-! ### The rows -/

/-- Everything a table row can do. -/
theorem runTable_grows (i : Instr) (w : Work) : w.Grows isUnitBody (runTable i w) :=
  match i with
  | .tblPat => (patBody_grows w).mono isPatEntry.body
  | .tblNitAct | .tblNitOth => nitBody_body w
  | .tblSdtAct | .tblSdtOth => (sdtBody_grows w).mono isSdtService.body
  | .tblEitPfAct | .tblEitPfOth | .tblEitSchAct _ | .tblEitSchOth _ => eitBody_body w
  | .nop | .findSync | .parse | .run | .decode | .crc | .reservedCmd67 _ | .reservedCmd8F _ => .refl w
  | .descNetworkName | .descServiceList | .descService | .descShortEvent | .descExtendedEvent | .descContent => .refl w
  | .descSkip50 | .descSkip55 | .descSkip69 | .descSkip59 _ | .descOther _ _ => .refl w

/-- Everything a descriptor row can do. -/
theorem runDescriptor_body (i : Instr) (w : Work) : w.Grows isUnitBody (runDescriptor i w) :=
  match i with
  | .descNetworkName => (descNetworkName_grows w).mono isNitName.body
  | .descServiceList => (descServiceList_grows w).mono isNitService.body
  | .descService => (descService_grows w).mono isSdtService.body
  | .descShortEvent => (descShortEvent_grows w).mono isNone.any
  | .descExtendedEvent => (descExtendedEvent_grows w).mono isNone.any
  | .descContent => (descContent_grows w).mono isNone.any
  | .nop | .findSync | .parse | .run | .decode | .crc | .reservedCmd67 _ | .reservedCmd8F _ => .refl w
  | .tblPat | .tblNitAct | .tblNitOth | .tblSdtAct | .tblSdtOth => .refl w
  | .tblEitPfAct | .tblEitPfOth | .tblEitSchAct _ | .tblEitSchOth _ => .refl w
  | .descSkip50 | .descSkip55 | .descSkip69 | .descSkip59 _ | .descOther _ _ => .refl w

/-- A table or descriptor row's `exec` is its action on the decoder, and nothing else. -/
theorem exec_decoderRow {i : Instr} (h : isCommand i = false) (s : State) :
    exec i s = .next { s with decoder := runDescriptor i (runTable i s.decoder) } := by
  cases i <;> first
    | exact Bool.noConfusion (h : true = false)
    | rfl

theorem exec_table {cls : TableClass} {tid : Byte} {i : Instr} (h : decodeTable cls tid = .ok i) (s : State) :
    exec i s = .next { s with decoder := runTable i s.decoder } := by
  unfold decodeTable at h
  cases cls <;> simp only at h <;> (repeat' split at h) <;> cases h <;> rfl

theorem exec_descriptor (loop : DescLoop) (tag : Byte) (s : State) :
    exec (decodeDescriptor loop tag) s =
      .next { s with decoder := runDescriptor (decodeDescriptor loop tag) s.decoder } := by
  unfold decodeDescriptor
  split
  · rfl
  · cases loop <;> simp only <;> (repeat' split) <;> rfl

end Sys2Proof.Machine
end

