-- ==== Sys2Proof/Laws/Section.lean ====
section
/-! SUPPORT. The decode of one section (42_section_header.md R310): its three outcomes, and what its body adds. -/

namespace Sys2Proof.Machine

theorem sectionError_kind {cls : TableClass} {S : Bytes} {e : ErrCode} (h : sectionError cls S = some e) :
    e = .truncatedSection ∨ e = .unexpectedTableId ∨ e = .badSectionLength := by
  unfold sectionError at h
  simp only at h
  repeat' split at h
  all_goals first
    | (injection h with h; subst h; simp)
    | cases h

/-- A section that passes the seven checks (R310). -/
theorem sectionError_none {cls : TableClass} {S : Bytes} (ha : accepts cls (byteAt S (tableStart S)) = true)
    (hm : 9 ≤ sectionLength S) (hx : sectionLength S ≤ 4093) (hl : tableStart S + 3 + sectionLength S ≤ S.length) :
    sectionError cls S = none := by
  unfold sectionError
  simp only [sectionLengthMax]
  rw [if_neg (by omega), if_neg (by omega), if_neg (by simp [ha]), if_neg (by omega), if_neg (by omega),
    if_neg (by omega), if_neg (by omega)]

theorem decodeSection_error {cls : TableClass} {S : Bytes} {e : ErrCode} (src : BitVec 4) (index : Word)
    (h : sectionError cls S = some e) :
    decodeSection S cls src index = failSection e (Work.start S cls src index) := by
  simp [decodeSection, h]

theorem decodeSection_empty {cls : TableClass} {S : Bytes} (src : BitVec 4) (index : Word)
    (h : sectionError cls S = none) (hl : sectionLength S = 0) :
    decodeSection S cls src index =
      endSection ((Work.start S cls src index).emit (.secHdr src index (emptyHeader S))) := by
  simp [decodeSection, h, hl]

theorem decodeSection_body {cls : TableClass} {S : Bytes} (src : BitVec 4) (index : Word)
    (h : sectionError cls S = none) (hl : sectionLength S ≠ 0) :
    decodeSection S cls src index = endSection (dispatchBody (atBody (Work.start S cls src index))) := by
  simp [decodeSection, h, hl]

/-- The working values at the body dispatch, field by field. -/
theorem atBody_start (S : Bytes) (cls : TableClass) (src : BitVec 4) (index : Word) :
    (atBody (Work.start S cls src index)).out = [.secHdr src index (fullHeader S)] ∧
    (atBody (Work.start S cls src index)).notes =
      (if (fullHeader S).crcStatus = 2 then [.crcMismatch] else []) ∧
    (atBody (Work.start S cls src index)).ovf = false ∧
    (atBody (Work.start S cls src index)).sec = S ∧
    (atBody (Work.start S cls src index)).src = src ∧
    (atBody (Work.start S cls src index)).index = index ∧
    (atBody (Work.start S cls src index)).cls = cls ∧
    (atBody (Work.start S cls src index)).tstart = tableStart S ∧
    (atBody (Work.start S cls src index)).lim = crcPos S ∧
    (atBody (Work.start S cls src index)).tidExt = BitVec.ofNat 16 (be S (tableStart S + 3) 2) ∧
    (atBody (Work.start S cls src index)).crcCalc = calcCrc S ∧
    (atBody (Work.start S cls src index)).crcStatus = checkedStatus S := by
  unfold atBody
  by_cases h : calcCrc S = storedCrc S <;>
    simp [h, Work.start, fullHeader, checkedStatus, Work.emit, Work.note]

theorem dispatchBody_grows (w : Work) : w.Grows isUnitBody (dispatchBody w) := by
  unfold dispatchBody
  split
  · exact runTable_grows _ _
  · exact .refl w

theorem checkedStatus_ne_zero (S : Bytes) : checkedStatus S ≠ 0 := by
  unfold checkedStatus
  split <;> decide

/-- What a decode that reaches the body adds to its header: body tokens, then SEC_END. -/
theorem decodeSection_body_adds {cls : TableClass} {S : Bytes} (src : BitVec 4) (index : Word)
    (h : sectionError cls S = none) (hl : sectionLength S ≠ 0) :
    ∃ body n, (∀ x ∈ body, Token.isBody src index x = true) ∧
      (decodeSection S cls src index).out =
        .secHdr src index (fullHeader S) :: body ++ [.secEnd src index 0 (checkedStatus S) (n != 0)] ∧
      (decodeSection S cls src index).notes =
        (if (fullHeader S).crcStatus = 2 then [.crcMismatch] else []) ++ List.replicate n .descriptorOverflow ∧
      (decodeSection S cls src index).crcCalc = calcCrc S ∧
      (decodeSection S cls src index).crcStatus = checkedStatus S := by
  rw [decodeSection_body src index h hl]
  obtain ⟨h1, h2, h3, -, h5, h6, -, -, -, -, h11, h12⟩ := atBody_start S cls src index
  obtain ⟨ts, n, ⟨k1, k2, k3, -, k5, k6, -, -, -, -, k11, k12, -⟩, hb⟩ :=
    dispatchBody_grows (atBody (Work.start S cls src index))
  refine ⟨ts, n, fun x hx => ?_, ?_, ?_, ?_, ?_⟩
  · simpa [isUnitBody, h5, h6] using hb x hx
  · simp [endSection, k1, h1, k5, h5, k6, h6, k12, h12, k3, h3]
  · simp [endSection, k2, h2]
  · simp [endSection, k11, h11]
  · simp [endSection, k12, h12]

/-- No decode notes UNSUPPORTED_ENCODING (R601: it is never raised). -/
theorem decodeSection_notes (S : Bytes) (cls : TableClass) (src : BitVec 4) (index : Word) :
    .unsupportedEncoding ∉ (decodeSection S cls src index).notes := by
  cases h : sectionError cls S with
  | some e =>
    rw [decodeSection_error src index h]
    rcases sectionError_kind h with rfl | rfl | rfl <;> simp [failSection, Work.start]
  | none =>
    by_cases hl : sectionLength S = 0
    · rw [decodeSection_empty src index h hl]
      simp [endSection, Work.start]
    · obtain ⟨body, n, -, -, hn, -⟩ := decodeSection_body_adds src index h hl
      rw [hn]
      simp only [List.mem_append, List.mem_replicate, not_or]
      refine ⟨?_, by simp⟩
      split <;> simp

/-- A decode ends with exactly one SEC_END of its unit. -/
theorem decodeSection_closes (S : Bytes) (cls : TableClass) (src s : BitVec 4) (index : Word) :
    closedUnits s (decodeSection S cls src index).out = if src = s then [index] else [] := by
  have hbody : ∀ body : List Token, (∀ x ∈ body, Token.isBody src index x = true) → closedUnits s body = [] := by
    intro body hb
    rw [closedUnits, List.filterMap_eq_nil_iff]
    intro x hx
    have := hb x hx
    cases x <;> first | rfl | (simp [Token.isBody] at this)
  cases h : sectionError cls S with
  | some e =>
    rw [decodeSection_error src index h]
    by_cases hs : src = s <;> simp [failSection, Work.start, closedUnits, hs]
  | none =>
    by_cases hl : sectionLength S = 0
    · rw [decodeSection_empty src index h hl]
      by_cases hs : src = s <;> simp [endSection, Work.start, closedUnits, hs]
    · obtain ⟨body, n, hb, ho, -⟩ := decodeSection_body_adds src index h hl
      have hb' := hbody body hb
      simp only [closedUnits] at hb' ⊢
      rw [ho]
      by_cases hs : src = s <;> simp [hb', hs]

/-- Every token of one decode carries its `src` (R521). -/
theorem decodeSection_src (S : Bytes) (cls : TableClass) (src : BitVec 4) (index : Word) :
    ∀ t ∈ (decodeSection S cls src index).out, t.src = src := by
  intro t ht
  cases h : sectionError cls S with
  | some e =>
      rw [decodeSection_error src index h] at ht
      simp only [failSection, Work.emit, Work.note, Work.start, List.nil_append, List.mem_cons, List.not_mem_nil, or_false] at ht
      subst ht; rfl
  | none =>
    by_cases hl : sectionLength S = 0
    · rw [decodeSection_empty src index h hl] at ht
      replace ht : t = .secHdr src index (emptyHeader S) ∨ t = .secEnd src index 0 0 false := by simpa [endSection, Work.emit, Work.start] using ht
      rcases ht with rfl | rfl <;> rfl
    · obtain ⟨body, n, hb, ho, -⟩ := decodeSection_body_adds src index h hl
      rw [ho] at ht
      simp only [List.mem_append, List.mem_cons, List.not_mem_nil, or_false] at ht
      rcases ht with (rfl | ht) | rfl
      · rfl
      · have := hb t ht
        cases t <;> simp [Token.isBody] at this <;> exact this.1
      · rfl

end Sys2Proof.Machine
end

