-- ==== Sys2Proof/Laws/Reassembler.lean ====
section
/-! SUPPORT. The reassembler (41_reassembler.md): what a context becomes depends on its configuration, its own state and
the packets only, so feeding the contexts is a map over them. -/

namespace Sys2Proof.Machine

/-! ### The state of a context -/

/-- A context after `Append` (R255). -/
def Context.append (secbuf : Nat) (p : Packet) (x : Context) : Context :=
  if p.payload.length > secbuf - x.buf.length then
    { x with buf := x.buf ++ p.payload.take (secbuf - x.buf.length), trunc := true }
  else { x with buf := x.buf ++ p.payload }

/-- A context after `Open` (R254). -/
def Context.opened (secbuf : Nat) (p : Packet) (x : Context) : Context :=
  Context.append secbuf p { x with k := BitVec.ofNat 32 x.closed, buf := [], trunc := false, state := .collect }

/-- A context after `Step` (R251). -/
def Context.after (secbuf : Nat) (cfg : CtxCfg) (p : Packet) (x : Context) : Context :=
  if p.pid ≠ cfg.pid then x
  else
    match x.state with
    | .done => x
    | .idle => if p.pusi then x.opened secbuf p else x
    | .collect =>
      if p.pusi then
        if cfg.all then Context.opened secbuf p { x with closed := x.closed + 1 }
        else { x with closed := x.closed + 1, state := .done }
      else x.append secbuf p

theorem appendPacket_fst (secbuf c : Nat) (cfg : CtxCfg) (p : Packet) (x : Context) (a : Acc) :
    (appendPacket secbuf c cfg p x a).1 = x.append secbuf p := by
  simp only [appendPacket, Context.append]

theorem closeUnit_fst (c : Nat) (cfg : CtxCfg) (x : Context) (a : Acc) :
    (closeUnit c cfg x a).1 = { x with closed := x.closed + 1 } := rfl

theorem contextStep_fst (secbuf c : Nat) (cfg : CtxCfg) (p : Packet) (x : Context) (a : Acc) :
    (contextStep secbuf c cfg p x a).1 = x.after secbuf cfg p := by
  unfold contextStep Context.after
  split
  · rfl
  · cases x.state <;> simp only
    · split
      · exact appendPacket_fst ..
      · rfl
    · split
      · split
        · exact appendPacket_fst ..
        · rfl
      · exact appendPacket_fst ..

/-- A slot after one retained packet: a disabled context sees nothing (R250). -/
def CtxSlot.after (secbuf : Nat) (p : Packet) (x : CtxSlot) : CtxSlot :=
  { x with ctx := if x.cfg.en then x.ctx.after secbuf x.cfg p else x.ctx }

theorem feedPacket_fst (secbuf : Nat) (p : Packet) (c : Nat) (xs : List CtxSlot) (a : Acc) :
    (feedPacket secbuf p c xs a).1 = xs.map (CtxSlot.after secbuf p) := by
  induction xs generalizing c a with
  | nil => rfl
  | cons x xs ih =>
    unfold feedPacket
    cases hx : x.cfg.en <;> simp [ih, CtxSlot.after, hx, contextStep_fst]

/-- A slot after a list of framer events. -/
def CtxSlot.run (secbuf : Nat) : List FrameEvent → CtxSlot → CtxSlot
  | [], x => x
  | .lost :: es, x => CtxSlot.run secbuf es x
  | .pkt p :: es, x => CtxSlot.run secbuf es (x.after secbuf p)

theorem feedEvents_fst (secbuf : Nat) (es : List FrameEvent) (xs : List CtxSlot) (a : Acc) :
    (feedEvents secbuf es xs a).1 = xs.map (CtxSlot.run secbuf es) := by
  induction es generalizing xs a with
  | nil => simp [feedEvents, CtxSlot.run]
  | cons e es ih =>
    cases e with
    | lost => simp [feedEvents, ih, CtxSlot.run]
    | pkt p => simp [feedEvents, ih, feedPacket_fst, CtxSlot.run]

/-- A slot after the end of input (R257). -/
def CtxSlot.finish (x : CtxSlot) : CtxSlot :=
  { x with ctx := if x.cfg.en ∧ x.ctx.state = .collect then { x.ctx with closed := x.ctx.closed + 1 } else x.ctx }

theorem closeAll_fst (c : Nat) (xs : List CtxSlot) (a : Acc) : (closeAll c xs a).1 = xs.map CtxSlot.finish := by
  induction xs generalizing c a with
  | nil => rfl
  | cons x xs ih =>
    unfold closeAll
    by_cases hx : x.cfg.en ∧ x.ctx.state = .collect
    · simp only [hx, and_self, if_true, ih, CtxSlot.finish, List.map_cons, closeUnit_fst]
    · simp only [hx, if_false, ih, CtxSlot.finish, List.map_cons]

/-! ### What stays of a slot -/

theorem CtxSlot.after_keeps (secbuf : Nat) (p : Packet) (x : CtxSlot) :
    (x.after secbuf p).cfg = x.cfg ∧ (x.after secbuf p).secs = x.secs ∧ (x.after secbuf p).last = x.last :=
  ⟨rfl, rfl, rfl⟩

theorem CtxSlot.run_keeps (secbuf : Nat) (es : List FrameEvent) (x : CtxSlot) :
    (x.run secbuf es).cfg = x.cfg ∧ (x.run secbuf es).secs = x.secs ∧ (x.run secbuf es).last = x.last := by
  induction es generalizing x with
  | nil => exact ⟨rfl, rfl, rfl⟩
  | cons e es ih =>
    cases e with
    | lost => exact ih x
    | pkt p => exact ih (x.after secbuf p)

/-- A property of a context that every step keeps holds after any events. -/
theorem CtxSlot.run_induct {secbuf : Nat} {cfg : CtxCfg} {P : Context → Prop}
    (step : ∀ p x, P x → P (x.after secbuf cfg p)) (es : List FrameEvent) (x : CtxSlot) (hc : x.cfg = cfg)
    (h : P x.ctx) : P (x.run secbuf es).ctx := by
  induction es generalizing x with
  | nil => exact h
  | cons e es ih =>
    cases e with
    | lost => exact ih x hc h
    | pkt p =>
      refine ih _ hc ?_
      unfold CtxSlot.after
      cases x.cfg.en
      · exact h
      · simpa [hc] using step p x.ctx h

theorem CtxSlot.run_disabled {secbuf : Nat} (es : List FrameEvent) {x : CtxSlot} (h : x.cfg.en = false) :
    x.run secbuf es = x := by
  induction es with
  | nil => rfl
  | cons e es ih =>
    cases e with
    | lost => exact ih
    | pkt p => simpa [CtxSlot.run, CtxSlot.after, h] using ih

theorem Context.append_fits {secbuf : Nat} (p : Packet) {x : Context} (h : x.buf.length ≤ secbuf) :
    (x.append secbuf p).buf.length ≤ secbuf := by
  unfold Context.append
  split <;> simp <;> omega

theorem Context.after_fits {secbuf : Nat} (cfg : CtxCfg) (p : Packet) {x : Context} (h : x.buf.length ≤ secbuf) :
    (x.after secbuf cfg p).buf.length ≤ secbuf := by
  unfold Context.after
  repeat' split
  all_goals first
    | exact h
    | exact Context.append_fits p (by simp)
    | exact Context.append_fits p h

/-! ### The tokens and notes only grow -/

/-- Tokens and notes, then more of them. -/
def Acc.append (a b : Acc) : Acc := ⟨a.out ++ b.out, a.notes ++ b.notes⟩

theorem Acc.append_nil (a : Acc) : a.append ⟨[], []⟩ = a := by simp [Acc.append]

/-- What came before does not matter to what an operation of a context adds: it can be taken out in front. -/
theorem appendPacket_acc (secbuf c : Nat) (cfg : CtxCfg) (p : Packet) (x : Context) (a b : Acc) :
    (appendPacket secbuf c cfg p x (a.append b)).2 = a.append (appendPacket secbuf c cfg p x b).2 := by
  simp only [appendPacket]
  repeat' split
  all_goals simp [Acc.append, Acc.emit, Acc.note]

theorem closeUnit_acc (c : Nat) (cfg : CtxCfg) (x : Context) (a b : Acc) :
    (closeUnit c cfg x (a.append b)).2 = a.append (closeUnit c cfg x b).2 := by
  simp only [closeUnit]
  repeat' split
  all_goals simp [Acc.append, Acc.emit, Acc.addWork]

theorem contextStep_acc (secbuf c : Nat) (cfg : CtxCfg) (p : Packet) (x : Context) (a b : Acc) :
    (contextStep secbuf c cfg p x (a.append b)).2 = a.append (contextStep secbuf c cfg p x b).2 := by
  unfold contextStep openUnit
  split
  · rfl
  · cases x.state <;> simp only
    · split
      · exact appendPacket_acc ..
      · rfl
    · split
      · rw [closeUnit_acc]
        split
        · exact appendPacket_acc ..
        · rfl
      · exact appendPacket_acc ..

/-- `b` is `a` with tokens of the source `src` added. -/
def OwnTokens (src : BitVec 4) (a b : Acc) : Prop := ∃ ts, b.out = a.out ++ ts ∧ ∀ t ∈ ts, t.src = src

theorem OwnTokens.refl (s : BitVec 4) (a : Acc) : OwnTokens s a a := ⟨[], by simp, by simp⟩

theorem OwnTokens.trans {s : BitVec 4} {a b c : Acc} : OwnTokens s a b → OwnTokens s b c → OwnTokens s a c := by
  rintro ⟨u, h1, h2⟩ ⟨v, h3, h4⟩
  refine ⟨u ++ v, by rw [h3, h1, List.append_assoc], fun t ht => ?_⟩
  rcases List.mem_append.1 ht with h | h
  exacts [h2 t h, h4 t h]

theorem OwnTokens.emit {s : BitVec 4} {a b : Acc} {t : Token} (h : OwnTokens s a b) (ht : t.src = s) : OwnTokens s a (b.emit t) :=
  h.trans ⟨[t], rfl, by simpa using ht⟩

/-- Every token a context adds has the context's index as its `src` (R521). -/
theorem appendPacket_own (secbuf c : Nat) (cfg : CtxCfg) (p : Packet) (x : Context) (a : Acc) :
    OwnTokens (BitVec.ofNat 4 c) a (appendPacket secbuf c cfg p x a).2 := by
  simp only [appendPacket]
  repeat' split
  all_goals first
    | exact .refl _ _
    | exact (OwnTokens.refl _ _).emit rfl

theorem closeUnit_own (c : Nat) (cfg : CtxCfg) (x : Context) (a : Acc) :
    OwnTokens (BitVec.ofNat 4 c) a (closeUnit c cfg x a).2 := by
  have hd : ∀ b, OwnTokens (BitVec.ofNat 4 c) b (b.addWork (decodeSection x.buf cfg.cls (BitVec.ofNat 4 c) x.k)) :=
    fun b => ⟨_, rfl, decodeSection_src x.buf cfg.cls _ x.k⟩
  simp only [closeUnit]
  repeat' split
  all_goals first
    | exact .refl _ _
    | exact (OwnTokens.refl _ _).emit rfl
    | exact OwnTokens.trans (OwnTokens.emit (.refl _ a) rfl) (hd _)
    | exact hd a

theorem contextStep_own (secbuf c : Nat) (cfg : CtxCfg) (p : Packet) (x : Context) (a : Acc) :
    OwnTokens (BitVec.ofNat 4 c) a (contextStep secbuf c cfg p x a).2 := by
  unfold contextStep openUnit
  split
  · exact .refl _ _
  · cases x.state <;> simp only
    · split
      · exact appendPacket_own ..
      · exact .refl _ _
    · split
      · split
        · exact (closeUnit_own ..).trans (appendPacket_own ..)
        · exact closeUnit_own ..
      · exact appendPacket_own ..
    · exact .refl _ _

theorem tokensOf_append (s : BitVec 4) (a b : List Token) : tokensOf s (a ++ b) = tokensOf s a ++ tokensOf s b := by simp [tokensOf]

/-- The tokens of one source are not touched by an operation of another. -/
theorem OwnTokens.others {s s' : BitVec 4} {a b : Acc} (h : OwnTokens s' a b) (hs : s' ≠ s) : tokensOf s b.out = tokensOf s a.out := by
  obtain ⟨ts, h1, h2⟩ := h
  rw [h1, tokensOf_append]
  have : tokensOf s ts = [] := by
    simp only [tokensOf, List.filter_eq_nil_iff]
    intro t ht; rw [h2 t ht]; simpa using hs
  rw [this, List.append_nil]

/-! ### The notes -/

theorem appendPacket_notes {secbuf c : Nat} {cfg : CtxCfg} {p : Packet} {x : Context} {a : Acc}
    (h : .unsupportedEncoding ∉ a.notes) : .unsupportedEncoding ∉ (appendPacket secbuf c cfg p x a).2.notes := by
  simp only [appendPacket]
  repeat' split
  all_goals simpa using h

theorem closeUnit_notes {c : Nat} {cfg : CtxCfg} {x : Context} {a : Acc} (h : .unsupportedEncoding ∉ a.notes) :
    .unsupportedEncoding ∉ (closeUnit c cfg x a).2.notes := by
  have hd := decodeSection_notes x.buf cfg.cls (BitVec.ofNat 4 c) x.k
  simp only [closeUnit]
  repeat' split
  all_goals simp [h, hd]

theorem contextStep_notes {secbuf c : Nat} {cfg : CtxCfg} {p : Packet} {x : Context} {a : Acc}
    (h : .unsupportedEncoding ∉ a.notes) : .unsupportedEncoding ∉ (contextStep secbuf c cfg p x a).2.notes := by
  unfold contextStep openUnit
  split
  · exact h
  · cases x.state <;> simp only
    · split
      · exact appendPacket_notes h
      · exact h
    · split
      · split
        · exact appendPacket_notes (closeUnit_notes h)
        · exact closeUnit_notes h
      · exact appendPacket_notes h
    · exact h

theorem feedPacket_notes {secbuf : Nat} {p : Packet} {c : Nat} {xs : List CtxSlot} {a : Acc}
    (h : .unsupportedEncoding ∉ a.notes) : .unsupportedEncoding ∉ (feedPacket secbuf p c xs a).2.notes := by
  induction xs generalizing c a with
  | nil => exact h
  | cons x xs ih =>
    unfold feedPacket
    cases x.cfg.en
    · exact ih h
    · exact ih (contextStep_notes h)

theorem feedEvents_notes {secbuf : Nat} {es : List FrameEvent} {xs : List CtxSlot} {a : Acc}
    (h : .unsupportedEncoding ∉ a.notes) : .unsupportedEncoding ∉ (feedEvents secbuf es xs a).2.notes := by
  induction es generalizing xs a with
  | nil => exact h
  | cons e es ih =>
    cases e with
    | lost => exact ih (by simpa using h)
    | pkt p => exact ih (feedPacket_notes h)

theorem closeAll_notes {c : Nat} {xs : List CtxSlot} {a : Acc} (h : .unsupportedEncoding ∉ a.notes) :
    .unsupportedEncoding ∉ (closeAll c xs a).2.notes := by
  induction xs generalizing c a with
  | nil => exact h
  | cons x xs ih =>
    unfold closeAll
    by_cases hx : x.cfg.en ∧ x.ctx.state = .collect
    · simp only [hx, and_self, if_true]
      exact ih (closeUnit_notes h)
    · simp only [hx, if_false]
      exact ih h

end Sys2Proof.Machine
end

