-- ==== Sys2Proof/Laws/Step.lean ====
section
/-! SUPPORT. The command life cycle (10_state.md R61), and everything a step can do: the inversions later proofs cite in
place of unfolding `step`. -/

namespace Sys2Proof.Machine

/-! ### The commands -/

/-- What RUN, like every command, keeps of the context slots: CTX_CFG, CTX_SECS and CTX_STATE. -/
def CtxSlot.regs (x : CtxSlot) : CtxCfg × Word × CtxPhase := (x.cfg, x.secs, x.last)

/-- What every command's `Exec` guarantees about its result. -/
structure ExecResult.Sound (s : State) (r : ExecResult) : Prop where
  regs : r.ctxs.map CtxSlot.regs = s.ctxs.map CtxSlot.regs
  notes : .unsupportedEncoding ∉ r.notes
  fits : (∀ x ∈ s.ctxs, x.ctx.buf.length ≤ s.inst.secbufSize) → ∀ x ∈ r.ctxs, x.ctx.buf.length ≤ s.inst.secbufSize

theorem syncNotes_notes (q : Option Nat) : .unsupportedEncoding ∉ syncNotes q := by cases q <;> simp [syncNotes]

theorem parseEvents_notes {es : List FrameEvent} {a : Acc} (h : .unsupportedEncoding ∉ a.notes) :
    .unsupportedEncoding ∉ (parseEvents es a).notes := by
  induction es generalizing a with
  | nil => exact h
  | cons e es ih => cases e <;> exact ih (by simpa using h)

theorem badRegion_sound (s : State) : (badRegion s).Sound s := ⟨rfl, by simp [badRegion], fun h => h⟩

theorem checkRegion_sound {r : State → ExecResult} (h : ∀ s, (r s).Sound s) (s : State) : (checkRegion r s).Sound s := by
  unfold checkRegion
  split
  · exact h s
  · exact badRegion_sound s

/-- The contexts as a RUN leaves them. -/
theorem runResult_ctxs (s : State) : (runResult s).ctxs =
    (startContexts s.ctxs).map fun x => (x.run s.inst.secbufSize s.frame.sliced.evs).finish := by
  simp [runResult, closeAll_fst, feedEvents_fst, Function.comp_def]

theorem runResult_sound (s : State) : (runResult s).Sound s := by
  refine ⟨?_, ?_, fun _ x hx => ?_⟩
  · rw [runResult_ctxs, startContexts, List.map_map, List.map_map]
    refine List.map_congr_left fun x _ => ?_
    have h := CtxSlot.run_keeps s.inst.secbufSize s.frame.sliced.evs { x with ctx := Context.initial }
    simp only [Function.comp_apply, CtxSlot.regs, CtxSlot.finish, h.1, h.2.1, h.2.2]
  · exact closeAll_notes (feedEvents_notes (syncNotes_notes _))
  · rw [runResult_ctxs, startContexts, List.map_map, List.mem_map] at hx
    obtain ⟨y, -, rfl⟩ := hx
    have h := CtxSlot.run_induct (P := fun c => c.buf.length ≤ s.inst.secbufSize)
      (fun p c hc => Context.after_fits y.cfg p hc) s.frame.sliced.evs { y with ctx := Context.initial } rfl
      (by simp [Context.initial])
    simp only [Function.comp_apply, CtxSlot.finish]
    split <;> exact h

theorem decodeResult_sound (s : State) : (decodeResult s).Sound s := by
  unfold decodeResult
  split
  · exact ⟨rfl, by simp, fun h => h⟩
  · exact ⟨rfl, fun hm => decodeSection_notes _ _ _ _ hm, fun h => h⟩

/-- Every command row is an accept step (R61) of its OP with a sound result. -/
theorem exec_command {i : Instr} (h : isCommand i = true) :
    ∃ op r, (∀ s, exec i s = acceptCommand op r s) ∧ op.setWidth 32 = (encode i).bits ∧
      ∀ s, (r s).Sound s := by
  have plain : ∀ {o n q} (s : State), .unsupportedEncoding ∉ n → ExecResult.Sound s ⟨o, n, q, s.ctxs⟩ :=
    fun s hn => ⟨rfl, hn, fun h => h⟩
  cases i with
  | nop => exact ⟨_, _, fun _ => rfl, rfl, fun s => plain s (by simp)⟩
  | findSync => exact ⟨_, _, fun _ => rfl, rfl, checkRegion_sound fun s => plain s (syncNotes_notes _)⟩
  | parse =>
    exact ⟨_, _, fun _ => rfl, rfl, checkRegion_sound fun s => plain s (parseEvents_notes (syncNotes_notes _))⟩
  | run => exact ⟨_, _, fun _ => rfl, rfl, checkRegion_sound runResult_sound⟩
  | decode => exact ⟨_, _, fun _ => rfl, rfl, checkRegion_sound decodeResult_sound⟩
  | crc => exact ⟨_, _, fun _ => rfl, rfl, checkRegion_sound fun s => plain s (by simp)⟩
  | reservedCmd67 low => exact ⟨_, _, fun _ => rfl, rfl, fun s => plain s (by simp)⟩
  | reservedCmd8F low => exact ⟨_, _, fun _ => rfl, rfl, fun s => plain s (by simp)⟩
  | _ => exact Bool.noConfusion (h : false = true)

theorem acceptCommand_idle (op : BitVec 4) (r : State → ExecResult) {s : State} (h : s.phase = .idle) :
    acceptCommand op r s = .next (startCommand op (r s) s) := by simp [acceptCommand, h]

theorem acceptCommand_busy (op : BitVec 4) (r : State → ExecResult) {s : State} (h : s.phase = .busy) :
    acceptCommand op r s = .next (dropWrite s) := by simp [acceptCommand, h]

theorem decodeCommand_isCommand (v : Word) : isCommand (decodeCommand v) = true := by
  unfold decodeCommand
  split <;> rfl

/-- The two outcomes of a command. -/
theorem exec_command_cases {i : Instr} {s t : State} (h : isCommand i = true) (he : exec i s = .next t) :
    (s.phase = .idle ∧ ∃ op r, t = startCommand op r s ∧ op.setWidth 32 = (encode i).bits ∧ r.Sound s) ∨
      (s.phase = .busy ∧ t = dropWrite s) := by
  obtain ⟨op, r, hx, hop, hr⟩ := exec_command h
  rw [hx] at he
  cases hp : s.phase with
  | idle =>
    rw [acceptCommand_idle op r hp] at he
    injection he with he
    exact .inl ⟨rfl, op, r s, he.symm, hop, hr s⟩
  | busy =>
    rw [acceptCommand_busy op r hp] at he
    injection he with he
    exact .inr ⟨rfl, he.symm⟩

/-! ### The engine -/

theorem engineStep_idle {s : State} (h : s.phase = .idle) : engineStep s = s := by simp [engineStep, h]

theorem engineStep_complete {s : State} (h : s.phase = .busy) (hp : s.pend = []) :
    engineStep s = completeCommand s := by simp [engineStep, h, hp]

theorem engineStep_push {s : State} {t : Token} {ts : List Token} (h : s.phase = .busy) (hp : s.pend = t :: ts)
    (hf : s.fifo.length < s.inst.outDepth) : engineStep s = { s with fifo := s.fifo ++ [t], pend := ts } := by
  simp [engineStep, h, hp, hf]

theorem engineStep_full {s : State} (hp : s.pend ≠ []) (hf : s.inst.outDepth ≤ s.fifo.length) :
    engineStep s = s := by
  unfold engineStep
  split
  · rfl
  · exact absurd ‹s.pend = []› hp
  · rw [if_neg (by omega)]

/-- Everything an engine step can do (R61). -/
theorem engineStep_cases (s : State) :
    engineStep s = s ∨
      (s.phase = .busy ∧ s.pend = [] ∧ engineStep s = completeCommand s) ∨
      (s.phase = .busy ∧ s.fifo.length < s.inst.outDepth ∧ ∃ t ts, s.pend = t :: ts ∧
        engineStep s = { s with fifo := s.fifo ++ [t], pend := ts }) := by
  by_cases hp : s.phase = .busy
  · cases hq : s.pend with
    | nil => exact .inr (.inl ⟨hp, rfl, engineStep_complete hp hq⟩)
    | cons t ts =>
      by_cases hf : s.fifo.length < s.inst.outDepth
      · exact .inr (.inr ⟨hp, hf, t, ts, rfl, engineStep_push hp hq hf⟩)
      · exact .inl (engineStep_full (by simp [hq]) (by omega))
  · exact .inl (engineStep_idle (by cases h : s.phase <;> simp_all))

theorem writeCtxResults_keeps (xs : List CtxSlot) (rs : List (Word × CtxPhase)) :
    (writeCtxResults xs rs).map (fun x => (x.cfg, x.ctx)) = xs.map (fun x => (x.cfg, x.ctx)) := by
  induction xs generalizing rs with
  | nil => cases rs <;> rfl
  | cons x xs ih =>
    cases rs with
    | nil => rfl
    | cons r rs => simp [writeCtxResults, ih]

/-- Completion writes a context's results by its index; a context without a result keeps its registers. -/
theorem writeCtxResults_getElem? {xs : List CtxSlot} (rs : List (Word × CtxPhase)) {c : Nat} {x : CtxSlot}
    (hx : xs[c]? = some x) :
    ∃ y, (writeCtxResults xs rs)[c]? = some y ∧ (y.secs, y.last) = (rs[c]?).getD (x.secs, x.last) := by
  induction xs generalizing rs c with
  | nil => simp at hx
  | cons z xs ih =>
    cases rs with
    | nil => exact ⟨x, hx, rfl⟩
    | cons r rs =>
      cases c with
      | zero =>
        obtain rfl : z = x := by simpa using hx
        exact ⟨_, rfl, rfl⟩
      | succ c => exact ih rs (by simpa using hx)

theorem writeCtxResults_nil (xs : List CtxSlot) : writeCtxResults xs [] = xs := by cases xs <;> rfl

theorem clearContexts_of_initial {xs : List CtxSlot} (h : ∀ x ∈ xs, x.ctx = Context.initial) :
    clearContexts xs = xs := by
  refine (List.map_congr_left fun x hx => ?_).trans (List.map_id xs)
  rw [← h x hx]
  rfl

/-! ### The host -/

/-- Everything a host operation other than a CMD write can do. -/
theorem hostStep_cases (op : HostOp) (s : State) :
    (∃ r, hostStep op s = s.reply r) ∨
      (∃ x xs, op = .tokPop ∧ s.fifo = x :: xs ∧ hostStep op s = { s.reply (.token x) with fifo := xs }) ∨
      hostStep op s = s ∨ hostStep op s = dropWrite s ∧ s.phase = .busy ∨
      (∃ a v, op = .capWrite a v ∧ s.phase = .idle ∧ a < s.inst.capSize ∧
        hostStep op s = { s with mem := s.mem.write a v }) ∨
      (∃ off v, op = .csrWrite off v ∧ csrAt s.inst.nCtx off = some .status ∧ hostStep op s = clearStatus v s) ∨
      (∃ off v r, op = .csrWrite off v ∧ csrAt s.inst.nCtx off = some r ∧ isConfigReg r = true ∧ s.phase = .idle ∧
        hostStep op s = storeReg r v s) := by
  have busy : ¬s.phase = .idle → s.phase = .busy := by cases s.phase <;> simp
  cases op with
  | capWrite a v =>
    by_cases hp : s.phase = .idle
    · by_cases ha : a < s.inst.capSize
      · exact .inr (.inr (.inr (.inr (.inl ⟨a, v, rfl, hp, ha, by simp [hostStep, capWrite, hp, ha]⟩))))
      · exact .inr (.inr (.inl (by simp [hostStep, capWrite, hp, ha])))
    · by_cases ha : a < s.inst.capSize ∨ Config.hazardOutsideCap = true
      · exact .inr (.inr (.inr (.inl ⟨by simp [hostStep, capWrite, busy hp, ha], busy hp⟩)))
      · exact .inr (.inr (.inl (by simp [hostStep, capWrite, busy hp, ha])))
  | capRead a => exact .inl ⟨_, rfl⟩
  | csrRead off => exact .inl ⟨_, rfl⟩
  | tokPop =>
    cases hf : s.fifo with
    | nil => exact .inl ⟨.empty, by simp only [hostStep, tokPop, hf]⟩
    | cons x xs => exact .inr (.inl ⟨x, xs, rfl, rfl, by simp only [hostStep, tokPop, hf]⟩)
  | csrWrite off v =>
    cases hr : csrAt s.inst.nCtx off with
    | none => exact .inr (.inr (.inl (by simp only [hostStep, csrWrite, hr])))
    | some r =>
      have e : hostStep (.csrWrite off v) s = writeReg r v s := by simp only [hostStep, csrWrite, hr]
      rw [e]
      by_cases h1 : r = .status
      · subst h1
        exact .inr (.inr (.inr (.inr (.inr (.inl ⟨off, v, rfl, hr, by simp [writeReg]⟩)))))
      · by_cases h2 : isConfigReg r = true
        · by_cases hp : s.phase = .idle
          · exact .inr (.inr (.inr (.inr (.inr (.inr ⟨off, v, r, rfl, hr, h2, hp, by simp [writeReg, h1, h2, hp]⟩)))))
          · exact .inr (.inr (.inr (.inl ⟨by simp [writeReg, h1, h2, busy hp], busy hp⟩)))
        · exact .inr (.inr (.inl (by simp [writeReg, h1, h2])))

/-! ### A step -/

/-- A step with no move left is the engine's (log 4). -/
theorem step_nil {s : State} (h : s.decoder.stage = .idle) (hs : s.schedule = []) : step s = .next (engineStep s) := by
  simp [step, fetch, h, hs]

/-- What running a fetched item answers. -/
def Fetched.outcome : Fetched → Host.Outcome State Fault Refusal
  | .run i t => exec i t
  | .done t => .next t

/-- A step of a block whose next move is `m`. -/
theorem step_cons {s : State} {m : Move} {ms : List Move} (h : s.decoder.stage = .idle) (hs : s.schedule = m :: ms) :
    step s = (fetchMove m { s with schedule := ms }).outcome := by
  simp only [step, fetch, h, hs]
  rfl

/-- What a step that is not stopped by anything can be, with `u` the state once the move is taken off the schedule. -/
inductive StepIs (s t : State) : Prop where
  /-- A table or descriptor row of a section decode in progress, or the end of its loop. -/
  | decoder (h : s.decoder.stage ≠ .idle) (d : Work) (ht : t = { s with decoder := d })
      (hn : .unsupportedEncoding ∉ s.decoder.notes → .unsupportedEncoding ∉ d.notes)
  | close (h : s.decoder.stage = .close) (ht : t = closeDecode s)
  | engine (h : s.decoder.stage = .idle) (u : State) (hu : s.schedule = [] ∧ u = s ∨
      ∃ ms, s.schedule = .engine :: ms ∧ u = { s with schedule := ms }) (ht : t = engineStep u)
  | reset (h : s.decoder.stage = .idle) (ms : List Move) (hs : s.schedule = .reset :: ms)
      (ht : t = resetBlock { s with schedule := ms })
  | wait (h : s.decoder.stage = .idle) (ms : List Move) (hs : s.schedule = .wait :: ms)
      (ht : t = waitRound { s with schedule := ms })
  | drain (h : s.decoder.stage = .idle) (ms : List Move) (hs : s.schedule = .drain :: ms)
      (ht : t = drainRound { s with schedule := ms })
  | command (h : s.decoder.stage = .idle) (ms : List Move) (v : Word)
      (hs : s.schedule = .host (.csrWrite (csrOffset .cmd) v) :: ms)
      (ht : exec (decodeCommand v) { s with schedule := ms } = .next t)
  | host (h : s.decoder.stage = .idle) (ms : List Move) (op : HostOp) (hs : s.schedule = .host op :: ms)
      (ht : t = hostStep op { s with schedule := ms })

theorem fetchTable_done {s t : State} (h : fetchTable s = .done t) :
    t = { s with decoder := { s.decoder with stage := .close } } := by
  unfold fetchTable at h
  simp only at h
  split at h
  · cases h
  · injection h with h
    exact h.symm

theorem fetchTable_run {s t : State} {i : Instr} (h : fetchTable s = .run i t) :
    t = { s with decoder := { s.decoder with stage := .close } } ∧
      decodeTable s.decoder.cls (byteAt s.decoder.sec s.decoder.tstart) = .ok i := by
  unfold fetchTable at h
  simp only at h
  split at h
  · injection h with h1 h2
    subst h1
    exact ⟨h2.symm, by assumption⟩
  · cases h

theorem csrAt_cmd (n off : Nat) (h : csrAt n off = some .cmd) : off = csrOffset .cmd := by
  unfold csrAt at h
  split at h
  all_goals first
    | rfl
    | (simp at h; done)
    | (dsimp only at h; (repeat' split at h) <;> simp at h)

/-- Everything a step can do. -/
theorem step_cases {s t : State} (h : step s = .next t) : StepIs s t := by
  unfold step fetch at h
  cases hst : s.decoder.stage with
  | table =>
    simp only [hst] at h
    cases hf : fetchTable s with
    | run i u =>
      simp only [hf] at h
      obtain ⟨rfl, hd⟩ := fetchTable_run hf
      rw [exec_table hd] at h
      injection h with h
      refine .decoder (by simp [hst]) _ h.symm fun hn => ?_
      obtain ⟨ts, n, ⟨-, h2, -⟩, -⟩ := runTable_grows i { s.decoder with stage := .close }
      simp [h2, hn]
    | done u =>
      simp only [hf] at h
      injection h with h
      subst h
      exact .decoder (by simp [hst]) _ (fetchTable_done hf) fun hn => hn
  | descriptor =>
    simp only [hst, fetchDescriptorStep] at h
    by_cases hc : s.decoder.rd.cur + 2 ≤ s.decoder.rd.lim
    · simp only [hc, if_true] at h
      rw [(fetchDescriptor_loop _ _).2, exec_descriptor] at h
      injection h with h
      refine .decoder (by simp [hst]) _ h.symm fun hn => ?_
      obtain ⟨ts, n, ⟨-, h2, -⟩, -⟩ :=
        (fetchDescriptor_grows (P := isUnitBody) (.refl s.decoder) s.decoder.rd).trans
          (runDescriptor_body (decodeDescriptor s.decoder.loop
            (BitVec.ofNat 8 (readField 1 s.decoder.rd s.decoder).1)) (fetchDescriptor s.decoder.rd s.decoder).2)
      rw [h2]
      simp [hn]
    · simp only [hc, if_false] at h
      injection h with h
      refine .decoder (by simp [hst]) _ h.symm fun hn => ?_
      show .unsupportedEncoding ∉ (loopRemainder s.decoder.rd s.decoder).notes
      unfold loopRemainder
      split <;> simp [hn]
  | close =>
    simp only [hst] at h
    injection h with h
    exact .close hst h.symm
  | idle =>
    simp only [hst] at h
    cases hs : s.schedule with
    | nil =>
      simp only [hs] at h
      injection h with h
      exact .engine hst s (.inl ⟨hs, rfl⟩) h.symm
    | cons m ms =>
      simp only [hs] at h
      cases m with
      | engine =>
        simp only [fetchMove] at h
        injection h with h
        exact .engine hst _ (.inr ⟨ms, hs, rfl⟩) h.symm
      | reset =>
        simp only [fetchMove] at h
        injection h with h
        exact .reset hst ms hs h.symm
      | wait =>
        simp only [fetchMove] at h
        injection h with h
        exact .wait hst ms hs h.symm
      | drain =>
        simp only [fetchMove] at h
        injection h with h
        exact .drain hst ms hs h.symm
      | host op =>
        simp only [fetchMove] at h
        cases op with
        | csrWrite off v =>
          simp only [fetchHost] at h
          by_cases hc : csrAt s.inst.nCtx off = some .cmd
          · simp only [hc, if_true] at h
            obtain rfl := csrAt_cmd _ _ hc
            exact .command hst ms v hs h
          · simp only [hc, if_false] at h
            injection h with h
            exact .host hst ms _ hs h.symm
        | capWrite a v => injection h with h; exact .host hst ms _ hs h.symm
        | capRead a => injection h with h; exact .host hst ms _ hs h.symm
        | csrRead off => injection h with h; exact .host hst ms _ hs h.symm
        | tokPop => injection h with h; exact .host hst ms _ hs h.symm

end Sys2Proof.Machine
end

