-- ==== Sys2Proof/Laws/Commands.lean ====
section
/-! SUPPORT. The commands (10_state.md R61): the region check, what completion leaves of a command without tokens, the
recorded bits, what no instruction changes, PARSE's tokens, the SEC_END tokens of a context. -/

namespace Sys2Proof.Machine

theorem legalRegion_iff (s : State) : s.legalRegion = true ↔ s.HasRegion := by
  simp [State.legalRegion, State.HasRegion]

/-- A command accepted while idle that emits nothing and writes no context result, completed. -/
theorem completeCommand_startCommand {s : State} (hi : s.Inv) (hp : s.phase = .idle) (op : BitVec 4) (n : List ErrCode)
    (q : Completion) (hq : q.ctxResults = none) :
    completeCommand (startCommand op ⟨[], n, q, s.ctxs⟩ s) = { s with
      op := op
      done := true
      errs := recordBits n s.errs
      errCode := firstCode n
      syncOff := q.syncOff.getD s.syncOff
      pktCount := q.pktCount.getD s.pktCount
      pktKept := q.pktKept.getD s.pktKept
      frPos := q.frPos.getD s.frPos
      crcResult := q.crcResult.getD s.crcResult
      secCount := q.secCount.getD s.secCount } := by
  obtain ⟨h1, h2, h3, -⟩ := hi.idleEmpty hp
  have h4 := clearContexts_of_initial (hi.idleContexts hp)
  simp only [completeCommand, startCommand, hq, Option.getD_none, writeCtxResults_nil, h4]
  rw [← h1, ← h2, ← h3, ← hp]

/-- The bits a note list leaves set (R604). -/
theorem recordBits_getLsbD (ns : List ErrCode) (e : BitVec 12) (i : Nat) (hi : i < 12) :
    (recordBits ns e).getLsbD i = true ↔ e.getLsbD i = true ∨ ∃ n ∈ ns, n.code.toNat = i + 1 := by
  unfold recordBits
  induction ns generalizing e with
  | nil => simp
  | cons n ns ih =>
    have hb : n.bit.getLsbD i = true ↔ n.code.toNat = i + 1 := by
      cases n <;> interval_cases i <;> decide
    rw [List.foldl_cons, ih]
    simp [hb, or_assoc]

/-- R101: no instruction writes CAPMEM, draws it anew or changes the instance. -/
theorem exec_keeps_memory {i : Instr} {s t : State} (h : exec i s = .next t) :
    t.mem = s.mem ∧ t.epoch = s.epoch ∧ t.inst = s.inst := by
  cases hi : isCommand i with
  | true =>
    rcases exec_command_cases hi h with ⟨-, op, r, rfl, -⟩ | ⟨-, rfl⟩ <;> exact ⟨rfl, rfl, rfl⟩
  | false =>
    rw [exec_decoderRow hi] at h
    injection h with h
    subst h
    exact ⟨rfl, rfl, rfl⟩

theorem engineStep_keeps_memory (s : State) :
    (engineStep s).mem = s.mem ∧ (engineStep s).epoch = s.epoch ∧ (engineStep s).inst = s.inst := by
  rcases engineStep_cases s with e | ⟨-, -, e⟩ | ⟨-, -, t, ts, -, e⟩ <;> rw [e] <;> exact ⟨rfl, rfl, rfl⟩

/-- PARSE's walk of the event list (R221). -/
theorem parseEvents_eq (es : List FrameEvent) (a : Acc) : parseEvents es a =
    ⟨a.out ++ (es.filterMap FrameEvent.packet?).map (Token.pkt 0xF#4),
      a.notes ++ es.filterMap FrameEvent.note?⟩ := by
  induction es generalizing a with
  | nil => simp [parseEvents]
  | cons e es ih =>
    cases e <;>
      simp [parseEvents, ih, List.filterMap_cons, FrameEvent.packet?, FrameEvent.note?, Acc.emit, Acc.note]

theorem capSlice_getElem? {cap : Nat → Byte} {a b k : Nat} (h : k < b - a) :
    (capSlice cap a b)[k]? = some (cap (a + k)) := by
  simp [capSlice, h]

theorem closedUnits_append (src : BitVec 4) (a b : List Token) :
    closedUnits src (a ++ b) = closedUnits src a ++ closedUnits src b := by
  simp [closedUnits, List.filterMap_append]

/-- Append (R255) closes nothing. -/
theorem closedUnits_appendPacket (secbuf c : Nat) (cfg : CtxCfg) (p : Packet) (x : Context) (a : Acc) (src : BitVec 4) :
    closedUnits src (appendPacket secbuf c cfg p x a).2.out = closedUnits src a.out := by
  simp only [appendPacket]
  by_cases h : p.payload.length > secbuf - x.buf.length <;> simp only [h, if_true, if_false] <;>
    cases cfg.pkts <;> simp [Acc.note, closedUnits_append] <;> simp [closedUnits]

/-- `w` after `n` occurrences of `overflow()` (R302). -/
def overflowTimes (n : Nat) (w : Work) : Work :=
  { w with notes := w.notes ++ List.replicate n .descriptorOverflow, ovf := w.ovf || n != 0 }

theorem overflowTimes_zero (w : Work) : overflowTimes 0 w = w := by simp [overflowTimes]

theorem overflow_overflowTimes (n : Nat) (w : Work) : overflow (overflowTimes n w) = overflowTimes (n + 1) w := by
  simp [overflowTimes, overflow, List.replicate_succ']

end Sys2Proof.Machine
end

