-- ==== Sys2Proof/Laws/Crc.lean ====
section
/-! SUPPORT. The CRC (43_crc32.md R351-R353): one shift of the register is linear and loses nothing. -/

namespace Sys2Proof.Machine

theorem crcShift_xor (a b : Word) : crcShift (a ^^^ b) = crcShift a ^^^ crcShift b := by
  unfold crcShift
  rw [BitVec.getLsbD_xor, BitVec.shiftLeft_xor_distrib]
  cases a.getLsbD 31 <;> cases b.getLsbD 31 <;> simp only [Bool.false_xor, Bool.true_xor, Bool.not_true,
    Bool.not_false, Bool.false_eq_true, if_true, if_false] <;> apply BitVec.eq_of_getLsbD_eq <;> intro i hi <;>
    simp only [BitVec.getLsbD_xor] <;> cases (a <<< 1).getLsbD i <;> cases (b <<< 1).getLsbD i <;>
    cases crcPoly.getLsbD i <;> rfl

theorem crcShift8_xor (a b : Word) : crcShift8 (a ^^^ b) = crcShift8 a ^^^ crcShift8 b := by
  simp only [crcShift8, crcShift_xor]

/-- A shift loses nothing: the polynomial's bit 0 is 1. -/
theorem crcShift_eq_zero {a : Word} (h : crcShift a = 0) : a = 0 := by
  unfold crcShift at h
  cases ha : a.getLsbD 31
  · rw [ha] at h
    simp only [Bool.false_eq_true, if_false] at h
    apply BitVec.eq_of_getLsbD_eq
    intro i hi
    by_cases h31 : i = 31
    · subst h31; simpa using ha
    · have := congrArg (·.getLsbD (i + 1)) h
      simp only [BitVec.getLsbD_shiftLeft] at this
      simpa [show i + 1 < 32 by omega] using this
  · rw [ha] at h
    have := congrArg (·.getLsbD 0) h
    simp [crcPoly] at this

theorem crcShift8_eq_zero {a : Word} (h : crcShift8 a = 0) : a = 0 := by
  iterate 8 replace h := crcShift_eq_zero h
  exact h

/-- While the top bit is 0 a shift is a plain shift. -/
theorem crcShift_low {a : Word} (h : a.getLsbD 31 = false) : crcShift a = a <<< 1 := by
  unfold crcShift
  rw [h]
  rfl

/-- A byte in a position below the top is only moved up by eight shifts. -/
theorem crcShift8_low {a : Word} (h : ∀ i, 24 ≤ i → a.getLsbD i = false) : crcShift8 a = a <<< 8 := by
  have up : ∀ k, k < 8 → (a <<< k).getLsbD 31 = false := by
    intro k hk
    rw [BitVec.getLsbD_shiftLeft, h (31 - k) (by omega), Bool.and_false]
  have one : ∀ k, k < 8 → crcShift (a <<< k) = a <<< (k + 1) := by
    intro k hk
    rw [crcShift_low (up k hk), BitVec.shiftLeft_add]
  unfold crcShift8
  rw [← BitVec.shiftLeft_zero a, one 0 (by omega), one 1 (by omega), one 2 (by omega), one 3 (by omega),
    one 4 (by omega), one 5 (by omega), one 6 (by omega), one 7 (by omega), BitVec.shiftLeft_zero]

/-- The register after one more byte, by linearity. -/
theorem crcByte_eq (r : Word) (b : Byte) : crcByte r b = crcShift8 r ^^^ crcShift8 (b.setWidth 32 <<< 24) :=
  crcShift8_xor _ _

theorem crc32_append (as bs : Bytes) : crc32 (as ++ bs) = bs.foldl crcByte (crc32 as) := List.foldl_append ..

end Sys2Proof.Machine
end

