-- ==== Sys2Proof/Laws/Framer.lean ====
section
/-! SUPPORT. The framer (40_framer.md): what a sync search answers, that no bound on its loops is what ends them, and that
the framer reads its region only. -/

namespace Sys2Proof.Machine

/-! ### The sync detector -/

/-- The condition of R200 at an offset. -/
abbrev IsSync (cap : Nat → Byte) (i : Nat) : Prop := cap i = 0x47#8 ∧ cap (i + 188) = 0x47#8

theorem findSyncFrom_succ (cap : Nat → Byte) (e fuel i : Nat) : findSyncFrom cap e (fuel + 1) i =
    if i + 188 < e then if IsSync cap i then some i else findSyncFrom cap e fuel (i + 1) else none := rfl

theorem findSyncFrom_some {cap : Nat → Byte} {e fuel i q : Nat} (h : findSyncFrom cap e fuel i = some q) :
    i ≤ q ∧ q + 188 < e ∧ IsSync cap q ∧ ∀ j, i ≤ j → j < q → ¬IsSync cap j := by
  induction fuel generalizing i with
  | zero => simp [findSyncFrom] at h
  | succ fuel ih =>
    rw [findSyncFrom_succ] at h
    split at h
    · split at h
      · injection h with h
        subst h
        exact ⟨Nat.le_refl _, by assumption, by assumption, fun j h1 h2 => absurd h2 (by omega)⟩
      · obtain ⟨h1, h2, h3, h4⟩ := ih h
        refine ⟨by omega, h2, h3, fun j hj1 hj2 => ?_⟩
        by_cases hj : j = i
        · subst hj
          assumption
        · exact h4 j (by omega) hj2
    · cases h

theorem findSyncFrom_none {cap : Nat → Byte} {e fuel i : Nat} (hf : e - i ≤ fuel)
    (h : findSyncFrom cap e fuel i = none) : ∀ j, i ≤ j → j + 188 < e → ¬IsSync cap j := by
  induction fuel generalizing i with
  | zero => intro j h1 h2; omega
  | succ fuel ih =>
    rw [findSyncFrom_succ] at h
    split at h
    · split at h
      · cases h
      · intro j h1 h2
        by_cases hj : j = i
        · subst hj
          assumption
        · exact ih (by omega) h j (by omega) h2
    · intro j h1 h2
      omega

/-- `find_sync` answers the first offset of the range with the condition of R200 … -/
theorem findSync_some {cap : Nat → Byte} {a e q : Nat} (h : findSync cap a e = some q) :
    a ≤ q ∧ q + 188 < e ∧ IsSync cap q ∧ ∀ j, a ≤ j → j < q → ¬IsSync cap j :=
  findSyncFrom_some h

/-- … and NotFound only when there is none. -/
theorem findSync_none {cap : Nat → Byte} {a e : Nat} (h : findSync cap a e = none) :
    ∀ j, a ≤ j → j + 188 < e → ¬IsSync cap j :=
  findSyncFrom_none (Nat.le_refl _) h

theorem findSyncFrom_congr {cap cap' : Nat → Byte} {a e : Nat} (h : ∀ i, a ≤ i → i < e → cap i = cap' i)
    (fuel i : Nat) (hi : a ≤ i) : findSyncFrom cap e fuel i = findSyncFrom cap' e fuel i := by
  induction fuel generalizing i with
  | zero => rfl
  | succ fuel ih =>
    rw [findSyncFrom_succ, findSyncFrom_succ]
    split
    · have e : IsSync cap i ↔ IsSync cap' i := by
        simp only [IsSync, h i hi (by omega), h (i + 188) (by omega) (by omega)]
      simp only [e, ih (i + 1) (by omega)]
    · rfl

/-- A search reads its range only (R216). -/
theorem findSync_congr {cap cap' : Nat → Byte} {a e i : Nat} (h : ∀ i, a ≤ i → i < e → cap i = cap' i) (hi : a ≤ i) :
    findSync cap i e = findSync cap' i e :=
  findSyncFrom_congr h _ i hi

/-! ### A packet -/

theorem payload_length (cap : Nat → Byte) (honor : Bool) (pos : Nat) (afc : BitVec 2) :
    (payload cap honor pos afc).length =
      if honor = false ∨ afc = 1#2 then 184 else if afc = 3#2 then 183 - (cap (pos + 4)).toNat else 0 := by
  unfold payload
  simp only [packetSize]
  cases honor
  · simp [capSlice_length]
  · by_cases h1 : afc = 1#2
    · simp [h1, capSlice_length]
    · by_cases h3 : afc = 3#2
      · subst h3
        by_cases hl : 5 + (cap (pos + 4)).toNat ≤ 188
        · simp [hl, capSlice_length]
          omega
        · simp [hl]
          omega
      · simp [h1, h3]

/-- A packet is decoded from its 188 bytes. -/
theorem decodePacket_congr {cap cap' : Nat → Byte} (honor : Bool) {pos : Nat}
    (h : ∀ i, pos ≤ i → i < pos + 188 → cap i = cap' i) : decodePacket cap honor pos = decodePacket cap' honor pos := by
  have hp : ∀ afc, payload cap honor pos afc = payload cap' honor pos afc := by
    intro afc
    unfold payload
    simp only [packetSize]
    rw [h (pos + 4) (by omega) (by omega),
      capSlice_congr (cap := cap) (a := pos + 4) fun i h1 h2 => h i (by omega) h2,
      capSlice_congr (cap := cap) (a := pos + 5 + (cap' (pos + 4)).toNat) fun i h1 h2 => h i (by omega) h2]
  unfold decodePacket
  simp only [hp, h (pos + 1) (by omega) (by omega), h (pos + 2) (by omega) (by omega),
    h (pos + 3) (by omega) (by omega)]

/-! ### The slicer -/

theorem sliceFrames_succ (g : FrameArgs) (fuel pos : Nat) : sliceFrames g (fuel + 1) pos =
    if pos + 188 ≤ g.endOff then
      if g.cap pos = 0x47#8 then
        Sliced.cons (g.retains (decodePacket g.cap g.afcHonor pos)) (decodePacket g.cap g.afcHonor pos)
          (sliceFrames g fuel (pos + 188))
      else if g.resync = false then ⟨[.lost], 0, 0, pos⟩
      else
        match findSync g.cap (pos + 1) g.endOff with
        | none => ⟨[.lost], 0, 0, pos⟩
        | some q => { sliceFrames g fuel q with evs := .lost :: (sliceFrames g fuel q).evs }
    else ⟨[], 0, 0, pos⟩ := by
  by_cases h1 : pos + 188 ≤ g.endOff
  · by_cases h2 : g.cap pos = 0x47#8
    · simp [sliceFrames, packetSize, syncByte, h1, h2]
    · cases h3 : g.resync
      · simp [sliceFrames, packetSize, syncByte, h1, h2, h3]
      · simp only [sliceFrames, packetSize, syncByte, h1, h2, h3, ne_eq, not_false_eq_true, if_true, if_false,
          Bool.not_true, Bool.false_eq_true, reduceCtorEq] <;>
          cases findSync g.cap (pos + 1) g.endOff <;> rfl
  · simp [sliceFrames, packetSize, h1]

/-- More iterations than bytes left change nothing: the loop of R215 ends by itself (R216). -/
theorem sliceFrames_fuel (g : FrameArgs) (m n pos : Nat) (hm : g.endOff - pos ≤ m) (hn : g.endOff - pos ≤ n) :
    sliceFrames g m pos = sliceFrames g n pos := by
  induction m generalizing n pos with
  | zero =>
    cases n with
    | zero => rfl
    | succ n => rw [sliceFrames_succ, if_neg (by omega)]; rfl
  | succ m ih =>
    cases n with
    | zero => rw [sliceFrames_succ, if_neg (by omega)]; rfl
    | succ n =>
      rw [sliceFrames_succ, sliceFrames_succ]
      split
      · split
        · rw [ih n (pos + 188) (by omega) (by omega)]
        · split
          · rfl
          · split
            · rfl
            · rename_i q hq
              have := (findSync_some hq).1
              rw [ih n q (by omega) (by omega)]
      · rfl

/-- What the slicer guarantees of its results (R46, R47, R207, R212, R216). -/
structure Sliced.Sound (g : FrameArgs) (start : Nat) (r : Sliced) : Prop where
  pos : start ≤ r.pos ∧ r.pos ≤ g.endOff
  kept : r.kept = (r.evs.filterMap fun e => match e with | .pkt p => some p | .lost => none).length
  count : r.kept ≤ r.count
  all : g.pidfEn = false → r.kept = r.count
  pkts : ∀ p, FrameEvent.pkt p ∈ r.evs → ∃ a, start ≤ a ∧ a + 188 ≤ g.endOff ∧ g.cap a = 0x47#8 ∧
    g.retains p = true ∧ p = decodePacket g.cap g.afcHonor a

theorem sliceFrames_sound (g : FrameArgs) (fuel pos : Nat) (h : pos ≤ g.endOff) :
    (sliceFrames g fuel pos).Sound g pos := by
  have stop : ∀ evs, (evs = [] ∨ evs = [.lost]) → Sliced.Sound g pos ⟨evs, 0, 0, pos⟩ := by
    rintro evs (rfl | rfl) <;> exact ⟨⟨Nat.le_refl _, h⟩, rfl, Nat.le_refl _, fun _ => rfl, by simp⟩
  induction fuel generalizing pos with
  | zero => exact stop _ (.inl rfl)
  | succ fuel ih =>
    rw [sliceFrames_succ]
    split
    · split
      · rename_i hs
        have k := ih (pos + 188) (by omega) fun evs he => by
          rcases he with rfl | rfl <;> exact ⟨⟨Nat.le_refl _, by omega⟩, rfl, Nat.le_refl _, fun _ => rfl, by simp⟩
        have hk := k.kept
        have hc := k.count
        have hpos := k.pos
        cases hr : g.retains (decodePacket g.cap g.afcHonor pos)
        · refine ⟨⟨by simp only [Sliced.cons]; omega, by simp only [Sliced.cons]; omega⟩, ?_, ?_, fun he => ?_,
            fun p hp => ?_⟩
          · simpa [Sliced.cons] using hk
          · simp only [Sliced.cons, Bool.false_eq_true, if_false]; omega
          · simp [FrameArgs.retains, he] at hr
          · obtain ⟨a, h3, h4⟩ := k.pkts p (by simpa [Sliced.cons] using hp)
            exact ⟨a, by omega, h4⟩
        · refine ⟨⟨by simp only [Sliced.cons]; omega, by simp only [Sliced.cons]; omega⟩, ?_, ?_, fun he => ?_,
            fun p hp => ?_⟩
          · simpa [Sliced.cons] using hk
          · simp only [Sliced.cons, if_true]; omega
          · simp only [Sliced.cons, if_true, k.all he]
          · rcases List.mem_cons.1 (by simpa [Sliced.cons] using hp :
              FrameEvent.pkt p ∈ FrameEvent.pkt (decodePacket g.cap g.afcHonor pos) ::
                (sliceFrames g fuel (pos + 188)).evs) with hp | hp
            · injection hp with hp
              exact ⟨pos, Nat.le_refl _, by omega, hs, by rw [hp]; exact hr, hp⟩
            · obtain ⟨a, h3, h4⟩ := k.pkts p hp
              exact ⟨a, by omega, h4⟩
      · split
        · exact stop _ (.inr rfl)
        · split
          · exact stop _ (.inr rfl)
          · rename_i q hq
            obtain ⟨h1, h2, -, -⟩ := findSync_some hq
            have k := ih q (by omega) fun evs he => by
              rcases he with rfl | rfl <;> exact ⟨⟨Nat.le_refl _, by simp only; omega⟩, rfl, Nat.le_refl _, fun _ => rfl, by simp⟩
            refine ⟨⟨by have := k.pos.1; simp only; omega, k.pos.2⟩, by simp [k.kept], k.count, k.all, fun p hp => ?_⟩
            obtain ⟨a, h3, h4⟩ := k.pkts p (by simpa using hp)
            exact ⟨a, by omega, h4⟩
    · exact stop _ (.inl rfl)

/-- The framer reads its region only (R216). -/
theorem sliceFrames_congr {g : FrameArgs} {cap : Nat → Byte} {a : Nat}
    (h : ∀ i, a ≤ i → i < g.endOff → g.cap i = cap i) (fuel pos : Nat) (hp : a ≤ pos) :
    sliceFrames g fuel pos = sliceFrames { g with cap := cap } fuel pos := by
  induction fuel generalizing pos with
  | zero => rfl
  | succ fuel ih =>
    rw [sliceFrames_succ, sliceFrames_succ]
    dsimp only
    split
    · have hc : g.cap pos = cap pos := h pos hp (by omega)
      simp only [hc]
      rw [ih (pos + 188) (by omega),
        decodePacket_congr (cap := g.cap) (cap' := cap) g.afcHonor fun i h1 h2 => h i (by omega) (by omega),
        findSync_congr (cap := g.cap) (cap' := cap) h (show a ≤ pos + 1 by omega)]
      have hq : ∀ q, findSync cap (pos + 1) g.endOff = some q →
          sliceFrames g fuel q = sliceFrames { g with cap := cap } fuel q := fun q hq =>
        ih q (by have := (findSync_some hq).1; omega)
      split
      · rfl
      · split
        · rfl
        · cases hf : findSync cap (pos + 1) g.endOff with
          | none => rfl
          | some q => simp only [hq q hf]
    · rfl

theorem frame_congr {g : FrameArgs} {cap : Nat → Byte} {a : Nat} (h : ∀ i, a ≤ i → i < g.endOff → g.cap i = cap i) :
    frame g a = frame { g with cap := cap } a := by
  unfold frame
  simp only
  rw [findSync_congr (cap := g.cap) (cap' := cap) h (Nat.le_refl a)]
  cases hf : findSync cap a g.endOff with
  | none => rfl
  | some q =>
    simp only
    rw [sliceFrames_congr h _ q (findSync_some hf).1]

end Sys2Proof.Machine
end

