-- ==== Sys2Proof/Laws/Locality.lean ====
section
/-! SUPPORT. The section decoder reads inside its limits only (45_descriptors.md R454): over two sections that agree below
a bound, a reader whose limit is within the bound, and everything read through it, gives the same. -/

namespace Sys2Proof.Machine

/-- The same working values over another section. -/
def Work.on (S : Bytes) (w : Work) : Work := { w with sec := S }

@[simp] theorem Work.on_sec (S : Bytes) (w : Work) : (w.on S).sec = S := rfl
@[simp] theorem Work.on_src (S : Bytes) (w : Work) : (w.on S).src = w.src := rfl
@[simp] theorem Work.on_index (S : Bytes) (w : Work) : (w.on S).index = w.index := rfl
@[simp] theorem Work.on_out (S : Bytes) (w : Work) : (w.on S).out = w.out := rfl
@[simp] theorem Work.on_notes (S : Bytes) (w : Work) : (w.on S).notes = w.notes := rfl

/-- The two sections agree below the bound. -/
def AgreeBelow (B : Nat) (S S' : Bytes) : Prop := ∀ i j, j ≤ B → slice S i j = slice S' i j

/-- `f` does the same over both sections, and reads no other. -/
def Local (S S' : Bytes) (f : Work → Work) : Prop := ∀ w, w.sec = S → f (w.on S') = (f w).on S' ∧ (f w).sec = S

/-- The body of a record loop does the same over both sections, with a reader within the bound. -/
def LocalBody (B : Nat) (S S' : Bytes) (f : Reader → Work → Reader × Work) : Prop :=
  ∀ r w, r.lim ≤ B → w.sec = S →
    f r (w.on S') = ((f r w).1, (f r w).2.on S') ∧ (f r w).1.lim ≤ B ∧ (f r w).2.sec = S

section

variable {B : Nat} {S S' : Bytes} (h : AgreeBelow B S S')
include h

theorem readField_on {n x : Nat} {r r' : Reader} {w u : Work} (hr : r.lim ≤ B) (hw : w.sec = S)
    (e : readField n r w = (x, r', u)) : readField n r (w.on S') = (x, r', u.on S') ∧ r'.lim ≤ B ∧ u.sec = S := by
  unfold readField at e ⊢
  split at e
  · injection e with e1 e
    injection e with e2 e3
    subst e1 e2 e3
    rw [if_pos ‹_›]
    have := h r.cur (r.cur + n) (by omega)
    exact ⟨by simp only [be, hw, this, Work.on_sec], hr, hw⟩
  · injection e with e1 e
    injection e with e2 e3
    subst e1 e2 e3
    rw [if_neg ‹_›]
    exact ⟨rfl, hr, hw⟩

omit h in
theorem readSpan_on {n : Nat} {r b r' : Reader} {w u : Work} (hr : r.lim ≤ B) (hw : w.sec = S)
    (e : readSpan n r w = (b, r', u)) :
    readSpan n r (w.on S') = (b, r', u.on S') ∧ b.lim ≤ B ∧ r'.lim ≤ B ∧ u.sec = S := by
  unfold readSpan at e ⊢
  split at e
  all_goals
    injection e with e1 e
    injection e with e2 e3
    subst e1 e2 e3
  · rw [if_pos ‹_›]
    exact ⟨rfl, hr, hr, hw⟩
  · rw [if_neg ‹_›]
    exact ⟨rfl, by simp only; omega, hr, hw⟩

theorem spanBytes_on {r : Reader} {w : Work} (hr : r.lim ≤ B) (hw : w.sec = S) :
    spanBytes (w.on S') r = spanBytes w r := by
  simp only [spanBytes, Work.on_sec, hw, h r.cur r.lim hr]

omit h in
theorem loopRemainder_on (r : Reader) : Local S S' (loopRemainder r) := by
  intro w hw
  unfold loopRemainder
  split
  · exact ⟨rfl, hw⟩
  · exact ⟨rfl, hw⟩

omit h in
theorem recordLoop_on {n : Nat} {body : Reader → Work → Reader × Work} (hb : LocalBody B S S' body) (fuel : Nat)
    (r : Reader) (hr : r.lim ≤ B) : Local S S' (recordLoop n body fuel r) := by
  induction fuel generalizing r with
  | zero => exact loopRemainder_on r
  | succ fuel ih =>
    intro w hw
    unfold recordLoop
    split
    · obtain ⟨h1, h2, h3⟩ := hb r w hr hw
      rw [h1]
      exact ih _ h2 _ h3
    · exact loopRemainder_on r w hw

omit h in
theorem runRecords_on {n : Nat} {body : Reader → Work → Reader × Work} (hb : LocalBody B S S' body)
    {r : Reader} (hr : r.lim ≤ B) : Local S S' (runRecords n body r) :=
  recordLoop_on hb _ r hr

/-! ### The descriptor actions -/

theorem descNetworkName_on {w : Work} (hr : w.body.lim ≤ B) (hw : w.sec = S) :
    descNetworkName (w.on S') = (descNetworkName w).on S' ∧ (descNetworkName w).sec = S := by
  refine ⟨?_, hw⟩
  unfold descNetworkName
  rw [spanBytes_on h (show (w.on S').body.lim ≤ B from hr) hw]
  rfl

theorem serviceListEntry_on : LocalBody B S S' serviceListEntry := by
  intro r w hr hw
  rcases e1 : readField 2 r w with ⟨sid, r1, w1⟩
  rcases e2 : readField 1 r1 w1 with ⟨st, r2, w2⟩
  obtain ⟨k1, b1, s1⟩ := readField_on h hr hw e1
  obtain ⟨k2, b2, s2⟩ := readField_on h b1 s1 e2
  simp only [serviceListEntry, e1, e2, k1, k2]
  exact ⟨rfl, b2, s2⟩

theorem descService_on {w : Work} (hr : w.body.lim ≤ B) (hw : w.sec = S) :
    descService (w.on S') = (descService w).on S' ∧ (descService w).sec = S := by
  rcases e1 : readField 1 w.body w with ⟨st, r1, w1⟩
  rcases e2 : readField 1 r1 w1 with ⟨pl, r2, w2⟩
  rcases e3 : readSpan pl r2 w2 with ⟨p, r3, w3⟩
  rcases e4 : readField 1 r3 w3 with ⟨nl, r4, w4⟩
  rcases e5 : readSpan nl r4 w4 with ⟨n, r5, w5⟩
  obtain ⟨k1, b1, s1⟩ := readField_on h hr hw e1
  obtain ⟨k2, b2, s2⟩ := readField_on h b1 s1 e2
  obtain ⟨k3, p3, b3, s3⟩ := readSpan_on (S' := S') b2 s2 e3
  obtain ⟨k4, b4, s4⟩ := readField_on h b3 s3 e4
  obtain ⟨k5, p5, b5, s5⟩ := readSpan_on (S' := S') b4 s4 e5
  have k0 : readField 1 (w.on S').body (w.on S') = _ := k1
  simp only [descService, e1, e2, e3, e4, e5, k0, k2, k3, k4, k5, spanBytes_on h p3 s5, spanBytes_on h p5 s5]
  exact ⟨rfl, s5⟩

theorem descShortEvent_on {w : Work} (hr : w.body.lim ≤ B) (hw : w.sec = S) :
    descShortEvent (w.on S') = (descShortEvent w).on S' ∧ (descShortEvent w).sec = S := by
  rcases e1 : readField 3 w.body w with ⟨lang, r1, w1⟩
  rcases e2 : readField 1 r1 w1 with ⟨nl, r2, w2⟩
  rcases e3 : readSpan nl r2 w2 with ⟨m, r3, w3⟩
  rcases e4 : readField 1 r3 w3 with ⟨tl, r4, w4⟩
  rcases e5 : readSpan tl r4 w4 with ⟨x, r5, w5⟩
  obtain ⟨k1, b1, s1⟩ := readField_on h hr hw e1
  obtain ⟨k2, b2, s2⟩ := readField_on h b1 s1 e2
  obtain ⟨k3, p3, b3, s3⟩ := readSpan_on (S' := S') b2 s2 e3
  obtain ⟨k4, b4, s4⟩ := readField_on h b3 s3 e4
  obtain ⟨k5, p5, b5, s5⟩ := readSpan_on (S' := S') b4 s4 e5
  have k0 : readField 3 (w.on S').body (w.on S') = _ := k1
  simp only [descShortEvent, e1, e2, e3, e4, e5, k0, k2, k3, k4, k5, spanBytes_on h p3 s5, spanBytes_on h p5 s5]
  exact ⟨rfl, s5⟩

theorem descExtendedEvent_on {w : Work} (hr : w.body.lim ≤ B) (hw : w.sec = S) :
    descExtendedEvent (w.on S') = (descExtendedEvent w).on S' ∧ (descExtendedEvent w).sec = S := by
  rcases e1 : readField 1 w.body w with ⟨x, r1, w1⟩
  rcases e2 : readField 3 r1 w1 with ⟨l, r2, w2⟩
  rcases e3 : readField 1 r2 w2 with ⟨li, r3, w3⟩
  rcases e4 : readSpan li r3 w3 with ⟨it, r4, w4⟩
  rcases e5 : readField 1 r4 w4 with ⟨tl, r5, w5⟩
  rcases e6 : readSpan tl r5 w5 with ⟨t, r6, w6⟩
  obtain ⟨k1, b1, s1⟩ := readField_on h hr hw e1
  obtain ⟨k2, b2, s2⟩ := readField_on h b1 s1 e2
  obtain ⟨k3, b3, s3⟩ := readField_on h b2 s2 e3
  obtain ⟨k4, p4, b4, s4⟩ := readSpan_on (S' := S') b3 s3 e4
  obtain ⟨k5, b5, s5⟩ := readField_on h b4 s4 e5
  obtain ⟨k6, p6, b6, s6⟩ := readSpan_on (S' := S') b5 s5 e6
  have k0 : readField 1 (w.on S').body (w.on S') = _ := k1
  simp only [descExtendedEvent, e1, e2, e3, e4, e5, e6, k0, k2, k3, k4, k5, k6, spanBytes_on h p6 s6]
  exact ⟨rfl, s6⟩

theorem contentEntry_on : LocalBody B S S' contentEntry := by
  intro r w hr hw
  rcases e1 : readField 1 r w with ⟨x, r1, w1⟩
  rcases e2 : readField 1 r1 w1 with ⟨u, r2, w2⟩
  obtain ⟨k1, b1, s1⟩ := readField_on h hr hw e1
  obtain ⟨k2, b2, s2⟩ := readField_on h b1 s1 e2
  simp only [contentEntry, e1, e2, k1, k2]
  exact ⟨rfl, b2, s2⟩

theorem descContent_on {w : Work} (hr : w.body.lim ≤ B) (hw : w.sec = S) :
    descContent (w.on S') = (descContent w).on S' ∧ (descContent w).sec = S := by
  have k := runRecords_on (n := 2) (contentEntry_on h) (r := w.body) hr
    { w with ev := { w.ev with hasContent := true, content := [] } } hw
  unfold descContent
  exact k

theorem descServiceList_on {w : Work} (hr : w.body.lim ≤ B) (hw : w.sec = S) :
    descServiceList (w.on S') = (descServiceList w).on S' ∧ (descServiceList w).sec = S := by
  unfold descServiceList
  exact runRecords_on (serviceListEntry_on h) hr w hw

/-- Every descriptor row, on a body within the bound. -/
theorem runDescriptor_on (i : Instr) {w : Work} (hr : w.body.lim ≤ B) (hw : w.sec = S) :
    runDescriptor i (w.on S') = (runDescriptor i w).on S' ∧ (runDescriptor i w).sec = S := by
  cases i with
  | descNetworkName => exact descNetworkName_on h hr hw
  | descServiceList => exact descServiceList_on h hr hw
  | descService => exact descService_on h hr hw
  | descShortEvent => exact descShortEvent_on h hr hw
  | descExtendedEvent =>
    unfold runDescriptor
    exact descExtendedEvent_on h hr hw
  | descContent => exact descContent_on h hr hw
  | _ => exact ⟨rfl, hw⟩

theorem fetchDescriptor_on {r : Reader} {w : Work} (hr : r.lim ≤ B) (hw : w.sec = S) :
    fetchDescriptor r (w.on S') = ((fetchDescriptor r w).1, (fetchDescriptor r w).2.on S') ∧
      (fetchDescriptor r w).2.sec = S ∧ (fetchDescriptor r w).2.body.lim ≤ B ∧
      (fetchDescriptor r w).2.rd.lim ≤ B := by
  rcases e1 : readField 1 r w with ⟨tag, r1, w1⟩
  rcases e2 : readField 1 r1 w1 with ⟨len, r2, w2⟩
  rcases e3 : readSpan len r2 w2 with ⟨b, r3, w3⟩
  obtain ⟨k1, b1, s1⟩ := readField_on h hr hw e1
  obtain ⟨k2, b2, s2⟩ := readField_on h b1 s1 e2
  obtain ⟨k3, p3, b3, s3⟩ := readSpan_on (S' := S') b2 s2 e3
  simp only [fetchDescriptor, e1, e2, e3, k1, k2, k3]
  exact ⟨rfl, s3, p3, b3⟩

theorem descriptorStep_on : LocalBody B S S' descriptorStep := by
  intro r w hr hw
  obtain ⟨h1, h2, h3, h4⟩ := fetchDescriptor_on h hr hw
  obtain ⟨k1, k2⟩ := runDescriptor_on h (fetchDescriptor r w).1 h3 h2
  have e : descriptorStep r w =
    ((fetchDescriptor r w).2.rd, runDescriptor (fetchDescriptor r w).1 (fetchDescriptor r w).2) := rfl
  have e' : descriptorStep r (w.on S') = ((fetchDescriptor r (w.on S')).2.rd,
    runDescriptor (fetchDescriptor r (w.on S')).1 (fetchDescriptor r (w.on S')).2) := rfl
  rw [e', h1, e]
  simp only [k1]
  exact ⟨rfl, h4, k2⟩

theorem descLoop_on (loop : DescLoop) {r : Reader} (hr : r.lim ≤ B) : Local S S' (descLoop loop r) :=
  fun w hw => runRecords_on (descriptorStep_on h) hr { w with loop := loop } hw

/-! ### The table bodies -/

theorem patEntry_on : LocalBody B S S' patEntry := by
  intro r w hr hw
  rcases e1 : readField 2 r w with ⟨pn, r1, w1⟩
  rcases e2 : readField 2 r1 w1 with ⟨x, r2, w2⟩
  obtain ⟨k1, b1, s1⟩ := readField_on h hr hw e1
  obtain ⟨k2, b2, s2⟩ := readField_on h b1 s1 e2
  simp only [patEntry, e1, e2, k1, k2]
  exact ⟨rfl, b2, s2⟩

theorem nitRecord_on : LocalBody B S S' nitRecord := by
  intro r w hr hw
  rcases e1 : readField 2 r w with ⟨x1, r1, w1⟩
  rcases e2 : readField 2 r1 w1 with ⟨x2, r2, w2⟩
  rcases e3 : readField 2 r2 w2 with ⟨x, r3, w3⟩
  rcases e4 : readSpan (x % 4096) r3 w3 with ⟨d, r4, w4⟩
  obtain ⟨k1, b1, s1⟩ := readField_on h hr hw e1
  obtain ⟨k2, b2, s2⟩ := readField_on h b1 s1 e2
  obtain ⟨k3, b3, s3⟩ := readField_on h b2 s2 e3
  obtain ⟨k4, p4, b4, s4⟩ := readSpan_on (S' := S') b3 s3 e4
  obtain ⟨k5, s5⟩ := descLoop_on h .nitTs p4 w4 s4
  simp only [nitRecord, e1, e2, e3, e4, k1, k2, k3, k4, k5]
  exact ⟨trivial, b4, s5⟩

theorem nitBody_on {w : Work} (hr : w.lim ≤ B) (hw : w.sec = S) :
    nitBody (w.on S') = (nitBody w).on S' ∧ (nitBody w).sec = S := by
  rcases e1 : readField 2 (bodyReader w) w with ⟨x, r1, w1⟩
  rcases e2 : readSpan (x % 4096) r1 w1 with ⟨net, r2, w2⟩
  rcases e3 : readField 2 r2 (descLoop .nitNet net w2) with ⟨y, r3, w3⟩
  rcases e4 : readSpan (y % 4096) r3 w3 with ⟨ts, r4, w4⟩
  obtain ⟨k1, b1, s1⟩ := readField_on h hr hw e1
  obtain ⟨k2, p2, b2, s2⟩ := readSpan_on (S' := S') b1 s1 e2
  obtain ⟨k5, s5⟩ := descLoop_on h .nitNet p2 w2 s2
  obtain ⟨k3, b3, s3⟩ := readField_on h b2 s5 e3
  obtain ⟨k4, p4, b4, s4⟩ := readSpan_on (S' := S') b3 s3 e4
  have k0 : readField 2 (bodyReader (w.on S')) (w.on S') = _ := k1
  simp only [nitBody, e1, e2, e3, e4, k0, k2, k3, k4, k5]
  exact runRecords_on (nitRecord_on h) p4 w4 s4

theorem sdtRecord_on : LocalBody B S S' sdtRecord := by
  intro r w hr hw
  rcases e1 : readField 2 r w with ⟨sid, r1, w1⟩
  rcases e2 : readField 1 r1 w1 with ⟨fb, r2, w2⟩
  rcases e3 : readField 2 r2 w2 with ⟨x, r3, w3⟩
  rcases e4 : readSpan (x % 4096) r3 w3 with ⟨d, r4, w4⟩
  obtain ⟨k1, b1, s1⟩ := readField_on h hr hw e1
  obtain ⟨k2, b2, s2⟩ := readField_on h b1 s1 e2
  obtain ⟨k3, b3, s3⟩ := readField_on h b2 s2 e3
  obtain ⟨k4, p4, b4, s4⟩ := readSpan_on (S' := S') b3 s3 e4
  obtain ⟨k5, s5⟩ := descLoop_on h .sdtSvc p4 { w4 with record := serviceRecord sid fb x } s4
  have k6 : descLoop .sdtSvc d { w4.on S' with record := serviceRecord sid fb x } = _ := k5
  simp only [sdtRecord, e1, e2, e3, e4, k1, k2, k3, k4, k6]
  exact ⟨trivial, b4, s5⟩

theorem sdtBody_on {w : Work} (hr : w.lim ≤ B) (hw : w.sec = S) :
    sdtBody (w.on S') = (sdtBody w).on S' ∧ (sdtBody w).sec = S := by
  rcases e1 : readField 2 (bodyReader w) w with ⟨x, r1, w1⟩
  rcases e2 : readField 1 r1 w1 with ⟨y, r2, w2⟩
  obtain ⟨k1, b1, s1⟩ := readField_on h hr hw e1
  obtain ⟨k2, b2, s2⟩ := readField_on h b1 s1 e2
  have k0 : readField 2 (bodyReader (w.on S')) (w.on S') = _ := k1
  simp only [sdtBody, e1, e2, k0, k2]
  exact runRecords_on (sdtRecord_on h) b2 w2 s2

omit h in
theorem emitEvent_on (eid st du x : Nat) : Local S S' (emitEvent eid st du x) := by
  intro w hw
  unfold emitEvent
  cases hs : w.ev.hasShort
  · exact ⟨by simp [Work.on, hs], hw⟩
  · exact ⟨by simp [Work.on, hs, Work.emit], hw⟩

theorem eitRecord_on : LocalBody B S S' eitRecord := by
  intro r w hr hw
  rcases e1 : readField 2 r w with ⟨eid, r1, w1⟩
  rcases e2 : readField 5 r1 w1 with ⟨st, r2, w2⟩
  rcases e3 : readField 3 r2 w2 with ⟨du, r3, w3⟩
  rcases e4 : readField 2 r3 w3 with ⟨x, r4, w4⟩
  rcases e5 : readSpan (x % 4096) r4 w4 with ⟨d, r5, w5⟩
  obtain ⟨k1, b1, s1⟩ := readField_on h hr hw e1
  obtain ⟨k2, b2, s2⟩ := readField_on h b1 s1 e2
  obtain ⟨k3, b3, s3⟩ := readField_on h b2 s2 e3
  obtain ⟨k4, b4, s4⟩ := readField_on h b3 s3 e4
  obtain ⟨k5, p5, b5, s5⟩ := readSpan_on (S' := S') b4 s4 e5
  obtain ⟨k6, s6⟩ := descLoop_on h .eitEvt p5 { w5 with ev := EventAsm.new } s5
  obtain ⟨k7, s7⟩ := emitEvent_on (S' := S') eid st du x (descLoop .eitEvt d { w5 with ev := EventAsm.new }) s6
  have k8 : descLoop .eitEvt d { w5.on S' with ev := EventAsm.new } = _ := k6
  simp only [eitRecord, e1, e2, e3, e4, e5, k1, k2, k3, k4, k5, k8, k7]
  exact ⟨trivial, b5, s7⟩

theorem eitBody_on {w : Work} (hr : w.lim ≤ B) (hw : w.sec = S) :
    eitBody (w.on S') = (eitBody w).on S' ∧ (eitBody w).sec = S := by
  rcases e1 : readField 2 (bodyReader w) w with ⟨tsid, r1, w1⟩
  rcases e2 : readField 2 r1 w1 with ⟨onid, r2, w2⟩
  rcases e3 : readField 1 r2 w2 with ⟨sl, r3, w3⟩
  rcases e4 : readField 1 r3 w3 with ⟨lt, r4, w4⟩
  obtain ⟨k1, b1, s1⟩ := readField_on h hr hw e1
  obtain ⟨k2, b2, s2⟩ := readField_on h b1 s1 e2
  obtain ⟨k3, b3, s3⟩ := readField_on h b2 s2 e3
  obtain ⟨k4, b4, s4⟩ := readField_on h b3 s3 e4
  have k0 : readField 2 (bodyReader (w.on S')) (w.on S') = _ := k1
  simp only [eitBody, e1, e2, e3, e4, k0, k2, k3, k4]
  exact runRecords_on (eitRecord_on h) b4 (w4.emit (.eitHdr w4.src w4.index w4.tidExt (BitVec.ofNat 16 tsid)
    (BitVec.ofNat 16 onid) (BitVec.ofNat 8 sl) (BitVec.ofNat 8 lt))) s4

theorem patBody_on {w : Work} (hr : w.lim ≤ B) (hw : w.sec = S) :
    patBody (w.on S') = (patBody w).on S' ∧ (patBody w).sec = S := by
  unfold patBody
  exact runRecords_on (patEntry_on h) (show (bodyReader w).lim ≤ B from hr) w hw

/-- Every table row, on a body within the bound. -/
theorem runTable_on (i : Instr) {w : Work} (hr : w.lim ≤ B) (hw : w.sec = S) :
    runTable i (w.on S') = (runTable i w).on S' ∧ (runTable i w).sec = S :=
  match i with
  | .tblPat => patBody_on h hr hw
  | .tblNitAct | .tblNitOth => nitBody_on h hr hw
  | .tblSdtAct | .tblSdtOth => sdtBody_on h hr hw
  | .tblEitPfAct | .tblEitPfOth | .tblEitSchAct _ | .tblEitSchOth _ => eitBody_on h hr hw
  | .nop | .findSync | .parse | .run | .decode | .crc | .reservedCmd67 _ | .reservedCmd8F _ => ⟨rfl, hw⟩
  | .descNetworkName | .descServiceList | .descService => ⟨rfl, hw⟩
  | .descShortEvent | .descExtendedEvent | .descContent => ⟨rfl, hw⟩
  | .descSkip50 | .descSkip55 | .descSkip69 | .descSkip59 _ | .descOther _ _ => ⟨rfl, hw⟩

end

end Sys2Proof.Machine
end

