-- ==== Sys2Proof/Laws/Readers.lean ====
section
/-! SUPPORT. The bounded reader (45_descriptors.md R450) by its two outcomes, big-endian fields (20_memory.md R104), and
the record loop (R451) without its bound on the iterations. -/

namespace Sys2Proof.Machine

/-! ### Fields and spans -/

theorem readField_fit {n : Nat} {r : Reader} {w : Work} (h : r.cur + n ≤ r.lim) :
    readField n r w = (be w.sec r.cur n, ⟨r.cur + n, r.lim⟩, w) := by simp [readField, h]

theorem readField_short {n : Nat} {r : Reader} {w : Work} (h : r.lim < r.cur + n) :
    readField n r w = (0, ⟨r.lim, r.lim⟩, overflow w) := by simp [readField, Nat.not_le.2 h]

theorem readSpan_fit {n : Nat} {r : Reader} {w : Work} (h : r.cur + n ≤ r.lim) :
    readSpan n r w = (⟨r.cur, r.cur + n⟩, ⟨r.cur + n, r.lim⟩, w) := by simp [readSpan, Nat.not_lt.2 h]

theorem readSpan_clip {n : Nat} {r : Reader} {w : Work} (h : r.lim < r.cur + n) :
    readSpan n r w = (⟨r.cur, r.lim⟩, ⟨r.lim, r.lim⟩, overflow w) := by simp [readSpan, h]

/-- A span in one form: clipped to the limit, with the overflow recorded if it was. -/
theorem readSpan_eq (n : Nat) (r : Reader) (w : Work) :
    readSpan n r w = (⟨r.cur, min (r.cur + n) r.lim⟩, ⟨min (r.cur + n) r.lim, r.lim⟩,
      if r.cur + n ≤ r.lim then w else overflow w) := by
  by_cases hn : r.cur + n ≤ r.lim
  · rw [readSpan_fit hn, if_pos hn, Nat.min_eq_left hn]
  · rw [readSpan_clip (by omega), if_neg hn, Nat.min_eq_right (by omega)]

/-- A field in one form. -/
theorem readField_eq (n : Nat) (r : Reader) (w : Work) :
    readField n r w = (if r.cur + n ≤ r.lim then be w.sec r.cur n else 0, ⟨min (r.cur + n) r.lim, r.lim⟩,
      if r.cur + n ≤ r.lim then w else overflow w) := by
  by_cases hn : r.cur + n ≤ r.lim
  · rw [readField_fit hn, if_pos hn, if_pos hn, Nat.min_eq_left hn]
  · rw [readField_short (by omega), if_neg hn, if_neg hn, Nat.min_eq_right (by omega)]

/-! ### Big-endian numbers -/

theorem beNat_foldl_lt (bs : Bytes) (n m : Nat) (h : n < 256 ^ m) :
    bs.foldl (fun n b => n * 256 + b.toNat) n < 256 ^ (m + bs.length) := by
  induction bs generalizing n m with
  | nil => simpa using h
  | cons b bs ih =>
    have hb := b.isLt
    have := ih (n * 256 + b.toNat) (m + 1) (by rw [Nat.pow_succ]; omega)
    simpa [Nat.add_assoc, Nat.add_comm 1] using this

theorem beNat_lt (bs : Bytes) : beNat bs < 256 ^ bs.length := by
  have := beNat_foldl_lt bs 0 0 (by simp)
  rwa [Nat.zero_add] at this

theorem slice_length_le (S : Bytes) (i j : Nat) : (slice S i j).length ≤ j - i := by
  simp [slice]

/-- A field of n bytes is below 256^n. -/
theorem be_lt (S : Bytes) (i n : Nat) : be S i n < 256 ^ n :=
  Nat.lt_of_lt_of_le (beNat_lt _) (Nat.pow_le_pow_right (by decide) (by have := slice_length_le S i (i + n); omega))

theorem be_one_eq (S : Bytes) (i : Nat) : be S i 1 = (byteAt S i).toNat := by
  unfold be slice byteAt
  rw [show i + 1 - i = 1 by omega]
  by_cases h : i < S.length
  · have e : (S.drop i).take 1 = [S[i]] := by rw [List.drop_eq_getElem_cons h]; rfl
    simp [e, beNat, List.getD_eq_getElem?_getD, h]
  · have e : (S.drop i).take 1 = [] := by simp; omega
    rw [e, List.getD_eq_getElem?_getD, List.getElem?_eq_none (by omega)]
    rfl

/-! ### The record loop -/

/-- The body of a record loop advances its reader by at least the header and keeps inside the limit. -/
def Advances (h : Nat) (body : Reader → Work → Reader × Work) : Prop :=
  ∀ r w, r.cur + h ≤ r.lim → r.cur + h ≤ (body r w).1.cur ∧ (body r w).1.cur ≤ r.lim ∧ (body r w).1.lim = r.lim

theorem recordLoop_fuel {h : Nat} {body : Reader → Work → Reader × Work} (hh : 0 < h) (hb : Advances h body)
    (m n : Nat) (r : Reader) (w : Work) (hm : r.lim - r.cur ≤ m) (hn : r.lim - r.cur ≤ n) :
    recordLoop h body m r w = recordLoop h body n r w := by
  induction m generalizing n r w with
  | zero =>
    cases n with
    | zero => rfl
    | succ n =>
      unfold recordLoop
      rw [if_neg (by omega)]
  | succ m ih =>
    cases n with
    | zero =>
      unfold recordLoop
      rw [if_neg (by omega)]
    | succ n =>
      unfold recordLoop
      split
      · obtain ⟨h1, h2, h3⟩ := hb r w ‹_›
        exact ih n _ _ (by omega) (by omega)
      · rfl

/-- While a whole header fits, the body runs and the loop goes on (R451). -/
theorem runRecords_step {h : Nat} {body : Reader → Work → Reader × Work} (hh : 0 < h) (hb : Advances h body)
    {r : Reader} (w : Work) (hr : r.cur + h ≤ r.lim) :
    runRecords h body r w = runRecords h body (body r w).1 (body r w).2 := by
  obtain ⟨h1, h2, h3⟩ := hb r w hr
  unfold runRecords
  rw [recordLoop_fuel hh hb (r.lim - r.cur) (r.lim - r.cur + 1) r w (Nat.le_refl _) (by omega)]
  rw [recordLoop, if_pos hr]
  exact recordLoop_fuel hh hb _ _ _ _ (by omega) (Nat.le_refl _)

/-- When no header fits the loop ends, a remainder recording the overflow (R451). -/
theorem runRecords_end {h : Nat} {body : Reader → Work → Reader × Work} {r : Reader} (w : Work)
    (hr : ¬r.cur + h ≤ r.lim) : runRecords h body r w = loopRemainder r w := by
  unfold runRecords
  cases r.lim - r.cur with
  | zero => rfl
  | succ n => rw [recordLoop, if_neg hr]

/-- Records of a fixed size that each do `f` at their place: the loop is a fold over the places. -/
theorem runRecords_fixed {h : Nat} {body : Reader → Work → Reader × Work} (hh : 0 < h) (f : Nat → Work → Work)
    (hb : ∀ r w, r.cur + h ≤ r.lim → body r w = (⟨r.cur + h, r.lim⟩, f r.cur w)) (r : Reader) (w : Work)
    (hr : r.cur ≤ r.lim) :
    runRecords h body r w =
      (if (r.lim - r.cur) % h = 0 then id else overflow)
        ((List.range ((r.lim - r.cur) / h)).foldl (fun w k => f (r.cur + h * k) w) w) := by
  have adv : Advances h body := fun r w hr => by rw [hb r w hr]; exact ⟨Nat.le_refl _, hr, rfl⟩
  generalize hn : (r.lim - r.cur) / h = n
  induction n generalizing r w with
  | zero =>
    have hlt : r.lim - r.cur < h := by
      rcases Nat.div_eq_zero_iff.1 hn with h0 | h0
      · omega
      · exact h0
    rw [runRecords_end w (by omega), Nat.mod_eq_of_lt hlt]
    unfold loopRemainder
    by_cases h0 : r.cur < r.lim
    · rw [if_pos h0, if_neg (by omega)]; rfl
    · rw [if_neg h0, if_pos (by omega)]; rfl
  | succ n ih =>
    have hle : h ≤ r.lim - r.cur := by
      by_contra hlt
      rw [Nat.div_eq_of_lt (by omega)] at hn
      cases hn
    have e : r.lim - (r.cur + h) = r.lim - r.cur - h := by omega
    have hn' : (r.lim - (r.cur + h)) / h = n := by
      have := Nat.div_eq_sub_div hh hle
      rw [e]
      omega
    rw [runRecords_step hh adv w (by omega), hb r w (by omega), ih _ _ (by simp only; omega) hn']
    simp only [e]
    rw [← Nat.mod_eq_sub_mod hle, List.range_succ_eq_map, List.foldl_cons, List.foldl_map]
    have ef : (fun (v : Work) (k : Nat) => f (r.cur + h + h * k) v) = fun v k => f (r.cur + h * k.succ) v := by
      funext v k
      rw [Nat.mul_succ, Nat.add_assoc, Nat.add_comm h]
    rw [ef, Nat.mul_zero, Nat.add_zero]

end Sys2Proof.Machine
end

