-- ==== Sys2Proof/Laws/Loops.lean ====
section
/-! SUPPORT. Record loops whose records all have the fixed length of their header and emit one token each (PAT entries,
service-list entries: 45_descriptors.md R451). -/

namespace Sys2Proof.Machine

theorem foldl_emit {α : Type} (g : α → Token) (l : List α) (w : Work) :
    l.foldl (fun w k => w.emit (g k)) w = { w with out := w.out ++ l.map g } := by
  induction l generalizing w with
  | nil => simp
  | cons a l ih => rw [List.foldl_cons, ih]; simp

/-- Such a loop emits its tokens in order, and records the overflow for a remainder. -/
theorem runRecords_emit {h : Nat} (hh : 0 < h) {body : Reader → Work → Reader × Work}
    {g : BitVec 4 → Word → Bytes → Nat → Token}
    (hb : ∀ r w, r.cur + h ≤ r.lim → body r w = (⟨r.cur + h, r.lim⟩, w.emit (g w.src w.index w.sec r.cur)))
    (r : Reader) (w : Work) :
    runRecords h body r w = { w with
      out := w.out ++ (List.range ((r.lim - r.cur) / h)).map (fun k => g w.src w.index w.sec (r.cur + h * k))
      notes := w.notes ++ (if (r.lim - r.cur) % h = 0 then [] else [.descriptorOverflow])
      ovf := w.ovf || (r.lim - r.cur) % h != 0 } := by
  by_cases hr : r.cur ≤ r.lim
  · rw [runRecords_fixed hh (fun p w => w.emit (g w.src w.index w.sec p)) hb r w hr]
    have gen : ∀ (u : Work) (l : List Nat) (v : Work), v.src = u.src → v.index = u.index → v.sec = u.sec →
        l.foldl (fun v k => v.emit (g v.src v.index v.sec (r.cur + h * k))) v =
          l.foldl (fun v k => v.emit (g u.src u.index u.sec (r.cur + h * k))) v := by
      intro u l
      induction l with
      | nil => intros; rfl
      | cons a l ih => intro v h1 h2 h3; simp only [List.foldl_cons, h1, h2, h3]; exact ih _ h1 h2 h3
    rw [gen w _ w rfl rfl rfl, foldl_emit]
    by_cases hm : (r.lim - r.cur) % h = 0
    · simp [hm]
    · simp [hm, overflow]
  · rw [runRecords_end w (by omega), loopRemainder, if_neg (by omega), show r.lim - r.cur = 0 by omega]
    simp

end Sys2Proof.Machine
end

