-- ==== Sys2Proof/Laws/PerInstr.lean ====
section
/-! SUPPORT. Per instruction: its encoding stands in its row of spec/opcode_table.json (30_encoding.md R130). -/

namespace Sys2Proof

/-- The `format`, `mask` and `match` of a row of spec/opcode_table.json, and the mnemonic it stands under. -/
structure TableRow where
  mnemonic : String
  format : String
  mask : Nat
  pattern : Nat
  deriving DecidableEq, Repr

/-- The row of each instruction, copied from spec/opcode_table.json. -/
def Instr.row : Instr → TableRow
  | .nop => ⟨"NOP", "command", 0xF, 0x0⟩
  | .findSync => ⟨"FIND_SYNC", "command", 0xF, 0x1⟩
  | .parse => ⟨"PARSE", "command", 0xF, 0x2⟩
  | .run => ⟨"RUN", "command", 0xF, 0x3⟩
  | .decode => ⟨"DECODE", "command", 0xF, 0x4⟩
  | .crc => ⟨"CRC", "command", 0xF, 0x5⟩
  | .reservedCmd67 _ => ⟨"RESERVED_CMD_6_7", "command", 0xE, 0x6⟩
  | .reservedCmd8F _ => ⟨"RESERVED_CMD_8_F", "command", 0x8, 0x8⟩
  | .tblPat => ⟨"TBL_PAT", "table_id", 0xFF, 0x00⟩
  | .tblNitAct => ⟨"TBL_NIT_ACT", "table_id", 0xFF, 0x40⟩
  | .tblNitOth => ⟨"TBL_NIT_OTH", "table_id", 0xFF, 0x41⟩
  | .tblSdtAct => ⟨"TBL_SDT_ACT", "table_id", 0xFF, 0x42⟩
  | .tblSdtOth => ⟨"TBL_SDT_OTH", "table_id", 0xFF, 0x46⟩
  | .tblEitPfAct => ⟨"TBL_EIT_PF_ACT", "table_id", 0xFF, 0x4E⟩
  | .tblEitPfOth => ⟨"TBL_EIT_PF_OTH", "table_id", 0xFF, 0x4F⟩
  | .tblEitSchAct _ => ⟨"TBL_EIT_SCH_ACT", "table_id", 0xF0, 0x50⟩
  | .tblEitSchOth _ => ⟨"TBL_EIT_SCH_OTH", "table_id", 0xF0, 0x60⟩
  | .descNetworkName => ⟨"DESC_NETWORK_NAME", "descriptor_tag", 0xFF, 0x40⟩
  | .descServiceList => ⟨"DESC_SERVICE_LIST", "descriptor_tag", 0xFF, 0x41⟩
  | .descService => ⟨"DESC_SERVICE", "descriptor_tag", 0xFF, 0x48⟩
  | .descShortEvent => ⟨"DESC_SHORT_EVENT", "descriptor_tag", 0xFF, 0x4D⟩
  | .descExtendedEvent => ⟨"DESC_EXTENDED_EVENT", "descriptor_tag", 0xFF, 0x4E⟩
  | .descContent => ⟨"DESC_CONTENT", "descriptor_tag", 0xFF, 0x54⟩
  | .descSkip50 => ⟨"DESC_SKIP_50", "descriptor_tag", 0xFF, 0x50⟩
  | .descSkip55 => ⟨"DESC_SKIP_55", "descriptor_tag", 0xFF, 0x55⟩
  | .descSkip69 => ⟨"DESC_SKIP_69", "descriptor_tag", 0xFF, 0x69⟩
  | .descSkip59 _ => ⟨"DESC_SKIP_59", "descriptor_tag", 0xFF, 0x59⟩
  | .descOther _ _ => ⟨"DESC_OTHER", "descriptor_tag", 0x00, 0x00⟩

/-- The name spec/opcode_table.json gives a format. -/
def Format.name : Format → String
  | .command => "command"
  | .tableId _ => "table_id"
  | .descriptor _ => "descriptor_tag"

/-- An encoded instruction of a row: in its format, with the bits the mask selects as the row has them, and no bit above
the field its format reads (4 bits of a command, 8 of a table_id or a tag). -/
def Laws.EncodingRow.Statement (i : Instr) : Prop :=
  (encode i).format.name = i.row.format ∧ (encode i).bits.toNat &&& i.row.mask = i.row.pattern ∧
    (encode i).bits.toNat < (if (encode i).format = .command then 16 else 256)

theorem Laws.EncodingRow.nop : Laws.EncodingRow.Statement .nop := by
  unfold Laws.EncodingRow.Statement
  decide

theorem Laws.EncodingRow.findSync : Laws.EncodingRow.Statement .findSync := by
  unfold Laws.EncodingRow.Statement
  decide

theorem Laws.EncodingRow.parse : Laws.EncodingRow.Statement .parse := by
  unfold Laws.EncodingRow.Statement
  decide

theorem Laws.EncodingRow.run : Laws.EncodingRow.Statement .run := by
  unfold Laws.EncodingRow.Statement
  decide

theorem Laws.EncodingRow.decode : Laws.EncodingRow.Statement .decode := by
  unfold Laws.EncodingRow.Statement
  decide

theorem Laws.EncodingRow.crc : Laws.EncodingRow.Statement .crc := by
  unfold Laws.EncodingRow.Statement
  decide

theorem Laws.EncodingRow.reservedCmd67 (low : BitVec 1) : Laws.EncodingRow.Statement (.reservedCmd67 low) := by
  unfold Laws.EncodingRow.Statement
  revert low
  decide

theorem Laws.EncodingRow.reservedCmd8F (low : BitVec 3) : Laws.EncodingRow.Statement (.reservedCmd8F low) := by
  unfold Laws.EncodingRow.Statement
  revert low
  decide

theorem Laws.EncodingRow.tblPat : Laws.EncodingRow.Statement .tblPat := by
  unfold Laws.EncodingRow.Statement
  decide

theorem Laws.EncodingRow.tblNitAct : Laws.EncodingRow.Statement .tblNitAct := by
  unfold Laws.EncodingRow.Statement
  decide

theorem Laws.EncodingRow.tblNitOth : Laws.EncodingRow.Statement .tblNitOth := by
  unfold Laws.EncodingRow.Statement
  decide

theorem Laws.EncodingRow.tblSdtAct : Laws.EncodingRow.Statement .tblSdtAct := by
  unfold Laws.EncodingRow.Statement
  decide

theorem Laws.EncodingRow.tblSdtOth : Laws.EncodingRow.Statement .tblSdtOth := by
  unfold Laws.EncodingRow.Statement
  decide

theorem Laws.EncodingRow.tblEitPfAct : Laws.EncodingRow.Statement .tblEitPfAct := by
  unfold Laws.EncodingRow.Statement
  decide

theorem Laws.EncodingRow.tblEitPfOth : Laws.EncodingRow.Statement .tblEitPfOth := by
  unfold Laws.EncodingRow.Statement
  decide

theorem Laws.EncodingRow.tblEitSchAct (low : BitVec 4) : Laws.EncodingRow.Statement (.tblEitSchAct low) := by
  unfold Laws.EncodingRow.Statement
  revert low
  decide

theorem Laws.EncodingRow.tblEitSchOth (low : BitVec 4) : Laws.EncodingRow.Statement (.tblEitSchOth low) := by
  unfold Laws.EncodingRow.Statement
  revert low
  decide

theorem Laws.EncodingRow.descNetworkName : Laws.EncodingRow.Statement .descNetworkName := by
  unfold Laws.EncodingRow.Statement
  decide

theorem Laws.EncodingRow.descServiceList : Laws.EncodingRow.Statement .descServiceList := by
  unfold Laws.EncodingRow.Statement
  decide

theorem Laws.EncodingRow.descService : Laws.EncodingRow.Statement .descService := by
  unfold Laws.EncodingRow.Statement
  decide

theorem Laws.EncodingRow.descShortEvent : Laws.EncodingRow.Statement .descShortEvent := by
  unfold Laws.EncodingRow.Statement
  decide

theorem Laws.EncodingRow.descExtendedEvent : Laws.EncodingRow.Statement .descExtendedEvent := by
  unfold Laws.EncodingRow.Statement
  decide

theorem Laws.EncodingRow.descContent : Laws.EncodingRow.Statement .descContent := by
  unfold Laws.EncodingRow.Statement
  decide

theorem Laws.EncodingRow.descSkip50 : Laws.EncodingRow.Statement .descSkip50 := by
  unfold Laws.EncodingRow.Statement
  decide

theorem Laws.EncodingRow.descSkip55 : Laws.EncodingRow.Statement .descSkip55 := by
  unfold Laws.EncodingRow.Statement
  decide

theorem Laws.EncodingRow.descSkip69 : Laws.EncodingRow.Statement .descSkip69 := by
  unfold Laws.EncodingRow.Statement
  decide

theorem Laws.EncodingRow.descSkip59 (loop : DescLoop) : Laws.EncodingRow.Statement (.descSkip59 loop) := by
  unfold Laws.EncodingRow.Statement
  cases loop <;> decide

theorem Laws.EncodingRow.descOther (loop : DescLoop) (tag : Byte) :
    Laws.EncodingRow.Statement (.descOther loop tag) := by
  have h := tag.isLt
  refine ⟨rfl, by simp [Instr.row], ?_⟩
  simp only [encode, BitVec.toNat_setWidth, reduceCtorEq, if_false]
  omega

end Sys2Proof
end

