-- ==== Sys2Proof/Machine/Records.lean ====
section
/-! DEFINITION. The source's records as functions of the tokens the host pops (46_output.md R528-R533). They are views: no
state of the block holds one. -/

namespace Sys2Proof.Machine

/-! ### The bodies -/

/-- One PAT association (R529). -/
structure PatAssociation where
  programNumber : BitVec 16
  pid : BitVec 13
  isNit : Bool
  deriving DecidableEq, Repr

/-- The PAT record's associations, in token order (R529). -/
def patAssociations : List Token → List PatAssociation
  | [] => []
  | .patEntry _ _ pn _ pid z :: ts => ⟨pn, pid, z⟩ :: patAssociations ts
  | _ :: ts => patAssociations ts

/-- The NIT record's network name (R530): the text of the last NIT_NAME token, none when there is none. -/
def networkName (ts : List Token) : Option Bytes :=
  (ts.filterMap fun t => match t with
    | .nitName _ _ text => some text
    | _ => none).getLast?

/-- `map[sid] <- st` (R530): a key keeps the place of its first insertion. -/
def assignService : List (BitVec 16 × Byte) → BitVec 16 → Byte → List (BitVec 16 × Byte)
  | [], sid, st => [(sid, st)]
  | (k, v) :: m, sid, st => if k = sid then (k, st) :: m else (k, v) :: assignService m sid st

/-- The NIT record's service map (R530): the NIT_SERVICE tokens folded in order. -/
def serviceMap (ts : List Token) : List (BitVec 16 × Byte) :=
  ts.foldl (fun m t => match t with
    | .nitService _ _ sid st => assignService m sid st
    | _ => m) []

/-- One service of an SDT record (R531). -/
structure SdtService where
  serviceId : BitVec 16
  serviceType : Byte
  provider : Bytes
  name : Bytes
  deriving DecidableEq, Repr

/-- The SDT record's services, in token order (R531). -/
def sdtServices : List Token → List SdtService
  | [] => []
  | .sdtService _ _ rec st p n :: ts => ⟨rec.serviceId, st, p, n⟩ :: sdtServices ts
  | _ :: ts => sdtServices ts

/-- An EIT record's key (R532, R406). -/
structure EitKey where
  serviceId : BitVec 16
  tsid : BitVec 16
  onid : BitVec 16
  deriving DecidableEq, Repr

/-- The EIT record's key, from EIT_HDR (R532); none when there is no EIT_HDR (R533). -/
def eitKey : List Token → Option EitKey
  | [] => none
  | .eitHdr _ _ sid tsid onid _ _ :: _ => some ⟨sid, tsid, onid⟩
  | _ :: ts => eitKey ts

/-- The EIT record's events, in token order (R532). -/
def eitEvents : List Token → List EventItem
  | [] => []
  | .eitEvent _ _ e :: ts => e :: eitEvents ts
  | _ :: ts => eitEvents ts

/-- The body of a record, by the class it was decoded under. -/
inductive TableBody where
  /-- R529. -/
  | pat (associations : List PatAssociation)
  /-- R530. -/
  | nit (networkName : Option Bytes) (services : List (BitVec 16 × Byte))
  /-- R531. -/
  | sdt (services : List SdtService)
  /-- R532. -/
  | eit (key : Option EitKey) (events : List EventItem)
  /-- ANY decodes no body, NONE decodes nothing. -/
  | none
  deriving DecidableEq, Repr

/-- The body the tokens of a unit give under a class (R529-R533). -/
def tableBody (cls : TableClass) (ts : List Token) : TableBody :=
  match cls with
  | .pat => .pat (patAssociations ts)
  | .nit => .nit (networkName ts) (serviceMap ts)
  | .sdt => .sdt (sdtServices ts)
  | .eit => .eit (eitKey ts) (eitEvents ts)
  | .none => .none
  | .any => .none

/-! ### The record of a unit -/

/-- A TableRecord (R528): the common header, the CRC warning, the DescriptorOverflow record and the body. -/
structure TableRecord where
  header : SectionHeader
  crcWarning : Bool
  overflow : Bool
  body : TableBody
  deriving DecidableEq, Repr

/-- `TableRecord | Error` (R528). -/
inductive DecodeOutcome where
  /-- `SEC_END.error`: 2, 3 or 7. -/
  | error (code : BitVec 4)
  | record (r : TableRecord)
  deriving DecidableEq, Repr

/-- The unit a token belongs to; a PKT belongs to none (R161). -/
def Token.unit? : Token → Option (BitVec 4 × Word)
  | .pkt _ _ => none
  | .secRaw s i _ _ | .secHdr s i _ | .patEntry s i _ _ _ _ | .nitName s i _ | .nitService s i _ _ => some (s, i)
  | .sdtService s i _ _ _ _ | .eitHdr s i _ _ _ _ _ | .eitEvent s i _ | .secEnd s i _ _ _ => some (s, i)

/-- The tokens of one unit, "read up to its SEC_END" (R528), which is the last of them; and the tokens popped after it. None
when there is no SEC_END of the unit. A later unit with the same (src, index), of another command, is in the rest. -/
def splitUnit (src : BitVec 4) (index : Word) : List Token → Option (List Token × List Token)
  | [] => none
  | t :: ts =>
    if t.unit? = some (src, index) then
      match t with
      | .secEnd _ _ _ _ _ => some ([t], ts)
      | _ => (splitUnit src index ts).map fun r => (t :: r.1, r.2)
    else splitUnit src index ts

/-- The SEC_HDR of a unit's tokens. -/
def headerOf : List Token → Option SectionHeader
  | [] => none
  | .secHdr _ _ h :: _ => some h
  | _ :: ts => headerOf ts

/-- The error, CRC status and overflow flag of a unit's SEC_END. -/
def endOf : List Token → Option (BitVec 4 × BitVec 2 × Bool)
  | [] => none
  | .secEnd _ _ e c o :: _ => some (e, c, o)
  | _ :: ts => endOf ts

/-- The result of `decode(section_bytes, cls)` as one unit's tokens give it (R528). -/
def unitOutcome (cls : TableClass) (us : List Token) : Option DecodeOutcome :=
  match endOf us, headerOf us with
  | none, _ => none
  | some (e, c, o), h =>
    if e ≠ 0 then some (.error e) else h.map fun h => .record ⟨h, c == 2, o, tableBody cls us⟩

/-- The result of `decode(section_bytes, cls)` as the first unit (src, index) of the popped tokens gives it (R528), and the
tokens after its SEC_END, where the next unit is read; none when they hold no SEC_END of the unit. -/
def decodeOutcome (cls : TableClass) (src : BitVec 4) (index : Word) (ts : List Token) :
    Option (DecodeOutcome × List Token) :=
  match splitUnit src index ts with
  | none => none
  | some (us, rest) => (unitOutcome cls us).map fun r => (r, rest)

end Sys2Proof.Machine
end

