-- ==== Sys2Proof/Laws/Records.lean ====
section
/-! SUPPORT. The records of R528: what reading a unit up to its SEC_END finds. -/

namespace Sys2Proof.Machine

/-- What `splitUnit` finds: tokens of the unit only, of which the last and no other is a SEC_END; what follows it is left
as it is. -/
theorem splitUnit_some {src : BitVec 4} {index : Word} {ts us rest : List Token}
    (h : splitUnit src index ts = some (us, rest)) :
    ∃ front e cs ovf, us = front ++ [.secEnd src index e cs ovf] ∧
      (∀ t ∈ front, t.unit? = some (src, index) ∧ ∀ e cs ovf, t ≠ .secEnd src index e cs ovf) ∧ rest <:+ ts := by
  induction ts generalizing us rest with
  | nil => cases h
  | cons t ts ih =>
    unfold splitUnit at h
    split at h
    · rename_i hu
      split at h
      · rename_i s i e cs ovf
        obtain ⟨rfl, rfl⟩ : s = src ∧ i = index := by simpa [Token.unit?] using hu
        obtain ⟨rfl, rfl⟩ : [Token.secEnd s i e cs ovf] = us ∧ ts = rest := by simpa using h
        exact ⟨[], e, cs, ovf, rfl, by simp, List.suffix_cons ..⟩
      · rename_i hn
        obtain ⟨r, hr, he⟩ := Option.map_eq_some_iff.1 h
        obtain ⟨rfl, rfl⟩ : t :: r.1 = us ∧ r.2 = rest := by simpa using he
        obtain ⟨front, e, cs, ovf, h1, h2, h3⟩ := ih hr
        refine ⟨t :: front, e, cs, ovf, by rw [h1]; rfl, fun x hx => ?_, h3.trans (List.suffix_cons ..)⟩
        rcases List.mem_cons.1 hx with rfl | hx
        · exact ⟨hu, fun _ _ _ => hn _ _ _ _ _⟩
        · exact h2 x hx
    · obtain ⟨front, e, cs, ovf, h1, h2, h3⟩ := ih h
      exact ⟨front, e, cs, ovf, h1, h2, h3.trans (List.suffix_cons ..)⟩

end Sys2Proof.Machine
end

