-- ==== Sys2Proof/Laws/Time.lean ====
section
/-! SUPPORT. EIT time arithmetic: `mjdDate` by its intermediate values, and the bounds of BCD. -/

namespace Sys2Proof.Machine

/-- `MjdDate` (R420) by its intermediate values: the year and month from Mp, with the formula's K worked in. -/
theorem mjdDate_eq {mjd y n m : Int} (hy : y = (100 * mjd - 1507820) / 36525)
    (hn : n = mjd - 14956 - 36525 * y / 100) (hm : m = (10000 * n - 1000) / 306001) :
    mjdDate mjd = if m = 14 ∨ m = 15 then (1901 + y, m - 13, n - 306001 * m / 10000)
      else (1900 + y, m - 1, n - 306001 * m / 10000) := by
  have e : mjdDate mjd = (1900 + y + if m = 14 ∨ m = 15 then 1 else 0,
      m - 1 - 12 * (if m = 14 ∨ m = 15 then 1 else 0), n - 306001 * m / 10000) := by
    subst hm hn hy
    rfl
  rw [e]
  split <;> simp only [Prod.mk.injEq, and_true] <;> constructor <;> ring

theorem bcd_le (b : Nat) : bcd b ≤ 165 := by
  unfold bcd
  omega

end Sys2Proof.Machine
end

