-- ==== Sys2Proof/Tests/Slice0.lean ====
section
/-! SUPPORT. The model's own tests. Expected values come from spec/: the encodings of 30_encoding.md, the vectors of
95_test_vectors.md (named in the comments) or a hand calculation from the rule named. Then, for each statement with
hypotheses, a state and operands that meet them. -/

namespace Sys2Proof.Tests

open Sys2Proof.Machine

/-! ### WellFormed (R481): DESC_OTHER stands for no pair that has a row of its own -/

theorem test_wf_refuses_skip59_in_every_loop :
    ∀ loop ∈ [DescLoop.nitNet, .nitTs, .sdtSvc, .eitEvt], (Instr.descOther loop 0x59#8).wellFormed = false := by decide

theorem test_wf_refuses_nit_and_sdt_rows :
    (Instr.descOther .nitNet 0x40#8).wellFormed = false ∧ (Instr.descOther .nitTs 0x41#8).wellFormed = false ∧
    (Instr.descOther .sdtSvc 0x48#8).wellFormed = false := by decide

theorem test_wf_refuses_eit_rows :
    ∀ tag ∈ [0x4D#8, 0x4E#8, 0x54#8, 0x50#8, 0x55#8, 0x69#8], (Instr.descOther .eitEvt tag).wellFormed = false := by
  decide

/-- V-NIT-6, V-SDT-4, V-EIT-9, V-EIT-10: the pairs the vectors skip as "other". -/
theorem test_wf_accepts_other_pairs :
    (Instr.descOther .nitNet 0x41#8).wellFormed = true ∧ (Instr.descOther .nitTs 0x40#8).wellFormed = true ∧
    (Instr.descOther .sdtSvc 0x50#8).wellFormed = true ∧ (Instr.descOther .eitEvt 0x80#8).wellFormed = true ∧
    (Instr.descOther .eitEvt 0x48#8).wellFormed = true ∧ (Instr.descOther .eitEvt 0x02#8).wellFormed = true := by decide

/-! ### Decoding: each constructor from a word written out from R131, R145, R146 -/

theorem test_decode_commands :
    decode ⟨.command, 0b0000#32⟩ = .ok .nop ∧ decode ⟨.command, 0b0001#32⟩ = .ok .findSync ∧
    decode ⟨.command, 0b0010#32⟩ = .ok .parse ∧ decode ⟨.command, 0b0011#32⟩ = .ok .run ∧
    decode ⟨.command, 0b0100#32⟩ = .ok .decode ∧ decode ⟨.command, 0b0101#32⟩ = .ok .crc := ⟨rfl, rfl, rfl, rfl, rfl, rfl⟩

theorem test_decode_reserved_commands :
    decode ⟨.command, 0b0110#32⟩ = .ok (.reservedCmd67 0#1) ∧ decode ⟨.command, 0b0111#32⟩ = .ok (.reservedCmd67 1#1) ∧
    decode ⟨.command, 0b1000#32⟩ = .ok (.reservedCmd8F 0b000#3) ∧
    decode ⟨.command, 0b1111#32⟩ = .ok (.reservedCmd8F 0b111#3) := ⟨rfl, rfl, rfl, rfl⟩

theorem test_decode_tables :
    decode ⟨.tableId .pat, 0x00#32⟩ = .ok .tblPat ∧ decode ⟨.tableId .nit, 0x40#32⟩ = .ok .tblNitAct ∧
    decode ⟨.tableId .nit, 0x41#32⟩ = .ok .tblNitOth ∧ decode ⟨.tableId .sdt, 0x42#32⟩ = .ok .tblSdtAct ∧
    decode ⟨.tableId .sdt, 0x46#32⟩ = .ok .tblSdtOth := ⟨rfl, rfl, rfl, rfl, rfl⟩

theorem test_decode_eit_tables :
    decode ⟨.tableId .eit, 0x4E#32⟩ = .ok .tblEitPfAct ∧ decode ⟨.tableId .eit, 0x4F#32⟩ = .ok .tblEitPfOth ∧
    decode ⟨.tableId .eit, 0x50#32⟩ = .ok (.tblEitSchAct 0x0#4) ∧
    decode ⟨.tableId .eit, 0x5F#32⟩ = .ok (.tblEitSchAct 0xF#4) ∧
    decode ⟨.tableId .eit, 0x60#32⟩ = .ok (.tblEitSchOth 0x0#4) ∧
    decode ⟨.tableId .eit, 0x6F#32⟩ = .ok (.tblEitSchOth 0xF#4) := ⟨rfl, rfl, rfl, rfl, rfl, rfl⟩

/-- The neighbours of the EIT range are refused by name (R147). -/
theorem test_decode_refuses_by_name :
    decode ⟨.tableId .eit, 0x4D#32⟩ = .error (.unexpectedTableId .eit 0x4D#8) ∧
    decode ⟨.tableId .eit, 0x70#32⟩ = .error (.unexpectedTableId .eit 0x70#8) ∧
    decode ⟨.tableId .pat, 0x42#32⟩ = .error (.unexpectedTableId .pat 0x42#8) ∧
    decode ⟨.tableId .any, 0x00#32⟩ = .error (.noBody .any) := ⟨rfl, rfl, rfl, rfl⟩

theorem test_decode_descriptors :
    decode ⟨.descriptor .nitNet, 0x40#32⟩ = .ok .descNetworkName ∧
    decode ⟨.descriptor .nitTs, 0x41#32⟩ = .ok .descServiceList ∧
    decode ⟨.descriptor .sdtSvc, 0x48#32⟩ = .ok .descService ∧
    decode ⟨.descriptor .eitEvt, 0x4D#32⟩ = .ok .descShortEvent ∧
    decode ⟨.descriptor .eitEvt, 0x4E#32⟩ = .ok .descExtendedEvent ∧
    decode ⟨.descriptor .eitEvt, 0x54#32⟩ = .ok .descContent := ⟨rfl, rfl, rfl, rfl, rfl, rfl⟩

theorem test_decode_skipped_descriptors :
    decode ⟨.descriptor .eitEvt, 0x50#32⟩ = .ok .descSkip50 ∧ decode ⟨.descriptor .eitEvt, 0x55#32⟩ = .ok .descSkip55 ∧
    decode ⟨.descriptor .eitEvt, 0x69#32⟩ = .ok .descSkip69 ∧
    decode ⟨.descriptor .sdtSvc, 0x59#32⟩ = .ok (.descSkip59 .sdtSvc) ∧
    decode ⟨.descriptor .nitNet, 0x41#32⟩ = .ok (.descOther .nitNet 0x41#8) := ⟨rfl, rfl, rfl, rfl, rfl⟩

/-- Every row of the opcode table is read from its word as the table numbers it (log 9). -/
theorem test_table_words :
    decodeTableWord 8 0x03 = some .run ∧ decodeTableWord 8 0x0E = some (.reservedCmd8F 0b110#3) ∧
    decodeTableWord 32 0x06 = some (.reservedCmd67 0#1) ∧ decodeTableWord 8 0x40 = some .tblNitAct ∧
    decodeTableWord 8 0x46 = some .tblSdtOth ∧ decodeTableWord 8 0x4F = some .tblEitPfOth ∧
    decodeTableWord 8 0x6B = some (.tblEitSchOth 0xB#4) ∧ decodeTableWord 8 0x48 = some .descService ∧
    decodeTableWord 8 0x54 = some .descContent ∧ decodeTableWord 8 0x59 = some (.descSkip59 .eitEvt) ∧
    decodeTableWord 8 0x80 = some (.descOther .eitEvt 0x80#8) := by decide

/-! ### Small states -/

/-- A block of the smallest capture memory, two contexts and a one-token FIFO, right after reset. -/
def tiny : State := State.initial ⟨376, 2, 4352, 1⟩

/-- The bytes `bs` written from address `a` on. -/
def cells (a : Nat) : Bytes → Memory
  | [] => []
  | b :: bs => (a, b) :: cells (a + 1) bs

/-- `tiny` with the capture memory `m` and the region [a, e). -/
def withRegion (m : Memory) (a e : Word) : State := { tiny with mem := m, start := a, endOff := e }

/-- The state after the host's write of `v` to CMD. -/
def afterCommand (v : Word) (s : State) : Option State :=
  match step { s with schedule := [.host (.csrWrite 0x000 v)] } with
  | .next t => some t
  | .fault _ => none
  | .refused _ => none

/-- The working values after one step of a section decode at the body dispatch of `S`, whose body is [9, lim). -/
def afterTable (cls : TableClass) (ext : BitVec 16) (S : Bytes) : Option Work :=
  match step { tiny with
    phase := .busy
    decoder := { Work.start S cls 0xF#4 0 with tstart := 1, lim := S.length - 4, tidExt := ext, stage := .table } } with
  | .next t => some t.decoder
  | .fault _ => none
  | .refused _ => none

/-- The working values after one step of a section decode in a descriptor loop over all of `S`. -/
def afterDescriptor (loop : DescLoop) (S : Bytes) : Option Work :=
  match step { tiny with
    phase := .busy
    decoder := { Work.start S .any 0xF#4 0 with
      rd := ⟨0, S.length⟩
      loop := loop
      record := ⟨268, false, false, 4, false⟩
      stage := .descriptor } } with
  | .next t => some t.decoder
  | .fault _ => none
  | .refused _ => none

/-- S_PAT of 95_test_vectors.md section 0, behind its pointer byte. -/
def unitPat : Bytes :=
  [0x00, 0x00, 0xB0, 0x0D, 0x00, 0x01, 0xC1, 0x00, 0x00, 0x00, 0x01, 0xF0, 0x00, 0x2A, 0xB1, 0x04, 0xB2]

/-- S_PAT's header (95_test_vectors.md section 0). -/
def headerPat : SectionHeader :=
  { pointerField := 0, tableId := 0, ssi := true, priv := false, rsv1 := 3, sectionLength := 13, tidExt := 1, rsv2 := 3,
    version := 0, currentNext := true, sectionNumber := 0, lastSectionNumber := 0, crcStored := 0x2AB104B2#32,
    crcCalc := 0x2AB104B2#32, crcStatus := 1 }

/-- A PUSI packet of PID 0 whose adaptation field leaves room for exactly `unitPat`, and the sync byte after it. -/
def patPacket : Memory :=
  cells 0 [0x47, 0x40, 0x00, 0x30, 0xA6] ++ cells 171 unitPat ++ cells 188 [0x47]

/-- A PUSI packet of PID 0x20 without payload (V-RUN-6), and the sync byte after it. -/
def emptyPacket : Memory := cells 0 [0x47, 0x40, 0x20, 0x20, 0xB7] ++ cells 188 [0x47]

/-- The slot of a context with CTX_CFG = `v`. -/
def slot (v : Word) : CtxSlot := { CtxSlot.initial with cfg := CtxCfg.ofWord v }

/-! ### The commands -/

/-- R181, R131: bits 31:4 are ignored; DONE is cleared at acceptance. -/
theorem test_nop :
    afterCommand 0x10#32 { tiny with op := 5, done := true } = some { tiny with phase := .busy } := by decide

/-- V-FS-3. -/
theorem test_find_sync :
    (afterCommand 1 (withRegion [(0, 0x47), (188, 0x47)] 0 189)).map (fun t => (t.compl.syncOff, t.notes, t.pend)) =
      some (some 0, [], []) := by decide

/-- V-FS-4. -/
theorem test_find_sync_of_an_empty_region :
    (afterCommand 1 (withRegion [] 5 5)).map (fun t => (t.compl.syncOff, t.notes)) =
      some (some 0xFFFFFFFF#32, [.notSynchronized]) := by decide

/-- V-PA-7, packet B. -/
theorem test_parse :
    (afterCommand 2 (withRegion emptyPacket 0 189)).map (fun t => (t.pend, t.compl.pktCount, t.compl.frPos)) =
      some ([.pkt 0xF#4 ⟨0, false, true, false, 0x20, 0, 2, 0, []⟩], some 1, some 188) := by decide

/-- R212: a filtered packet is counted and not kept. -/
theorem test_parse_filtered :
    (afterCommand 2 { withRegion emptyPacket 0 189 with pidfEn := true, pidfPid := 0x21 }).map
      (fun t => (t.pend, t.compl.pktCount, t.compl.pktKept)) = some ([], some 1, some 0) := by decide

/-- V-RUN-6. -/
theorem test_run_unit_without_payload :
    (afterCommand 3 { withRegion emptyPacket 0 189 with ctxs := [slot 0x00030020#32, slot 0xC000#32] }).map
      (fun t => (t.pend, t.compl.ctxResults, t.compl.secCount)) =
      some ([.secEnd 0 0 2 0 false], some [(1, .collect), (0, .idle)], some 1) := by decide

/-- V-RUN-5, with a longer adaptation field, in context 1. -/
theorem test_run_pat :
    (afterCommand 3 { withRegion patPacket 0 189 with ctxs := [slot 0xC000#32, slot 0x00010000#32] }).map
      (fun t => (t.pend, t.notes)) =
      some ([.secHdr 1 0 headerPat, .patEntry 1 0 1 7 0x1000 false, .secEnd 1 0 0 1 false], []) := by decide +kernel

/-- V-DEC-1. -/
theorem test_decode_pat :
    (afterCommand 4 { withRegion (cells 0 unitPat) 0 17 with decClass := .pat }).map
      (fun t => (t.pend, t.notes, t.compl.crcResult)) =
      some ([.secHdr 0xF 0 headerPat, .patEntry 0xF 0 1 7 0x1000 false, .secEnd 0xF 0 0 1 false], [],
        some 0x2AB104B2#32) := by decide +kernel

/-- V-DEC-7. -/
theorem test_decode_bad_length :
    (afterCommand 4 { withRegion (cells 0 [0x00, 0x00, 0xBF, 0xFF, 0x00]) 0 5 with decClass := .pat }).map
      (fun t => (t.pend, t.notes, t.compl.crcResult)) =
      some ([.secEnd 0xF 0 7 0 false], [.badSectionLength], none) := by decide

/-- V-CRC-2. -/
theorem test_crc :
    (afterCommand 5 (withRegion (cells 0 [0x31, 0x32, 0x33, 0x34, 0x35, 0x36, 0x37, 0x38, 0x39]) 0 9)).map
      (fun t => t.compl.crcResult) = some (some 0x0376E6E7#32) := by decide +kernel

/-- R42, R608: an END beyond CAP_SIZE. -/
theorem test_crc_of_an_illegal_region :
    (afterCommand 5 (withRegion [] 0 377)).map (fun t => (t.pend, t.notes, t.compl)) =
      some ([], [.badRegion], Completion.empty) := by decide

/-- R180. -/
theorem test_reserved_6_7 :
    (afterCommand 7 tiny).map (fun t => (t.op, t.notes, (engineStep t).errCode, (engineStep t).statusWord)) =
      some (7, [.badCommand], 10, 0x00020006#32) := by decide

/-- R180. -/
theorem test_reserved_8_F :
    (afterCommand 0xFFFFFFF8#32 tiny).map
      (fun t => (t.op, t.notes, (engineStep t).errCode, (engineStep t).statusWord)) =
      some (8, [.badCommand], 10, 0x00020006#32) := by decide

/-- R34, R36: a command while BUSY. -/
theorem test_command_while_busy :
    afterCommand 3 { tiny with phase := .busy } = some { tiny with phase := .busy, errs := 0x800#12 } := by decide

/-! ### The tables -/

/-- V-PAT-2. -/
theorem test_tbl_pat :
    (afterTable .pat 1 [0x00, 0x00, 0xB0, 0x0F, 0x00, 0x01, 0xC1, 0x00, 0x00, 0x00, 0x01, 0xF0, 0x00, 0x00, 0x02, 0xB1,
      0x3B, 0x86, 0xD0]).map (fun w => (w.out, w.notes, w.ovf, w.stage)) =
      some ([.patEntry 0xF 0 1 7 0x1000 false], [.descriptorOverflow], true, .close) := by decide

/-- V-NIT-7. -/
theorem test_tbl_nit_act :
    (afterTable .nit 1 [0x00, 0x40, 0xB0, 0x1A, 0x00, 0x01, 0xC1, 0x00, 0x00, 0xF0, 0x00, 0xF0, 0x0B, 0x00, 0x01, 0x00,
      0x02, 0xF0, 0x05, 0x41, 0x05, 0x01, 0x0C, 0x1F, 0x41, 0x42, 0xA3, 0x49, 0x81, 0x79]).map
      (fun w => (w.out, w.notes)) = some ([.nitService 0xF 0 268 0x1F], [.descriptorOverflow]) := by decide

/-- V-NIT-5 under table_id 0x41. -/
theorem test_tbl_nit_oth :
    (afterTable .nit 1 [0x00, 0x41, 0xB0, 0x11, 0x00, 0x01, 0xC1, 0x00, 0x00, 0xF0, 0x04, 0x40, 0x05, 0x41, 0x42, 0xF0,
      0x00, 0xC8, 0x00, 0x05, 0x73]).map (fun w => (w.out, w.notes)) =
      some ([.nitName 0xF 0 [0x41, 0x42]], [.descriptorOverflow]) := by decide

/-- V-SDT-5. -/
theorem test_tbl_sdt_act :
    (afterTable .sdt 1 [0x00, 0x42, 0xB0, 0x13, 0x00, 0x01, 0xC1, 0x00, 0x00, 0x00, 0x01, 0xFF, 0x01, 0x0C, 0xFC, 0x80,
      0x02, 0x48, 0x00, 0x77, 0x2F, 0x89, 0xAF]).map (fun w => (w.out, w.ovf)) =
      some ([.sdtService 0xF 0 ⟨268, false, false, 4, false⟩ 0 [] []], true) := by decide

/-- V-SDT-6. -/
theorem test_tbl_sdt_oth :
    (afterTable .sdt 1 [0x00, 0x46, 0xB0, 0x17, 0x00, 0x01, 0xC1, 0x00, 0x00, 0x00, 0x01, 0xFF, 0x00, 0x05, 0xFF, 0x30,
      0x06, 0x48, 0x04, 0x02, 0x00, 0x01, 0x52, 0x11, 0xE2, 0x97, 0x78]).map (fun w => (w.out, w.notes)) =
      some ([.sdtService 0xF 0 ⟨5, true, true, 1, true⟩ 2 [] [0x52]], []) := by decide

/-- V-EIT-6. -/
theorem test_tbl_eit_pf_act :
    (afterTable .eit 5 [0x00, 0x4E, 0xB0, 0x22, 0x00, 0x05, 0xC1, 0x00, 0x00, 0x00, 0x01, 0x20, 0xFA, 0x00, 0x4E, 0x00,
      0x07, 0xC0, 0x79, 0x23, 0x30, 0x00, 0x01, 0x45, 0x00, 0x80, 0x07, 0x4D, 0x05, 0x65, 0x6E, 0x67, 0x00, 0x00, 0x61,
      0x0D, 0xF6, 0x01]).map (fun w => (w.out, w.notes)) =
      some ([.eitHdr 0xF 0 5 1 0x20FA 0 0x4E,
        .eitEvent 0xF 0 ⟨5, 7, 0xC079233000#40, ⟨1993, 10, 13, 23, 30, 0⟩, 0x014500#24, 6300, ⟨1993, 10, 14, 1, 15, 0⟩,
          4, false, 0x656E67#24, [], [], [], false, []⟩], []) := by decide

/-- V-EIT-2. -/
theorem test_tbl_eit_pf_oth :
    (afterTable .eit 5 [0x00, 0x4F, 0xB0, 0x0F, 0x00, 0x05, 0xC1, 0x00, 0x00, 0x00, 0x01, 0x20, 0xFA, 0x00, 0x4F, 0xDE,
      0xDE, 0x03, 0x9A]).map (fun w => (w.out, w.ovf)) = some ([.eitHdr 0xF 0 5 1 0x20FA 0 0x4F], false) := by decide

/-- V-EIT-3. -/
theorem test_tbl_eit_sch_act :
    (afterTable .eit 5 [0x00, 0x50, 0xB0, 0x0D, 0x00, 0x05, 0xC1, 0x00, 0x00, 0x00, 0x01, 0x20, 0xFA, 0xB3, 0x49, 0x82,
      0x62]).map (fun w => (w.out, w.ovf)) = some ([.eitHdr 0xF 0 5 1 0x20FA 0 0], true) := by decide

/-- V-EIT-4. -/
theorem test_tbl_eit_sch_oth :
    (afterTable .eit 5 [0x00, 0x60, 0xB0, 0x1A, 0x00, 0x05, 0xC1, 0x00, 0x00, 0x00, 0x01, 0x20, 0xFA, 0x00, 0x6F, 0x00,
      0x00, 0x00, 0x00, 0x00, 0x00, 0x00, 0x00, 0x00, 0x00, 0x00, 0xFB, 0xF1, 0x92, 0x74]).map
      (fun w => (w.out, w.notes)) = some ([.eitHdr 0xF 0 5 1 0x20FA 0 0x6F], [.descriptorOverflow]) := by decide

/-! ### The descriptors -/

/-- V-NIT-8: the first of two network names, and where the loop goes on. -/
theorem test_desc_network_name :
    (afterDescriptor .nitNet [0x40, 0x01, 0x41, 0x40, 0x01, 0x42]).map (fun w => (w.out, w.rd)) =
      some ([.nitName 0xF 0 [0x41]], ⟨3, 6⟩) := by decide

/-- V-NIT-7. -/
theorem test_desc_service_list :
    (afterDescriptor .nitTs [0x41, 0x05, 0x01, 0x0C, 0x1F, 0x41, 0x42]).map (fun w => (w.out, w.ovf)) =
      some ([.nitService 0xF 0 268 0x1F], true) := by decide

/-- R465, R453: a name longer than the body is clipped. -/
theorem test_desc_service :
    (afterDescriptor .sdtSvc [0x48, 0x05, 0x1F, 0x01, 0x43, 0x09, 0x54, 0x77]).map (fun w => (w.out, w.notes)) =
      some ([.sdtService 0xF 0 ⟨268, false, false, 4, false⟩ 0x1F [0x43] [0x54]], [.descriptorOverflow]) := by decide

/-- V-EIT-5. -/
theorem test_desc_short_event :
    (afterDescriptor .eitEvt [0x4D, 0x07, 0x65, 0x6E, 0x67, 0x01, 0x41, 0x01, 0x42]).map
      (fun w => (w.ev.hasShort, w.ev.lang, w.ev.name, w.ev.text, w.ovf)) =
      some (true, 0x656E67#24, [0x41], [0x42], false) := by decide

/-- V-EIT-1. -/
theorem test_desc_extended_event :
    (afterDescriptor .eitEvt [0x4E, 0x09, 0x11, 0x63, 0x65, 0x73, 0x00, 0x03, 0x44, 0x45, 0x46]).map
      (fun w => (w.ev.ext[0], w.ev.ext[1], w.ev.hasShort)) = some (none, some [0x44, 0x45, 0x46], false) := by decide

/-- V-EIT-1. -/
theorem test_desc_content :
    (afterDescriptor .eitEvt [0x54, 0x02, 0x23, 0x00]).map (fun w => (w.ev.hasContent, w.ev.content, w.ovf)) =
      some (true, [⟨2, 3, 0⟩], false) := by decide

/-- V-EIT-8. -/
theorem test_desc_content_of_odd_length :
    (afterDescriptor .eitEvt [0x54, 0x01, 0x12]).map (fun w => (w.ev.hasContent, w.ev.content, w.notes)) =
      some (true, [], [.descriptorOverflow]) := by decide

/-- V-EIT-1, V-EIT-9, V-SDT-4: each is skipped, and the loop goes on after its body. -/
theorem test_desc_skips :
    ∀ x ∈ [(DescLoop.eitEvt, (0x50 : Byte)), (.eitEvt, 0x55), (.eitEvt, 0x69), (.nitTs, 0x59), (.sdtSvc, 0x50)],
      (afterDescriptor x.1 [x.2, 0x02, 0x01, 0x02, 0x00]).map (fun w => (w.out, w.ev, w.ovf, w.rd)) =
        some ([], EventAsm.new, false, ⟨4, 5⟩) := by decide

/-! ### The functions -/

/-- 95_test_vectors.md section 2.11. -/
theorem test_mjd_date :
    mjdDate 0 = (1858, 11, 18) ∧ mjdDate 15078 = (1900, 2, 29) ∧ mjdDate 15079 = (1900, 3, 1) ∧
    mjdDate 49273 = (1993, 10, 13) := by decide

/-- V-EIT-7. -/
theorem test_all_ones_times :
    startTime 0xFFFFFFFFFF = ⟨2038, 4, 22, 165, 165, 165⟩ ∧ bcdSeconds 0xFFFFFF = 604065 ∧
    finishTime 0xFFFFFFFFFF 0xFFFFFF = ⟨2038, 5, 5, 23, 35, 30⟩ := by decide

/-- R206 at its boundary, V-PA-7: an adaptation field of 183 bytes leaves no payload, one of 182 leaves one byte. -/
theorem test_payload_boundary :
    payload (fun _ => 0xB7) true 0 3 = [] ∧ payload (fun _ => 0xB6) true 0 3 = [0xB6] ∧
    payload (fun _ => 0xB8) true 0 3 = [] ∧ payload (fun _ => 0x11) true 0 0 = [] ∧
    (payload (fun _ => 0x11) false 0 0).length = 184 := by decide +kernel

/-- R44, R53, R57: class codes 4 and 5 store 6, reserved bits read 0. -/
theorem test_class_codes :
    readReg (csrWrite 0x018 4 tiny) .decClass = 6 ∧ readReg (csrWrite 0x018 0xFFFFFFF5#32 tiny) .decClass = 6 ∧
    readReg (csrWrite 0x050 0xFFFFBFFF#32 tiny) (.ctxCfg 1) = 0x000FDFFF#32 := by decide

/-- R37: a write of 1 clears a W1C bit, of 0 does not; R52. -/
theorem test_status_and_constants :
    (csrWrite 0x004 0x00000802#32 { tiny with done := true, errs := 0x00A#12 }).statusWord = 0x00000204#32 ∧
    readReg tiny .hwcfg = 0x11000002#32 ∧ readReg tiny .capsize = 376 := by decide

/-! ### The records rebuilt from tokens (R528-R533) -/

/-- R530: the last NIT_NAME counts (V-NIT-8), a repeated service keeps its place and takes the later type. -/
theorem test_nit_record :
    tableBody .nit [.nitName 0xF 0 [0x41], .nitName 0xF 0 [0x42], .nitService 0xF 0 268 0x1F, .nitService 0xF 0 270 0x02,
      .nitService 0xF 0 268 0x01] = .nit (some [0x42]) [(268, 0x01), (270, 0x02)] := by decide

/-- R528: V-RUN-3's unit 0 is an error, its unit 1 a record. -/
theorem test_decode_outcome :
    let u0 : List Token := [.secEnd 0 0 2 0 false]
    let u1 : List Token := [.secHdr 0 1 headerPat, .patEntry 0 1 1 7 0x1000 false, .secEnd 0 1 0 1 false]
    decodeOutcome .pat 0 0 (u0 ++ u1) = some (.error 2, u1) ∧
    decodeOutcome .pat 0 1 (u0 ++ u1) =
      some (.record ⟨headerPat, false, false, .pat [⟨1, 0x1000, false⟩]⟩, []) ∧
    decodeOutcome .pat 0 2 (u0 ++ u1) = none := by decide

/-- R528: two DECODEs give two units with one (src, index); the first is read up to its SEC_END, the second after it. -/
theorem test_decode_outcome_stops_at_sec_end :
    let u : List Token := [.secHdr 0xF 0 headerPat, .patEntry 0xF 0 1 7 0x1000 false, .secEnd 0xF 0 0 1 false]
    decodeOutcome .pat 0xF 0 (u ++ u) =
      some (.record ⟨headerPat, false, false, .pat [⟨1, 0x1000, false⟩]⟩, u) := by decide

/-! ### The opcode table's rows -/

/-- Every value of CMD.OP matches exactly one command row. -/
theorem test_command_rows_partition :
    ∀ v : Fin 16, ([Instr.nop, .findSync, .parse, .run, .decode, .crc, .reservedCmd67 0, .reservedCmd8F 0].countP
      fun i => v.val &&& i.row.mask == i.row.pattern) = 1 := by decide

/-- No table_id matches two table rows. -/
theorem test_table_rows_do_not_overlap :
    ∀ v : Fin 256, ([Instr.tblPat, .tblNitAct, .tblNitOth, .tblSdtAct, .tblSdtOth, .tblEitPfAct, .tblEitPfOth,
      .tblEitSchAct 0, .tblEitSchOth 0].countP fun i => v.val &&& i.row.mask == i.row.pattern) ≤ 1 := by decide +kernel

/-! ### Witnesses: a state and operands that meet each statement's hypotheses -/

theorem witness_idle_inv : tiny.Inv := by constructor <;> decide

/-- A busy state with a full FIFO and a pending token. -/
def full : State :=
  { tiny with phase := .busy, fifo := [.nitName 0xF 0 []], pend := [.nitName 0xF 1 []], notes := [.crcMismatch] }

theorem witness_busy_inv : full.Inv := by constructor <;> decide

/-- A legal region of 189 bytes that begins with one packet without payload. -/
def framed : State :=
  { withRegion emptyPacket 0 189 with ctxs := [slot 0x00030020#32, slot 0xC000#32] }

theorem witness_framed_inv : framed.Inv := by constructor <;> decide

theorem witness_DecodingAnEncoding :
    (Instr.descOther .nitNet 0x41#8).wellFormed = true ∧ (Instr.reservedCmd8F 7).wellFormed = true ∧
    (Instr.tblEitSchOth 0xF).wellFormed = true := by decide

theorem witness_EncodingADecodedWord :
    decodeTable .eit 0x50#8 = .ok (.tblEitSchAct 0) ∧ decodeTable .eit 0x6F#8 = .ok (.tblEitSchOth 0xF) := ⟨rfl, rfl⟩

/-- R300's boundaries: 0x4D and 0x70 lie outside EIT. -/
theorem witness_TableDecoderAcceptsItsClass :
    accepts .eit 0x4D = false ∧ accepts .eit 0x4E = true ∧ accepts .eit 0x6F = true ∧ accepts .eit 0x70 = false := by
  decide

/-- A host write to CMD. -/
theorem witness_StepRuns_command :
    let s := { tiny with schedule := [.host (.csrWrite 0x000 0xFFFFFFF3#32)] }
    s.decoder.stage = .idle ∧ s.schedule = .host (.csrWrite 0x000 0xFFFFFFF3#32) :: [] ∧
    decode ⟨.command, 0xFFFFFFF3#32⟩ = .ok .run := ⟨rfl, rfl, rfl⟩

/-- A section decode at its body dispatch. -/
theorem witness_StepRuns_table :
    let s := { tiny with decoder := workAtTable .eit 0x5A }
    s.decoder.stage = .table ∧
    decode ⟨.tableId s.decoder.cls, (byteAt s.decoder.sec s.decoder.tstart).setWidth 32⟩ = .ok (.tblEitSchAct 0xA) :=
  ⟨rfl, rfl⟩

/-- A descriptor loop that a header exactly fits. -/
theorem witness_StepRuns_descriptor :
    let s := { tiny with decoder := workAtDescriptor .nitTs 0x41 }
    s.decoder.stage = .descriptor ∧ s.decoder.rd.cur + 2 = s.decoder.rd.lim ∧
    decode ⟨.descriptor s.decoder.loop, (byteAt s.decoder.sec s.decoder.rd.cur).setWidth 32⟩ = .ok .descServiceList :=
  ⟨rfl, rfl, rfl⟩

/-- Every move but a CMD write as the next one of an idle decoder, with the FIFO empty and the engine idle, and with neither;
and the empty schedule. -/
theorem witness_StepRuns_moves :
    (∀ m ∈ [Move.host (.csrWrite 0x004 0x2#32), .host (.csrRead 0x03C), .host (.capWrite 375 1), .host (.capRead 376),
        .host .tokPop, .engine, .wait, .drain],
      { tiny with schedule := [m] }.decoder.stage = .idle ∧ { full with schedule := [m] }.decoder.stage = .idle) ∧
    tiny.schedule = [] ∧ (tiny.fifo = [] ∧ tiny.phase = .idle) ∧ full.fifo ≠ [] ∧ full.phase = .busy := by decide

/-- A section decode under ANY at its dispatch, a descriptor loop with one byte left (R453 case 2), and one at its end. -/
theorem witness_StepRuns_ends :
    decode ⟨.tableId .any, (byteAt (workAtTable .any 0x4E).sec (workAtTable .any 0x4E).tstart).setWidth 32⟩ =
      .error (.noBody .any) ∧ (workAtTable .any 0x4E).stage = .table ∧
    (workAtDescriptor .nitTs 0x41).stage = .descriptor ∧
    ((⟨1, 2⟩ : Reader).lim < (⟨1, 2⟩ : Reader).cur + 2 ∧ (⟨1, 2⟩ : Reader).cur < (⟨1, 2⟩ : Reader).lim) ∧
    ¬((⟨2, 2⟩ : Reader).cur < (⟨2, 2⟩ : Reader).lim) ∧ { workAtTable .pat 0 with stage := .close }.stage = .close := by
  decide

/-- R35's last context, and the offsets on either side of the map's holes, with N_CTX = 15. -/
theorem witness_CsrMap :
    (State.initial ⟨376, 15, 4352, 1⟩).inst.nCtx ≤ 15 ∧ csrAt 15 0x128 = some (.ctxState 14) ∧
    csrAt 15 0x12C = none ∧ csrAt 15 0x130 = none ∧ csrAt 15 0x140 = none ∧ csrAt 15 0x03E = none ∧
    csrAt 2 0x050 = some (.ctxCfg 1) ∧ csrAt 2 0x060 = none := by decide

/-- Read-only registers: a result register of a context that N_CTX includes, one of a context that it does not, and the
parameter registers. -/
theorem witness_CsrMap_readOnly :
    isResultReg (.ctxState 1) = true ∧ isResultReg (.ctxSecs 2) = true ∧ tiny.inst.nCtx = 2 ∧
    csrAt 2 (csrOffset (.ctxState 1)) = some (.ctxState 1) ∧ csrAt 2 (csrOffset (.ctxSecs 2)) = none ∧
    csrAt 2 (csrOffset .capsize) = some .capsize := by decide

/-- An interrupt that a STATUS write takes away. -/
theorem witness_IrqFalls_status :
    let s := { tiny with ctrl := 0x4#4, done := true, schedule := [.host (.csrWrite 0x004 0x2#32)] }
    s.irq = true ∧ ∃ t, step s = .next t ∧ t.irq = false := ⟨by decide, _, rfl, by decide⟩

/-- An interrupt that a CTRL write, the acceptance of a command or reset takes away. -/
theorem witness_IrqFalls_others :
    ∀ m ∈ [Move.host (.csrWrite 0x008 0x2#32), .host (.csrWrite 0x000 0x0#32), .reset],
      ∃ t, step { tiny with ctrl := 0x4#4, done := true, schedule := [m] } = .next t ∧ t.irq = false := by
  simp only [List.forall_mem_cons]
  exact ⟨⟨_, rfl, by decide⟩, ⟨_, rfl, by decide⟩, ⟨_, rfl, by decide⟩, fun _ h => nomatch h⟩

theorem witness_StatusBits_errs :
    let s := { tiny with errs := 0x801#12, schedule := [.host (.csrWrite 0x004 0x00080000#32)] }
    s.errs.getLsbD 11 = true ∧ (∀ ms, s.schedule ≠ .reset :: ms) ∧
    ∃ t, step s = .next t ∧ t.errs.getLsbD 11 = false ∧ t.errs.getLsbD 0 = true :=
  ⟨by decide, fun _ h => (by cases h), _, rfl, by decide, by decide⟩

theorem witness_StatusBits_done :
    let s := { tiny with done := true, schedule := [.host (.csrWrite 0x000 0x0#32)] }
    s.done = true ∧ (∀ ms, s.schedule ≠ .reset :: ms) ∧ ∃ t, step s = .next t ∧ t.done = false :=
  ⟨rfl, fun _ h => (by cases h), _, rfl, rfl⟩

/-- The last context's CTX_CFG, idle and busy. -/
theorem witness_ConfigurationWrites :
    isConfigReg (.ctxCfg 1) = true ∧ tiny.ctxs.length = tiny.inst.nCtx ∧
    csrAt tiny.inst.nCtx (csrOffset (.ctxCfg 1)) = some (.ctxCfg 1) ∧ tiny.phase = .idle ∧ full.phase = .busy ∧
    full.ctxs.length = full.inst.nCtx := by decide

/-- The last byte of CAPMEM and the first offset beyond it, idle and busy. -/
theorem witness_Capmem :
    tiny.phase = .idle ∧ full.phase = .busy ∧ 375 < tiny.inst.capSize ∧ tiny.inst.capSize ≤ 376 := by decide

/-- A byte that a CapWrite changes. -/
theorem witness_EngineOnlyReads_step :
    let s := { tiny with mem := [(375, 1)], schedule := [.host (.capWrite 375 2)] }
    ∃ t, step s = .next t ∧ t.capAt 375 ≠ s.capAt 375 := ⟨_, rfl, by decide⟩

/-- Two memories that agree inside the region [1, 2) and differ on either side of it. -/
theorem witness_EngineOnlyReads_region :
    let s := withRegion [(0, 1), (1, 2), (2, 3)] 1 2
    (s.HasRegion → ∀ a, s.start.toNat ≤ a → a < s.endOff.toNat →
      State.capAt { s with mem := [(1, 2)], epoch := 0 } a = s.capAt a) ∧ ∃ t, exec .crc s = .next t := by
  refine ⟨fun _ a h1 h2 => ?_, _, rfl⟩
  simp only [withRegion] at h1 h2
  have : a = 1 := by simp at h1 h2; omega
  subst this; decide

theorem witness_BusyBlock : isCommand .run = true ∧ full.phase = .busy := by decide

theorem witness_CommandsKeep :
    isCommand .nop = true ∧ (∃ t, exec .nop tiny = .next t) ∧ ∃ t, exec .nop full = .next t := ⟨rfl, ⟨_, rfl⟩, _, rfl⟩

/-- Notes whose first code is not the smallest, and a code noted twice. -/
theorem witness_Completion :
    let s := { full with pend := [], notes := [.syncLost, .crcMismatch, .syncLost] }
    s.phase = .busy ∧ s.pend = [] ∧ (engineStep s).errCode = 8 ∧ (engineStep s).errs = 0x088#12 := by decide

/-- Results for PKT_COUNT and the first context, none for SYNC_OFF and the second (R61 step 3). -/
theorem witness_Completion_results :
    let s := { full with
      pend := []
      syncOff := 7
      ctxs := [{ slot 0 with secs := 3 }, { slot 0 with secs := 5, last := .done }]
      compl := { Completion.empty with pktCount := some 9, ctxResults := some [(4, .collect)] } }
    s.phase = .busy ∧ s.pend = [] ∧ s.ctxs[1]? = some { slot 0 with secs := 5, last := .done } ∧
    readReg (engineStep s) .pktCount = 9 ∧ readReg (engineStep s) .syncOff = 7 ∧
    readReg (engineStep s) (.ctxSecs 0) = 4 ∧ readReg (engineStep s) (.ctxState 0) = 1 ∧
    readReg (engineStep s) (.ctxSecs 1) = 5 ∧ readReg (engineStep s) (.ctxState 1) = 2 := by decide

/-- A step that is not a completion, though a command is complete on either side of it. -/
theorem witness_ResultsAppear :
    let s := { full with pend := [], schedule := [.host .tokPop] }
    (∀ ms, s.schedule ≠ .reset :: ms) ∧ ∃ t, step s = .next t ∧
      ¬(s.phase = .busy ∧ s.pend = [] ∧ t.phase = .idle ∧ t.done = true) :=
  ⟨fun _ h => (by cases h), _, rfl, by decide⟩

/-- An engine with no step, and a push into the last free place. -/
theorem witness_CommandCompletes_steps :
    tiny.phase = .idle ∧ full.phase = .busy ∧ full.pend = .nitName 0xF 1 [] :: [] ∧
    { full with fifo := [] }.fifo.length + 1 = full.inst.outDepth := by decide

/-- Room for exactly the pending tokens. -/
theorem witness_CommandCompletes :
    let s := { full with fifo := [] }
    s.phase = .busy ∧ s.fifo.length + s.pend.length = s.inst.outDepth := by decide

theorem witness_FullFifo :
    full.phase = .busy ∧ full.pend ≠ [] ∧ full.inst.outDepth = full.fifo.length ∧ full.decoder.stage = .idle ∧
    full.schedule = [] := by decide

theorem witness_FullFifo_polling :
    let s := { full with schedule := [.wait] }
    s.decoder.stage = .idle ∧ s.schedule = .wait :: [] ∧ s.pend ≠ [] := by decide

/-- A command whose acceptance makes tokens. -/
theorem witness_TokensAreNeverLost :
    let s := { framed with schedule := [.host (.csrWrite 0x000 0x3#32)] }
    s.Inv ∧ (∀ ms, s.schedule ≠ .reset :: ms) ∧ ∃ t, step s = .next t ∧ t.stream.length = s.stream.length + 1 :=
  ⟨by constructor <;> decide, fun _ h => (by cases h), _, rfl, by decide⟩

theorem witness_Pop :
    full.fifo = .nitName 0xF 0 [] :: [] ∧ tiny.fifo = [] ∧
    ∃ t, step { full with schedule := [.host .tokPop] } = .next t ∧ t.fifo.length < full.fifo.length :=
  ⟨rfl, rfl, _, rfl, by decide⟩

theorem witness_NopAndReserved : tiny.Inv ∧ tiny.phase = .idle := ⟨witness_idle_inv, rfl⟩

/-- START one past END, and END one past CAP_SIZE. -/
theorem witness_IllegalRegion :
    (withRegion [] 6 5).Inv ∧ ¬(withRegion [] 6 5).HasRegion ∧ (withRegion [] 0 377).Inv ∧
    ¬(withRegion [] 0 377).HasRegion ∧ (withRegion [] 0 376).HasRegion :=
  ⟨by constructor <;> decide, by unfold State.HasRegion; decide, by constructor <;> decide,
    by unfold State.HasRegion; decide, by unfold State.HasRegion; decide⟩

/-- V-FS-3: a sync at START whose second byte is the region's last. -/
theorem witness_FindSync_found :
    framed.Inv ∧ framed.phase = .idle ∧ framed.HasRegion ∧ framed.start.toNat ≤ 0 ∧ 0 + 188 + 1 = framed.endOff.toNat ∧
    framed.capAt 0 = 0x47#8 ∧ framed.capAt (0 + 188) = 0x47#8 ∧
    ∀ j, framed.start.toNat ≤ j → j < 0 → ¬(framed.capAt j = 0x47#8 ∧ framed.capAt (j + 188) = 0x47#8) :=
  ⟨witness_framed_inv, rfl, by unfold State.HasRegion; decide, by decide, by decide, by decide, by decide,
    fun _ _ h => absurd h (by omega)⟩

/-- V-FS-2: a region of 188 bytes. -/
theorem witness_FindSync_none :
    (withRegion [(0, 0x47)] 0 188).HasRegion ∧ ∀ i : Nat, (withRegion [(0, 0x47)] 0 188).start.toNat ≤ i →
      i + 188 < (withRegion [(0, 0x47)] 0 188).endOff.toNat →
      ¬((withRegion [(0, 0x47)] 0 188).capAt i = 0x47#8 ∧ (withRegion [(0, 0x47)] 0 188).capAt (i + 188) = 0x47#8) :=
  ⟨by unfold State.HasRegion; decide, fun i _ h => absurd h (by simp [withRegion])⟩

/-- The last byte of a payload of one byte. -/
theorem witness_PacketFields :
    0 < (decodePacket (fun a => if a = 3 then 0x30 else 0xB6) true 0).payload.length := by decide +kernel

/-- A cursor at END, and one a whole packet before it. -/
theorem witness_FramerLoop :
    framed.frameArgs.endOff ≤ framed.frameArgs.endOff ∧ framed.frameArgs.endOff - framed.frameArgs.endOff ≤ 0 ∧
    1 ≤ framed.frameArgs.endOff ∧ framed.frameArgs.endOff - 1 ≤ 188 ∧ 1 + 188 = framed.frameArgs.endOff := by decide

theorem witness_Retained :
    framed.HasRegion ∧ FrameEvent.pkt ⟨0, false, true, false, 0x20, 0, 2, 0, []⟩ ∈ framed.frame.sliced.evs ∧
    framed.frame.syncOff = some 0 ∧
    framed.pidfEn = false ∧ (withRegion [] 5 5).HasRegion ∧ (withRegion [] 5 5).frame.syncOff = none :=
  ⟨by unfold State.HasRegion; decide, by decide, by decide, rfl, by unfold State.HasRegion; decide, by decide⟩

theorem witness_Parse : framed.phase = .idle ∧ framed.HasRegion := ⟨rfl, by unfold State.HasRegion; decide⟩

/-- One packet meets each row of R251's table, by the configuration and the context's state. -/
theorem witness_ContextFollows :
    let p (pusi : Bool) : Packet := ⟨0, false, pusi, false, 0x20, 0, 2, 0, []⟩
    let all := CtxCfg.ofWord 0x00030020#32
    let one := CtxCfg.ofWord 0x00010020#32
    (p true).pid ≠ (CtxCfg.ofWord 0x00030021#32).pid ∧ (p true).pid = all.pid ∧ (p false).pid = one.pid ∧
    (p true).pusi = true ∧ (p false).pusi = false ∧ all.all = true ∧ one.all = false ∧
    Context.initial.state = .idle ∧ (⟨.collect, 0, [], false, 0⟩ : Context).state = .collect ∧
    (⟨.done, 0, [], false, 1⟩ : Context).state = .done ∧ (List.replicate 4352 (0 : Byte)).length ≤ 4352 := by decide +kernel

/-- Two lists of contexts that agree in context 1 and differ beside it. -/
theorem witness_ContextSees :
    framed.ctxs[1]? = some (slot 0xC000#32) ∧ [slot 0x00010021#32, slot 0xC000#32][1]? = some (slot 0xC000#32) ∧
    [slot 0x00010021#32, slot 0xC000#32] ≠ framed.ctxs ∧ framed.ctxs.length ≤ 15 ∧
    tokensOf 1 [.nitName 0 0 []] = tokensOf 1 [] := by decide

theorem witness_RunCloses :
    framed.Inv ∧ framed.phase = .idle ∧ framed.HasRegion ∧ (∃ t, exec .run framed = .next t) ∧
    framed.ctxs[0]? = some (slot 0x00030020#32) ∧ (slot 0x00030020#32).cfg.cls ≠ .none :=
  ⟨witness_framed_inv, rfl, by unfold State.HasRegion; decide, ⟨_, rfl⟩, by decide, by decide⟩

/-- An enabled context and a disabled one with ALL = 0. -/
theorem witness_RunFeeds :
    framed.phase = .idle ∧ framed.HasRegion ∧ (slot 0xC000#32).cfg.en = false ∧ (slot 0xC000#32).cfg.all = false ∧
    framed.ctxs = [slot 0x00030020#32, slot 0xC000#32] :=
  ⟨rfl, by unfold State.HasRegion; decide, by decide, by decide, rfl⟩

theorem witness_DecodeIgnoresBytes : 4352 ≤ 4352 := Nat.le_refl _

/-- V-DEC-3 and a unit that is all pointer: check 2; V-DEC-4: check 3; V-DEC-5: check 4. -/
theorem witness_Section_first_checks :
    ([0x01, 0x00] : Bytes).length ≤ 1 + (byteAt [0x01, 0x00] 0).toNat ∧
    (1 + (byteAt [0x00, 0x42] 0).toNat < ([0x00, 0x42] : Bytes).length ∧
      accepts .pat (byteAt [0x00, 0x42] (1 + (byteAt [0x00, 0x42] 0).toNat)) = false) ∧
    accepts .pat (byteAt [0x00, 0x00, 0xB0] 1) = true ∧ ([0x00, 0x00, 0xB0] : Bytes).length < 1 + 3 := by decide

/-- V-DEC-6: section_length 4094; V-DEC-8 at its boundary: one byte missing; V-DEC-9 at its boundary: section_length 8;
V-DEC-10: section_length 0; V-PAT-1: section_length 9. -/
theorem witness_Section_later_checks :
    (be [0x00, 0x00, 0xBF, 0xFE] 2 2 % 4096 = 4094 ∧ 1 + 3 ≤ ([0x00, 0x00, 0xBF, 0xFE] : Bytes).length) ∧
    (be [0x00, 0x00, 0xB0, 0x01] 2 2 % 4096 = 1 ∧ ([0x00, 0x00, 0xB0, 0x01] : Bytes).length < 1 + 3 + 1) ∧
    be [0x00, 0x00, 0xB0, 0x08, 1, 2, 3, 4, 5, 6, 7, 8] 2 2 % 4096 = 8 ∧
    1 + 3 + 8 ≤ ([0x00, 0x00, 0xB0, 0x08, 1, 2, 3, 4, 5, 6, 7, 8] : Bytes).length ∧
    be [0x00, 0x00, 0xB0, 0x00] 2 2 % 4096 = 0 ∧
    be [0x00, 0x00, 0xB0, 0x09, 0x00, 0x01, 0xC1, 0x00, 0x00, 0xEF, 0x22, 0x62, 0x17] 2 2 % 4096 = 9 ∧
    1 + 3 + 9 ≤ ([0x00, 0x00, 0xB0, 0x09, 0x00, 0x01, 0xC1, 0x00, 0x00, 0xEF, 0x22, 0x62, 0x17] : Bytes).length := by
  decide

/-- V-DEC-10. -/
theorem witness_ZeroLength :
    1 + (byteAt [0x00, 0x00, 0xB0, 0x00] 0).toNat + 3 ≤ ([0x00, 0x00, 0xB0, 0x00] : Bytes).length ∧
    accepts .pat (byteAt [0x00, 0x00, 0xB0, 0x00] 1) = true ∧ be [0x00, 0x00, 0xB0, 0x00] 2 2 % 4096 = 0 := by decide

/-- V-DEC-1 at its body dispatch. -/
theorem witness_SectionDecodeRuns_table :
    accepts .pat (byteAt unitPat 1) = true ∧ 9 ≤ be unitPat 2 2 % 4096 ∧ be unitPat 2 2 % 4096 ≤ 4093 ∧
    1 + 3 + be unitPat 2 2 % 4096 ≤ unitPat.length ∧ (byteAt unitPat 0).toNat = 0 ∧
    decodeTable .pat (byteAt unitPat (1 + (byteAt unitPat 0).toNat)) = .ok .tblPat ∧
    ∃ s t : State, s.decoder = atBody (Work.start unitPat .pat 0xF 0) ∧ exec .tblPat s = .next t :=
  ⟨by decide, by decide, by decide, by decide, by decide, rfl,
    { tiny with decoder := atBody (Work.start unitPat .pat 0xF 0) }, _, rfl, rfl⟩

/-- V-DEC-14: a section of V-DEC-1 under ANY selects no row; and a section of length 9, the shortest with a body dispatch. -/
theorem witness_SectionDecodeRuns_noRow :
    accepts .any (byteAt unitPat 1) = true ∧ decodeTable .any (byteAt unitPat 1) = .error (.noBody .any) ∧
    (let S : Bytes := [0x00, 0x00, 0xB0, 0x09, 0x00, 0x01, 0xC1, 0x00, 0x00, 0xEF, 0x22, 0x62, 0x17]
     be S 2 2 % 4096 = 9 ∧ 1 + 3 + 9 = S.length ∧ (decodeSection S .any 0xF 0).out.length = 2) := by decide +kernel

theorem witness_SectionDecodeRuns_descriptor :
    let w := workAtDescriptor .sdtSvc 0x48
    ∃ s t : State, s.decoder = (fetchDescriptor w.rd w).2 ∧ exec (fetchDescriptor w.rd w).1 s = .next t :=
  ⟨{ tiny with decoder := (fetchDescriptor ⟨0, 2⟩ (workAtDescriptor .sdtSvc 0x48)).2 }, _, rfl, rfl⟩

/-- DECODE under ANY (reset) and under NONE. -/
theorem witness_DecodeReports :
    framed.phase = .idle ∧ framed.HasRegion ∧ framed.decClass = .any ∧ { framed with decClass := .none }.HasRegion :=
  ⟨rfl, by unfold State.HasRegion; decide, rfl, by unfold State.HasRegion; decide⟩

theorem witness_CrcCommand :
    (withRegion [] 5 5).Inv ∧ (withRegion [] 5 5).phase = .idle ∧ (withRegion [] 5 5).HasRegion ∧
    (withRegion [] 5 5).start = (withRegion [] 5 5).endOff ∧
    (withRegion [(375, 7)] 374 376).HasRegion ∧
    1 + 1 = (withRegion [(375, 7)] 374 376).endOff.toNat - (withRegion [(375, 7)] 374 376).start.toNat ∧
    ((withRegion [(375, 7)] 374 376).capBytes 374 376)[1]? = some 7 :=
  ⟨by constructor <;> decide, rfl, by unfold State.HasRegion; decide, rfl, by unfold State.HasRegion; decide, by decide,
    by decide⟩

/-- A field that exactly fits, and one that is a byte too long. -/
theorem witness_Readers :
    (⟨0, 2⟩ : Reader).cur + 2 ≤ (⟨0, 2⟩ : Reader).lim ∧ (⟨0, 2⟩ : Reader).lim < (⟨0, 2⟩ : Reader).cur + 3 ∧
    (⟨0, 2⟩ : Reader).lim ≤ (Work.start [1, 2] .any 0 0).sec.length ∧ 0 + 1 < ([1, 2] : Bytes).length ∧
    0 + 2 ≤ ([1, 2] : Bytes).length ∧ be [1, 2] 0 2 = 258 := by decide

theorem witness_TableAndDescriptorRows :
    isCommand .tblPat = false ∧ isCommand .descContent = false ∧ (∃ t, exec .tblPat tiny = .next t) ∧
    ∃ t, exec .descContent tiny = .next t := ⟨rfl, rfl, ⟨_, rfl⟩, _, rfl⟩

/-- A body that exactly holds the two loop lengths of a NIT: with bytes that are 0 both loops are empty. -/
theorem witness_NitBody :
    let w := { Work.start (List.replicate 20 0) .nit 0xF 0 with tstart := 1, lim := 13 }
    w.tstart + 8 ≤ w.lim ∧ w.tstart + 8 + 2 + be w.sec (w.tstart + 8) 2 % 4096 + 2 ≤ w.lim ∧
    be w.sec (w.tstart + 10) 2 % 4096 = 0 := by decide

/-- R453's cases: a body that is empty and one that is a byte short for its first length field; a network loop that fills
the body exactly, so that the second length field does not fit, and one that is a byte too long. -/
theorem witness_NitBody_overflows :
    let w (n : Nat) := { Work.start (List.replicate 10 0 ++ [2, 0xEE, 0xEE, 0, 0, 0, 0]) .nit 0xF 0 with
      tstart := 1, lim := n }
    (w 9).tstart + 8 ≤ (w 9).lim ∧ (w 10).lim < (w 10).tstart + 8 + 2 ∧
    (w 13).tstart + 8 + 2 + be (w 13).sec 9 2 % 4096 = (w 13).lim ∧
    (w 12).lim + 1 = (w 12).tstart + 8 + 2 + be (w 12).sec 9 2 % 4096 ∧
    (nitBody (w 10)).notes = [.descriptorOverflow, .descriptorOverflow] ∧
    (nitBody (w 12)).notes = [.descriptorOverflow, .descriptorOverflow, .descriptorOverflow] := by decide

/-- Bodies of 2 and of 3 bytes (V-SDT-3 and its boundary), of 5 and of 6 bytes (V-EIT-3 and its boundary). -/
theorem witness_SdtBody_EitBody :
    let w (n : Nat) := { Work.start (List.replicate 20 0) .sdt 0xF 0 with tstart := 1, lim := 9 + n }
    (w 0).tstart + 8 ≤ (w 0).lim ∧ (w 3).tstart + 11 ≤ (w 3).lim ∧ (w 2).lim < (w 2).tstart + 11 ∧
    (w 6).tstart + 8 + 6 ≤ (w 6).lim ∧ (w 5).lim < (w 5).tstart + 8 + 6 := by decide

/-- V-EIT-3: in a body of 4 bytes two of the header's four fields fit; each of the others reads 0 and overflows. -/
theorem witness_EitBody_short :
    let w := { Work.start (List.replicate 9 0 ++ [0, 1, 0x20, 0xFA, 0xB3, 0x49, 0x82, 0x62]) .eit 0xF 0 with
      tstart := 1, lim := 13, tidExt := 5 }
    w.tstart + 8 ≤ w.lim ∧ w.lim < w.tstart + 8 + 6 ∧ (eitBody w).out = [.eitHdr 0xF 0 5 1 0x20FA 0 0] ∧
    (eitBody w).notes = [.descriptorOverflow, .descriptorOverflow] := by decide

/-- A container that exactly holds each of the four headers. -/
theorem witness_RecordsRead :
    (⟨0, 6⟩ : Reader).cur + 6 ≤ (⟨0, 6⟩ : Reader).lim ∧ (⟨0, 5⟩ : Reader).cur + 5 ≤ (⟨0, 5⟩ : Reader).lim ∧
    (⟨0, 12⟩ : Reader).cur + 12 ≤ (⟨0, 12⟩ : Reader).lim ∧ (⟨0, 2⟩ : Reader).cur + 2 ≤ (⟨0, 2⟩ : Reader).lim := by decide

theorem witness_EventTimes :
    (0 : Int) ≤ 65548 ∧ (65548 : Int) ≤ 65548 ∧ (15079 : Int) ≤ 65547 ∧ (65547 : Int) < 65548 ∧ 0xFFFFFFFFFF < 2 ^ 40 ∧ 0xFFFFFF < 2 ^ 24 ∧
    startTime 0xFFFFFFFFFF = startTime 0xFFFFFFFFFF := by decide

theorem witness_EventToken : 0xFFFF < 2 ^ 16 ∧ 0xFFFFFFFFFF < 2 ^ 40 ∧ 0xFFFFFF < 2 ^ 24 := by decide

/-- An empty body: every field of the service, short-event and extended-event descriptors is clipped (V-SDT-5). -/
theorem witness_Descriptors_empty_body :
    { tiny with decoder := Work.start [] .any 0xF 0 }.decoder.body.cur ≤
      { tiny with decoder := Work.start [] .any 0xF 0 }.decoder.body.lim := by decide

theorem witness_Reset :
    let s := { full with schedule := [.reset, .host .tokPop] }
    s.decoder.stage = .idle ∧ s.schedule = .reset :: [.host .tokPop] ∧ s.phase = .busy := ⟨rfl, rfl, rfl⟩

/-- The smallest and the largest legal instance. -/
theorem witness_ResetHasTheInvariant :
    (⟨376, 1, 4352, 1⟩ : Instance).Legal ∧ (⟨2 ^ 32 - 1, 15, 65535, 1⟩ : Instance).Legal := by decide

theorem witness_EveryStepKeeps : full.Inv ∧ ∃ t, step full = .next t := ⟨witness_busy_inv, _, rfl⟩

theorem witness_EveryRunIsSafe : full.Inv ∧ Reaches full full := ⟨witness_busy_inv, .start⟩

end Sys2Proof.Tests
end

/-! PROOFS. The readers and record loops (O42), the CRC and DECODE commands (O41, O38), what a step does (O5, O6). -/

namespace Sys2Proof.Machine

/-! ### Slices and big-endian numbers (00_scope.md R13, 20_memory.md R104) -/

theorem slice_length {S : Bytes} {i n : Nat} (h : i + n ≤ S.length) : (slice S i (i + n)).length = n := by
  rw [slice, List.length_take, List.length_drop]
  omega

theorem slice_getElem? (S : Bytes) {i n k : Nat} (h : k < n) : (slice S i (i + n))[k]? = S[i + k]? := by
  simp [slice, h]

theorem slice_succ {S : Bytes} {i n : Nat} (h : i + n < S.length) :
    slice S i (i + (n + 1)) = slice S i (i + n) ++ [S[i + n]] := by
  simp only [slice, Nat.add_sub_cancel_left]
  rw [List.take_add_one, List.getElem?_drop, List.getElem?_eq_getElem h, Option.toList_some]

theorem beNat_append_singleton (bs : Bytes) (b : Byte) : beNat (bs ++ [b]) = 256 * beNat bs + b.toNat := by
  simp [beNat, List.foldl_append, Nat.mul_comm]

theorem be_zero (S : Bytes) (i : Nat) : be S i 0 = 0 := by simp [be, slice, beNat]

theorem be_succ {S : Bytes} {i n : Nat} (h : i + n < S.length) :
    be S i (n + 1) = 256 * be S i n + (S[i + n]).toNat := by
  rw [be, slice_succ h, beNat_append_singleton, be]

theorem byteAt_eq_getElem {S : Bytes} {i : Nat} (h : i < S.length) : byteAt S i = S[i] := by
  simp [byteAt, h]

/-! ### The seven record bodies (45_descriptors.md R454) -/

/-- A reader moved on by `n` bytes, but not past its limit (R450). -/
def Reader.skip (r : Reader) (n : Nat) : Reader := ⟨min (r.cur + n) r.lim, r.lim⟩

theorem readField_reader (n : Nat) (r : Reader) (w : Work) : (readField n r w).2.1 = r.skip n := by
  rw [readField_eq, Reader.skip]

theorem readSpan_reader (n : Nat) (r : Reader) (w : Work) : (readSpan n r w).2.1 = r.skip n := by
  rw [readSpan_eq, Reader.skip]

theorem Reader.skip_skip (r : Reader) (m n : Nat) : (r.skip m).skip n = r.skip (m + n) := by
  simp only [Reader.skip, Reader.mk.injEq, and_true]
  omega

/-- A body that skips its header, and then as many bytes as a length it has read says, keeps inside the limit. -/
theorem Advances.of_skip {h : Nat} {body : Reader → Work → Reader × Work}
    (hb : ∀ r w, ∃ d, (body r w).1 = r.skip (h + d)) : Advances h body := by
  intro r w hr
  obtain ⟨d, hd⟩ := hb r w
  rw [hd, Reader.skip]
  exact ⟨by simp only; omega, Nat.min_le_right .., rfl⟩

theorem patEntry_advances : Advances 4 patEntry :=
  .of_skip fun r w => ⟨0, by simp only [patEntry, readField_reader, Reader.skip_skip]⟩

theorem serviceListEntry_advances : Advances 3 serviceListEntry :=
  .of_skip fun r w => ⟨0, by simp only [serviceListEntry, readField_reader, Reader.skip_skip]⟩

theorem contentEntry_advances : Advances 2 contentEntry :=
  .of_skip fun r w => ⟨0, by simp only [contentEntry, readField_reader, Reader.skip_skip]⟩

theorem nitRecord_advances : Advances 6 nitRecord := by
  refine .of_skip fun r w => ?_
  simp only [nitRecord, readField_reader, readSpan_reader, Reader.skip_skip]
  exact ⟨_, rfl⟩

theorem sdtRecord_advances : Advances 5 sdtRecord := by
  refine .of_skip fun r w => ?_
  simp only [sdtRecord, readField_reader, readSpan_reader, Reader.skip_skip]
  exact ⟨_, rfl⟩

theorem eitRecord_advances : Advances 12 eitRecord := by
  refine .of_skip fun r w => ?_
  simp only [eitRecord, readField_reader, readSpan_reader, Reader.skip_skip]
  exact ⟨_, rfl⟩

theorem descriptorStep_advances : Advances 2 descriptorStep := by
  refine .of_skip fun r w => ?_
  simp only [descriptorStep, fetchDescriptor, readField_reader, readSpan_reader, Reader.skip_skip]
  exact ⟨_, rfl⟩

/-- Settles O42: the readers by whether a field fits, the loops by how each body moves its reader. -/
theorem readersAndRecordLoopsStayInTheirLimits : Obligations.ReadersAndRecordLoopsStayInTheirLimits := by
  unfold Obligations.ReadersAndRecordLoopsStayInTheirLimits
  refine ⟨fun S i n => ?bytes, fun n r w hr => ?reader, fun h body hm r w => ?loop⟩
  case bytes =>
    exact ⟨be_zero S i, fun h => ⟨be_succ h, byteAt_eq_getElem h⟩,
      fun h => ⟨slice_length h, fun k hk => slice_getElem? S hk⟩⟩
  case reader =>
    exact ⟨fun h => ⟨readField_fit h, readSpan_fit h⟩, fun h => ⟨readField_short h, readSpan_clip h⟩, rfl,
      fun _ _ => be_lt ..⟩
  case loop =>
    obtain ⟨hpos, hadv⟩ : 0 < h ∧ Advances h body := by
      simp only [List.mem_cons, Prod.mk.injEq, List.not_mem_nil, or_false] at hm
      rcases hm with ⟨rfl, rfl⟩ | ⟨rfl, rfl⟩ | ⟨rfl, rfl⟩ | ⟨rfl, rfl⟩ | ⟨rfl, rfl⟩ | ⟨rfl, rfl⟩ | ⟨rfl, rfl⟩
      · exact ⟨by decide, patEntry_advances⟩
      · exact ⟨by decide, nitRecord_advances⟩
      · exact ⟨by decide, sdtRecord_advances⟩
      · exact ⟨by decide, eitRecord_advances⟩
      · exact ⟨by decide, descriptorStep_advances⟩
      · exact ⟨by decide, serviceListEntry_advances⟩
      · exact ⟨by decide, contentEntry_advances⟩
    exact ⟨fun hr => ⟨runRecords_step hpos hadv w hr, hadv r w hr⟩, fun hr => runRecords_end w hr⟩

/-! ### DECODE and CRC (42_section_header.md R320, 43_crc32.md R360) -/

theorem capBytes_length (s : State) (a b : Nat) : (s.capBytes a b).length = b - a := by
  simp [State.capBytes, capSlice]

/-- A region command accepted while idle, on a legal region (R608). -/
theorem acceptCommand_region {s : State} (op : BitVec 4) (r : State → ExecResult) (hp : s.phase = .idle)
    (hr : s.HasRegion) : acceptCommand op (checkRegion r) s = .next (startCommand op (r s) s) := by
  rw [acceptCommand_idle op _ hp, checkRegion, if_pos ((legalRegion_iff s).2 hr)]

theorem exec_decode_region {s : State} (hp : s.phase = .idle) (hr : s.HasRegion) :
    exec .decode s = .next (startCommand 0x4#4 (decodeResult s) s) :=
  acceptCommand_region _ _ hp hr

theorem exec_crc_region {s : State} (hp : s.phase = .idle) (hr : s.HasRegion) :
    exec .crc s = .next (startCommand 0x5#4 (crcCommandResult s) s) :=
  acceptCommand_region _ _ hp hr

/-- The CRC by R351's two loops. -/
theorem crc32_eq_loops (bs : Bytes) : crc32 bs = bs.foldl
    (fun (r : Word) (b : Byte) => (List.range 8).foldl
      (fun (r : Word) _ => if r.getLsbD 31 then (r <<< 1) ^^^ 0x04C11DB7#32 else r <<< 1) (r ^^^ (b.setWidth 32 <<< 24)))
    (0xFFFFFFFF#32 : Word) := rfl

/-- Settles O41: the command has no tokens, so its first engine step completes it. -/
theorem crcCommandReportsTheRegionsCrc : Obligations.CrcCommandReportsTheRegionsCrc := by
  unfold Obligations.CrcCommandReportsTheRegionsCrc
  intro s hinv hp hr
  refine ⟨_, crc32 (s.capBytes s.start.toNat s.endOff.toNat), exec_crc_region hp hr, rfl, ?completed,
    crc32_eq_loops _, fun he => ?empty, capBytes_length .., fun k hk => capSlice_getElem? hk⟩
  case completed =>
    rw [engineStep_complete rfl rfl]
    exact completeCommand_startCommand hinv hp _ _ _ rfl
  case empty =>
    have hlen := capBytes_length s s.start.toNat s.endOff.toNat
    rw [he, Nat.sub_self] at hlen
    rw [he, List.eq_nil_of_length_eq_zero hlen]
    rfl

/-- What a decode reports of its CRC check (R310): checked, with the SEC_HDR that says so, or not checked. -/
theorem decodeSection_crc (S : Bytes) (cls : TableClass) (src : BitVec 4) (index : Word) :
    (∃ h, .secHdr src index h ∈ (decodeSection S cls src index).out ∧ h.crcStatus ≠ 0 ∧
        (decodeSection S cls src index).crcStatus ≠ 0 ∧ (decodeSection S cls src index).crcCalc = h.crcCalc) ∨
      ((decodeSection S cls src index).crcStatus = 0 ∧
        ∀ h, .secHdr src index h ∈ (decodeSection S cls src index).out → h.crcStatus = 0) := by
  cases he : sectionError cls S with
  | some e =>
    rw [decodeSection_error src index he]
    exact .inr ⟨rfl, by simp [failSection, Work.start]⟩
  | none =>
    by_cases hl : sectionLength S = 0
    · rw [decodeSection_empty src index he hl]
      exact .inr ⟨rfl, by simp [endSection, Work.start, emptyHeader]⟩
    · obtain ⟨body, n, -, hout, -, hcalc, hstatus⟩ := decodeSection_body_adds src index he hl
      refine .inl ⟨fullHeader S, by simp [hout], checkedStatus_ne_zero S, ?_, hcalc⟩
      rw [hstatus]
      exact checkedStatus_ne_zero S

/-- The accepted DECODE, whose completion writes CRC_RESULT at most. -/
theorem startCommand_decodeResult (s : State) :
    let w := decodeSection (s.capBytes s.start.toNat s.endOff.toNat) s.decClass 0xF#4 0
    startCommand 0x4#4 (decodeResult s) s = { s with
      op := 4
      phase := .busy
      done := false
      pend := if s.decClass = .none then [] else w.out
      notes := if s.decClass = .none then [] else w.notes
      compl := { Completion.empty with
        crcResult := if s.decClass = .none ∨ w.crcStatus = 0 then none else some w.crcCalc } } := by
  by_cases hc : s.decClass = .none <;> simp [decodeResult, hc, startCommand, Completion.empty]

/-- Settles O38, by whether the class decodes and whether the CRC was checked. -/
theorem decodeReportsTheSection : Obligations.DecodeReportsTheSection := by
  unfold Obligations.DecodeReportsTheSection
  intro s hp hr
  refine ⟨_, (exec_decode_region hp hr).trans (congrArg _ (startCommand_decodeResult s)), ?_, capBytes_length ..,
    fun k hk => capSlice_getElem? hk⟩
  by_cases hc : s.decClass = .none
  · exact .inr ⟨if_pos (.inl hc), .inl hc⟩
  · rcases decodeSection_crc (s.capBytes s.start.toNat s.endOff.toNat) s.decClass 0xF#4 0 with
      ⟨h, hmem, hchecked, hstatus, hcalc⟩ | ⟨hstatus, hnone⟩
    · exact .inl ⟨h, hc, hmem, hchecked, by rw [if_neg (not_or.2 ⟨hc, hstatus⟩), hcalc]⟩
    · exact .inr ⟨if_pos (.inr hstatus), .inr hnone⟩

/-! ### Every step goes on (00_scope.md R15, 60_exceptions.md R612) -/

/-- A command is accepted or dropped, and a table or descriptor row acts on the decoder. -/
theorem exec_goes_on (i : Instr) (s : State) : ∃ t, exec i s = .next t := by
  cases hi : isCommand i with
  | true =>
    obtain ⟨op, r, hx, -⟩ := exec_command hi
    rw [hx]
    cases hp : s.phase with
    | idle => exact ⟨_, acceptCommand_idle op r hp⟩
    | busy => exact ⟨_, acceptCommand_busy op r hp⟩
  | false => exact ⟨_, exec_decoderRow hi s⟩

theorem step_eq_outcome (s : State) : step s = (fetch s).outcome := by
  unfold step Fetched.outcome
  cases fetch s <;> rfl

/-- Settles O6: a step is an instruction that goes on, or a move that already stands at its next state. -/
theorem nothingStopsTheBlock : Obligations.NothingStopsTheBlock := by
  unfold Obligations.NothingStopsTheBlock
  refine ⟨exec_goes_on, fun s => ?_⟩
  rw [step_eq_outcome]
  cases fetch s with
  | run i t => exact exec_goes_on i t
  | done t => exact ⟨t, rfl⟩

/-! ### What a step does (00_scope.md R7, 20_memory.md R111) -/

theorem step_table {s : State} (h : s.decoder.stage = .table) : step s = (fetchTable s).outcome := by
  rw [step_eq_outcome, fetch, h]

theorem step_descriptor {s : State} (h : s.decoder.stage = .descriptor) :
    step s = (fetchDescriptorStep s).outcome := by
  rw [step_eq_outcome, fetch, h]

theorem step_close {s : State} (h : s.decoder.stage = .close) : step s = .next (closeDecode s) := by
  rw [step_eq_outcome, fetch, h]
  rfl

theorem fetchTable_ok {s : State} {i : Instr}
    (h : decodeTable s.decoder.cls (byteAt s.decoder.sec s.decoder.tstart) = .ok i) :
    fetchTable s = .run i { s with decoder := { s.decoder with stage := .close } } := by
  simp only [fetchTable, h]

theorem fetchTable_error {s : State} {e : DecodeError}
    (h : decodeTable s.decoder.cls (byteAt s.decoder.sec s.decoder.tstart) = .error e) :
    fetchTable s = .done { s with decoder := { s.decoder with stage := .close } } := by
  simp only [fetchTable, h]

/-- The row an iteration of a descriptor loop selects, when a header fits: that of the tag at the cursor. -/
theorem fetchDescriptor_fit {r : Reader} {w : Work} (h : r.cur + 2 ≤ r.lim) :
    (fetchDescriptor r w).1 = decodeDescriptor w.loop (byteAt w.sec r.cur) := by
  rw [(fetchDescriptor_loop r w).2, readField_fit (by omega), be_one_eq, BitVec.ofNat_toNat, BitVec.setWidth_eq]

/-- A host write to CMD's offset is fetched as a command (R36). -/
theorem fetchHost_cmd (v : Word) (s : State) : fetchHost (.csrWrite 0x000 v) s = .run (decodeCommand v) s := rfl

/-- A host write to any other offset takes effect at once (R108). -/
theorem fetchHost_csrWrite {off : Nat} (v : Word) (s : State) (h : off ≠ 0x000) :
    fetchHost (.csrWrite off v) s = .done (csrWrite off v s) := if_neg (csrAt_ne_cmd h)

/-- One round of `wait` (R190), with the moves it leaves. -/
theorem waitRound_eq (s : State) : waitRound s = { s with
    schedule := if s.phase = .busy then .engine :: .wait :: s.schedule else s.schedule
    hostLog := s.hostLog ++ [.csr (readReg s .status)] } := by
  cases h : s.phase <;> simp [waitRound, State.busy, State.reply, readReg, h]

/-- One round of `drain` (R190). -/
theorem drainRound_eq (s : State) : drainRound s =
    if s.fifo ≠ [] ∨ s.phase = .busy then { tokPop s with schedule := .engine :: .drain :: s.schedule } else s := by
  simp [drainRound, State.busy]

/-- The end of a section decode (R310): its SEC_END joins P after its other tokens. -/
theorem closeDecode_eq (s : State) : closeDecode s = { s with
    pend := s.pend ++ s.decoder.out ++
      [.secEnd s.decoder.src s.decoder.index 0 s.decoder.crcStatus s.decoder.ovf]
    notes := s.notes ++ s.decoder.notes
    decoder := Work.idle } := by
  simp [closeDecode, endSection]

/-- Settles O5, by the decoder's stage and, where it is idle, by the next move. -/
theorem stepRunsTheDecodedInstruction : Obligations.StepRunsTheDecodedInstruction := by
  unfold Obligations.StepRunsTheDecodedInstruction
  simp only [decode, BitVec.setWidth_setWidth_of_le, Nat.reduceLeDiff, BitVec.setWidth_eq, Except.ok.injEq]
  refine ⟨?command, ?table, ?descriptor, ?move, ?noRow, ?noHeader, ?close⟩
  case command =>
    rintro s v i ms hst hs rfl
    rw [step_cons hst hs, fetchMove, fetchHost_cmd, Fetched.outcome]
  case table =>
    intro s i hst hi
    rw [step_table hst, fetchTable_ok hi, Fetched.outcome]
  case descriptor =>
    rintro s i hst hfit rfl
    rw [step_descriptor hst, fetchDescriptorStep, if_pos hfit, fetchDescriptor_fit hfit, Fetched.outcome]
  case move =>
    intro s ms hst
    refine ⟨fun off v hs hoff => ?_, fun off hs => step_cons hst hs, fun a v hs => step_cons hst hs,
      fun a hs => step_cons hst hs, fun hs => step_cons hst hs, fun hs => step_cons hst hs, step_nil hst,
      fun hs => ?_, fun hs => ?_⟩
    · rw [step_cons hst hs, fetchMove, fetchHost_csrWrite v _ hoff, Fetched.outcome]
    · rw [step_cons hst hs, fetchMove, Fetched.outcome, waitRound_eq]
      rfl
    · rw [step_cons hst hs, fetchMove, Fetched.outcome, drainRound_eq]
  case noRow =>
    intro s e hst he
    rw [step_table hst, fetchTable_error he, Fetched.outcome]
  case noHeader =>
    intro s hst hshort
    rw [step_descriptor hst, fetchDescriptorStep, if_neg (Nat.not_le.2 hshort), Fetched.outcome, loopRemainder]
  case close =>
    intro s hst
    rw [step_close hst, closeDecode_eq]

end Sys2Proof.Machine

/-! PROOFS. The invariant (O59), and the state: the CSR map, STATUS and the interrupt level, the configuration
registers, the frame of the commands, the framer's packets (O7-O11, O14, O15, O27). -/

namespace Sys2Proof.Machine

/-- Modifying one entry changes no projection that the modification keeps. -/
theorem map_modify_of_eq {α β : Type} {f : α → β} {g : α → α} (hg : ∀ x, f (g x) = f x) (c : Nat) (l : List α) :
    (l.modify c g).map f = l.map f := by
  induction l generalizing c with
  | nil => simp
  | cons x l ih => cases c <;> simp [hg, ih]

/-! ### The invariant: what each move and instruction does to it -/

/-- The machine right after reset has the invariant. -/
theorem State.Inv.initial {c : Instance} (h : c.Legal) : (State.initial c).Inv where
  legal := h
  memWf := Memory.wf_reset c
  memInside := by simp [State.initial]
  fifoFits := by simp [State.initial]
  ctxCount := by simp [State.initial]
  noEncBit := by simp [State.initial]
  noEncNote := by simp [State.initial, Work.idle, Work.start]
  idleEmpty := fun _ => ⟨rfl, rfl, rfl, rfl⟩
  idleContexts := fun _ _ hx => by rw [List.eq_of_mem_replicate hx]; rfl
  bufFits := fun _ hx => by rw [List.eq_of_mem_replicate hx]; exact Nat.zero_le _
  doneIdle := fun _ => rfl

section
variable {s : State} (h : s.Inv)
include h

theorem State.Inv.withSchedule (ms : List Move) : State.Inv { s with schedule := ms } := { h with }

theorem State.Inv.reply (r : Response) : (s.reply r).Inv := { h with }

theorem State.Inv.resetBlock : (resetBlock s).Inv := { State.Inv.initial h.legal with }

theorem State.Inv.dropWrite : (dropWrite s).Inv :=
  { h with noEncBit := by rw [dropWrite_errs, BitVec.getLsbD_or, h.noEncBit]; rfl }

theorem State.Inv.clearStatus (v : Word) : (clearStatus v s).Inv :=
  { h with
    noEncBit := by rw [clearStatus_errs, BitVec.getLsbD_and, h.noEncBit, Bool.false_and]
    doneIdle := fun hd => h.doneIdle (Bool.and_eq_true_iff.1 hd).1 }

/-- Taking the head token keeps the FIFO within its depth (R65). -/
theorem State.Inv.pop {t : Token} {ts : List Token} (hf : s.fifo = t :: ts) : State.Inv { s with fifo := ts } :=
  { h with
    fifoFits := by
      have hfits := h.fifoFits
      rw [hf, List.length_cons] at hfits
      exact Nat.le_of_succ_le hfits }

theorem State.Inv.tokPop : (tokPop s).Inv := by
  unfold Machine.tokPop
  split
  · exact h.reply _
  · exact (h.pop ‹_›).reply _

theorem State.Inv.capWrite {a : Nat} (v : Byte) (ha : a < s.inst.capSize) :
    State.Inv { s with mem := s.mem.write a v } :=
  { h with
    memWf := Memory.write_wf a v h.memWf
    memInside := fun c hc => (Memory.mem_write hc).elim (fun e => e ▸ ha) (h.memInside c) }

/-- A write of CTX_CFG leaves every reassembly context as it is (R53). -/
theorem State.Inv.withCtxs {xs : List CtxSlot} (hxs : xs.map CtxSlot.ctx = s.ctxs.map CtxSlot.ctx) :
    State.Inv { s with ctxs := xs } := by
  have hmem : ∀ x ∈ xs, ∃ y ∈ s.ctxs, y.ctx = x.ctx := fun x hx =>
    List.mem_map.1 (hxs ▸ List.mem_map_of_mem hx)
  exact
    { h with
      ctxCount := by
        have hlen := congrArg List.length hxs
        rw [List.length_map, List.length_map] at hlen
        exact hlen.trans h.ctxCount
      idleContexts := fun hp x hx => by
        obtain ⟨y, hy, e⟩ := hmem x hx
        exact e ▸ h.idleContexts hp y hy
      bufFits := fun x hx => by
        obtain ⟨y, hy, e⟩ := hmem x hx
        exact e ▸ h.bufFits y hy }

theorem State.Inv.storeReg (r : CsrReg) (v : Word) : (storeReg r v s).Inv := by
  cases r with
  | ctxCfg c =>
    exact h.withCtxs
      (map_modify_of_eq (f := CtxSlot.ctx) (g := fun x => { x with cfg := CtxCfg.ofWord v }) (fun _ => rfl) c s.ctxs)
  | _ => exact { h with }

theorem State.Inv.hostStep (op : HostOp) : (hostStep op s).Inv := by
  rcases hostStep_cases op s with ⟨r, e⟩ | ⟨x, xs, -, hf, e⟩ | e | ⟨e, -⟩ | ⟨a, v, -, -, ha, e⟩ |
    ⟨off, v, -, -, e⟩ | ⟨off, v, r, -, -, -, -, e⟩
  · exact e ▸ h.reply r
  · exact e ▸ (h.pop hf).reply _
  · rwa [e]
  · exact e ▸ h.dropWrite
  · exact e ▸ h.capWrite v ha
  · exact e ▸ h.clearStatus v
  · exact e ▸ h.storeReg r v

theorem State.Inv.waitRound : (waitRound s).Inv := by
  rw [waitRound_eq]
  exact (h.reply _).withSchedule _

theorem State.Inv.drainRound : (drainRound s).Inv := by
  rw [drainRound_eq]
  split
  · exact h.tokPop.withSchedule _
  · exact h

/-- Acceptance (R61 step 1) takes a sound result into P, N, Q and the contexts, and the block is busy. -/
theorem State.Inv.startCommand (op : BitVec 4) {r : ExecResult} (hr : r.Sound s) :
    (startCommand op r s).Inv :=
  { h with
    ctxCount := by
      have hlen := congrArg List.length hr.regs
      rw [List.length_map, List.length_map] at hlen
      exact hlen.trans h.ctxCount
    noEncNote := by
      have hn := h.noEncNote
      simp only [List.mem_append, not_or] at hn
      simp [hr.notes, hn.2]
    idleEmpty := nofun
    idleContexts := nofun
    bufFits := hr.fits h.bufFits
    doneIdle := nofun }

theorem State.Inv.command {i : Instr} {t : State} (hi : isCommand i = true) (ht : exec i s = .next t) : t.Inv := by
  rcases exec_command_cases hi ht with ⟨-, op, r, rfl, -, hr⟩ | ⟨-, rfl⟩
  · exact h.startCommand op hr
  · exact h.dropWrite

/-- Completion (R61 step 3) records no E_ENC, and leaves P, N, Q and the contexts empty. -/
theorem State.Inv.completeCommand (hst : s.decoder.stage = .idle) : (completeCommand s).Inv := by
  have hctx : ∀ x ∈ (Machine.completeCommand s).ctxs, x.ctx = Context.initial := fun x hx => by
    obtain ⟨y, -, rfl⟩ := List.mem_map.1 hx
    rfl
  have hn := h.noEncNote
  simp only [List.mem_append, not_or] at hn
  exact
    { h with
      ctxCount := by
        have hlen := congrArg List.length (writeCtxResults_keeps s.ctxs (s.compl.ctxResults.getD []))
        rw [List.length_map, List.length_map] at hlen
        simp [clearContexts, hlen, h.ctxCount]
      noEncBit := by
        rw [completeCommand_errs, ← Bool.not_eq_true, recordBits_getLsbD _ _ _ (by decide), h.noEncBit]
        rintro (hf | ⟨n, hmem, hcode⟩)
        · cases hf
        · cases n <;> first | exact hn.1 hmem | cases hcode
      noEncNote := by simp [hn.2]
      idleEmpty := fun _ => ⟨rfl, rfl, rfl, hst⟩
      idleContexts := fun _ => hctx
      bufFits := fun x hx => by rw [hctx x hx]; exact Nat.zero_le _
      doneIdle := fun _ => rfl }

theorem State.Inv.engineStep (hst : s.decoder.stage = .idle) : (engineStep s).Inv := by
  rcases engineStep_cases s with e | ⟨-, -, e⟩ | ⟨hp, hf, t, ts, -, e⟩
  · rwa [e]
  · exact e ▸ h.completeCommand hst
  · rw [e]
    exact
      { h with
        fifoFits := by simpa using hf
        idleEmpty := fun hi => nomatch hp.symm.trans hi }

/-- A section decode is run only inside a command (R64, log 7). -/
theorem State.Inv.busy_of_stage (hst : s.decoder.stage ≠ .idle) : s.phase = .busy := by
  cases hp : s.phase with
  | busy => rfl
  | idle =>
    obtain ⟨-, -, -, hidle⟩ := h.idleEmpty hp
    exact absurd hidle hst

theorem State.Inv.withDecoder {d : Work} (hst : s.decoder.stage ≠ .idle)
    (hn : .unsupportedEncoding ∉ s.decoder.notes → .unsupportedEncoding ∉ d.notes) :
    State.Inv { s with decoder := d } := by
  have hs := h.noEncNote
  simp only [List.mem_append, not_or] at hs
  exact
    { h with
      noEncNote := by simp [hs.1, hn hs.2]
      idleEmpty := fun hi => nomatch (h.busy_of_stage hst).symm.trans hi }

theorem State.Inv.closeDecode (hst : s.decoder.stage ≠ .idle) : (closeDecode s).Inv := by
  have hs := h.noEncNote
  rw [closeDecode_eq]
  exact
    { h with
      noEncNote := by simpa [Work.idle, Work.start] using hs
      idleEmpty := fun hi => nomatch (h.busy_of_stage hst).symm.trans hi }

end

/-- Settles O59, by everything a step can do. -/
theorem everyStepKeepsTheInvariant : Obligations.EveryStepKeepsTheInvariant := by
  unfold Obligations.EveryStepKeepsTheInvariant
  intro s t h ht
  cases step_cases ht with
  | decoder hst d e hn => exact e ▸ h.withDecoder hst hn
  | close hst e => exact e ▸ h.closeDecode (by simp [hst])
  | engine hst u hu e =>
    rcases hu with ⟨-, rfl⟩ | ⟨ms, -, rfl⟩
    · exact e ▸ h.engineStep hst
    · exact e ▸ (h.withSchedule ms).engineStep hst
  | reset _ ms _ e => exact e ▸ (h.withSchedule ms).resetBlock
  | wait _ ms _ e => exact e ▸ (h.withSchedule ms).waitRound
  | drain _ ms _ e => exact e ▸ (h.withSchedule ms).drainRound
  | command _ ms v _ e => exact (h.withSchedule ms).command (decodeCommand_isCommand v) e
  | host _ ms op _ e => exact e ▸ (h.withSchedule ms).hostStep op

/-! ### The CSR map (10_state.md R34, R35, R56) -/

theorem csrAt_ctxCfg (n c : Nat) : csrAt n (csrOffset (.ctxCfg c)) = if c < n then some (.ctxCfg c) else none := by
  have hc : (0x040 + 0x10 * c - 0x40) / 0x10 = c := by omega
  rw [csrOffset, csrAt_high (by omega), hc, if_pos (show (0x040 + 0x10 * c) % 0x10 = 0 by omega)]

theorem csrAt_ctxSecs (n c : Nat) :
    csrAt n (csrOffset (.ctxSecs c)) = if c < n then some (.ctxSecs c) else none := by
  have hc : (0x044 + 0x10 * c - 0x40) / 0x10 = c := by omega
  have hm : (0x044 + 0x10 * c) % 0x10 = 4 := by omega
  rw [csrOffset, csrAt_high (by omega), hc, hm]
  rfl

theorem csrAt_ctxState (n c : Nat) :
    csrAt n (csrOffset (.ctxState c)) = if c < n then some (.ctxState c) else none := by
  have hc : (0x048 + 0x10 * c - 0x40) / 0x10 = c := by omega
  have hm : (0x048 + 0x10 * c) % 0x10 = 8 := by omega
  rw [csrOffset, csrAt_high (by omega), hc, hm]
  rfl

/-- A register answers at its own offset, a context's when the context exists. -/
theorem csrAt_csrOffset {n : Nat} {r : CsrReg}
    (h : ∀ c, r = .ctxCfg c ∨ r = .ctxSecs c ∨ r = .ctxState c → c < n) : csrAt n (csrOffset r) = some r := by
  cases r with
  | ctxCfg c => rw [csrAt_ctxCfg, if_pos (h c (.inl rfl))]
  | ctxSecs c => rw [csrAt_ctxSecs, if_pos (h c (.inr (.inl rfl)))]
  | ctxState c => rw [csrAt_ctxState, if_pos (h c (.inr (.inr rfl)))]
  | _ => rfl

/-- At a register's offset no other register answers. -/
theorem csrAt_csrOffset_eq {n : Nat} {r r' : CsrReg} (h : csrAt n (csrOffset r) = some r') : r' = r := by
  cases r with
  | ctxCfg c => rw [csrAt_ctxCfg] at h; split at h <;> cases h; rfl
  | ctxSecs c => rw [csrAt_ctxSecs] at h; split at h <;> cases h; rfl
  | ctxState c => rw [csrAt_ctxState] at h; split at h <;> cases h; rfl
  | _ => cases h; rfl

/-- No offset answers for two registers. -/
theorem csrOffset_of_csrAt {n off : Nat} {r : CsrReg} (h : csrAt n off = some r) : csrOffset r = off := by
  by_cases hlow : off < 0x40
  · interval_cases off <;> cases h <;> rfl
  · rw [csrAt_high (by omega)] at h
    repeat' split at h
    all_goals cases h
    all_goals simp only [csrOffset]; omega

/-- The offsets of no register (R34, R56, R100). -/
theorem csrAt_unmapped {n off : Nat} (hn : n ≤ 15)
    (h : (∃ c, n ≤ c ∧ c ≤ 15 ∧ 0x040 + 0x10 * c ≤ off ∧ off ≤ 0x04F + 0x10 * c) ∨
      (∃ c, off = 0x04C + 0x10 * c) ∨ off % 4 ≠ 0 ∨ 0x140 ≤ off) : csrAt n off = none := by
  rcases h with ⟨c, hc, -, hlo, hhi⟩ | ⟨c, rfl⟩ | h | h
  · rw [csrAt_high (by omega), if_neg (by omega)]
  · have hm : (0x04C + 0x10 * c) % 0x10 = 12 := by omega
    rw [csrAt_high (by omega), hm]
    exact ite_self _
  · exact csrAt_unaligned h
  · rw [csrAt_high (by omega), if_neg (by omega)]

theorem csrRead_mapped {off : Nat} {s : State} {r : CsrReg} (h : csrAt s.inst.nCtx off = some r) :
    csrRead off s = s.reply (.csr (readReg s r)) := by
  rw [csrRead, h]
  rfl

theorem csrRead_unmapped {off : Nat} {s : State} (h : csrAt s.inst.nCtx off = none) :
    csrRead off s = s.reply (.csr 0) := by
  rw [csrRead, h]
  rfl

theorem csrWrite_mapped {off : Nat} {s : State} {r : CsrReg} (v : Word) (h : csrAt s.inst.nCtx off = some r) :
    csrWrite off v s = writeReg r v s := by
  rw [csrWrite, h]

theorem csrWrite_unmapped {off : Nat} {s : State} (v : Word) (h : csrAt s.inst.nCtx off = none) :
    csrWrite off v s = s := by
  rw [csrWrite, h]

theorem writeReg_readOnly {r : CsrReg} (v : Word) (s : State)
    (h : isResultReg r = true ∨ r = .hwcfg ∨ r = .capsize) : writeReg r v s = s := by
  have hr : r ≠ .status ∧ isConfigReg r = false := by
    rcases h with h | rfl | rfl
    · cases r <;> simp_all [isResultReg, isConfigReg]
    · exact ⟨nofun, rfl⟩
    · exact ⟨nofun, rfl⟩
  rw [writeReg, if_neg hr.1, hr.2]
  rfl

/-- Settles O7, by what answers at an offset. -/
theorem csrMapIsTheTable : Obligations.CsrMapIsTheTable := by
  unfold Obligations.CsrMapIsTheTable
  refine ⟨rfl, fun c => ⟨rfl, rfl, rfl⟩, fun s hn => ⟨fun r off => csrOffset_of_csrAt, fun r hr => ?own,
    fun r v hr => ?readOnly, fun off h => ?none⟩⟩
  case own =>
    have hat := csrAt_csrOffset hr
    exact ⟨hat, csrRead_mapped hat⟩
  case readOnly =>
    cases hat : csrAt s.inst.nCtx (csrOffset r) with
    | none => exact csrWrite_unmapped v hat
    | some r' =>
      obtain rfl := csrAt_csrOffset_eq hat
      rw [csrWrite_mapped v hat, writeReg_readOnly v s hr]
  case none =>
    have hat := csrAt_unmapped hn h
    exact ⟨csrRead_unmapped hat, fun v => csrWrite_unmapped v hat⟩

/-! ### STATUS and the interrupt level (10_state.md R37, R38) -/

theorem errMask_getLsbD (n : Nat) (hn : n < 12) : errMask.getLsbD n = (n != 4) := by
  interval_cases n <;> rfl

theorem errField_getLsbD (s : State) (n : Nat) (hn : n < 12) :
    s.errField.getLsbD n = (s.errs.getLsbD n && n != 4) := by
  rw [State.errField, BitVec.getLsbD_and, errMask_getLsbD n hn]

/-- STATUS.ERR is the OR of bits 19:8 (R38). -/
theorem errFlag_iff (s : State) : s.errFlag = true ↔ ∃ n, n < 12 ∧ s.errField.getLsbD n = true := by
  rw [State.errFlag, bne_iff_ne, ne_eq, ← not_iff_not, not_not]
  push Not
  constructor
  · intro h n _
    simp [h]
  · intro h
    exact BitVec.eq_of_getLsbD_eq fun n hn => by simpa using h n hn

/-- The STATUS word's bits 31:8 (R37). -/
theorem statusWord_getLsbD_high (s : State) (n : Nat) : s.statusWord.getLsbD (8 + n) = s.errField.getLsbD n := by
  rw [statusWord_getLsbD, if_neg (by omega), if_neg (by omega), if_neg (by omega), if_neg (by omega),
    if_neg (by omega), Nat.add_sub_cancel_left]

/-- Settles O8, from the STATUS word by bits. -/
theorem statusWordShowsTheFlags : Obligations.StatusWordShowsTheFlags := by
  unfold Obligations.StatusWordShowsTheFlags
  intro s
  have hdone : s.statusWord.getLsbD 1 = s.done := statusWord_getLsbD s 1
  have hflag : s.statusWord.getLsbD 2 = s.errFlag := statusWord_getLsbD s 2
  refine ⟨statusWord_getLsbD s 0, hdone, ?err, statusWord_getLsbD s 3, fun n hn hne => ?errs, ?enc, ?low, ?high, ?irq⟩
  case err =>
    rw [readReg, hflag, errFlag_iff]
    constructor
    · rintro ⟨n, hn, hbit⟩
      exact ⟨8 + n, by omega, by omega, (statusWord_getLsbD_high s n).trans hbit⟩
    · rintro ⟨n, hlo, hhi, hbit⟩
      obtain ⟨k, rfl⟩ := Nat.exists_eq_add_of_le hlo
      exact ⟨k, by omega, (statusWord_getLsbD_high s k).symm.trans hbit⟩
  case errs =>
    rw [readReg, statusWord_getLsbD_high, errField_getLsbD s n hn]
    simp [hne]
  case enc =>
    rw [readReg, statusWord_getLsbD_high s 4, errField_getLsbD s 4 (by decide)]
    simp
  case low =>
    refine BitVec.eq_of_getLsbD_eq fun i hi => ?_
    rw [BitVec.getLsbD_extractLsb', readReg, statusWord_getLsbD, if_neg (by omega), if_neg (by omega),
      if_neg (by omega), if_neg (by omega), if_pos (by omega)]
    simp
  case high =>
    refine BitVec.eq_of_getLsbD_eq fun i hi => ?_
    rw [BitVec.getLsbD_extractLsb', readReg, show 20 + i = 8 + (12 + i) by omega, statusWord_getLsbD_high,
      BitVec.getLsbD_of_ge _ _ (by omega)]
    simp
  case irq =>
    rw [readReg, readReg, hdone, hflag, State.irq, State.ieDone, State.ieErr]
    simp

/-! ### The sticky flags (10_state.md R37, R38, R61) -/

/-- A write of STATUS clears the error bits it writes 1 to, but not the read-only E_ENC (R37). -/
theorem clearStatus_errs_getLsbD (v : Word) (s : State) (n : Nat) (hn : n < 12) :
    (clearStatus v s).errs.getLsbD n = (s.errs.getLsbD n && (!v.getLsbD (8 + n) || n == 4)) := by
  rw [clearStatus_errs, BitVec.getLsbD_and, BitVec.getLsbD_not, BitVec.getLsbD_and, errMask_getLsbD n hn,
    BitVec.getLsbD_extractLsb', decide_eq_true hn]
  simp [Bool.beq_eq_decide_eq, bne]

/-- `clr` (R190) writes 1 to every W1C bit. -/
theorem clearStatus_clr {s : State} (h : s.errs.getLsbD 4 = false) : (clearStatus 0x000FFF02#32 s).errs = 0#12 := by
  refine BitVec.eq_of_getLsbD_eq fun n hn => ?_
  have hv : ∀ i < 12, (0x000FFF02#32).getLsbD (8 + i) = true := by decide
  rw [clearStatus_errs_getLsbD _ _ n hn, hv n hn]
  by_cases h4 : n = 4
  · rw [h4, h]
    rfl
  · simp [h4]

/-- The flags of `s` that `t` still has: DONE and the error bits stay set, and the interrupt enables are the same. -/
structure State.KeepsFlags (s t : State) : Prop where
  ctrl : t.ctrl = s.ctrl
  done : s.done = true → t.done = true
  errs : ∀ n, s.errs.getLsbD n = true → t.errs.getLsbD n = true

theorem State.KeepsFlags.of_eq {s t : State} (hc : t.ctrl = s.ctrl) (hd : t.done = s.done) (he : t.errs = s.errs) :
    s.KeepsFlags t := ⟨hc, fun h => hd.trans h, fun n h => by rwa [he]⟩

theorem State.KeepsFlags.of_withSchedule {s t : State} {ms : List Move}
    (h : State.KeepsFlags { s with schedule := ms } t) : s.KeepsFlags t := { h with }

theorem State.KeepsFlags.dropWrite (s : State) : s.KeepsFlags (dropWrite s) :=
  ⟨rfl, id, fun n h => by rw [dropWrite_errs, BitVec.getLsbD_or, h, Bool.true_or]⟩

theorem State.KeepsFlags.tokPop (s : State) : s.KeepsFlags (tokPop s) := by
  unfold Machine.tokPop
  split <;> exact .of_eq rfl rfl rfl

theorem State.KeepsFlags.drainRound (s : State) : s.KeepsFlags (drainRound s) := by
  rw [drainRound_eq]
  split
  · exact { State.KeepsFlags.tokPop s with }
  · exact .of_eq rfl rfl rfl

/-- Recording notes sets error bits only (R604). -/
theorem State.KeepsFlags.completeCommand (s : State) : s.KeepsFlags (completeCommand s) where
  ctrl := rfl
  done := fun _ => rfl
  errs := fun n h => by
    have hn : n < 12 := BitVec.lt_of_getLsbD h
    exact (recordBits_getLsbD s.notes s.errs n hn).2 (.inl h)

theorem State.KeepsFlags.engineStep (s : State) : s.KeepsFlags (engineStep s) := by
  rcases engineStep_cases s with e | ⟨-, -, e⟩ | ⟨-, -, t, ts, -, e⟩ <;> rw [e]
  · exact .of_eq rfl rfl rfl
  · exact .completeCommand s
  · exact .of_eq rfl rfl rfl

/-- The interrupt level falls only when one of the flags it is made of does (R38). -/
theorem State.KeepsFlags.irq {s t : State} (h : s.KeepsFlags t) (hs : s.irq = true) : t.irq = true := by
  have herr : s.errFlag = true → t.errFlag = true := by
    rw [errFlag_iff, errFlag_iff]
    rintro ⟨n, hn, hbit⟩
    rw [errField_getLsbD s n hn, Bool.and_eq_true] at hbit
    exact ⟨n, hn, by rw [errField_getLsbD t n hn, h.errs n hbit.1, hbit.2, Bool.and_self]⟩
  simp only [State.irq, State.ieDone, State.ieErr, h.ctrl, Bool.or_eq_true, Bool.and_eq_true] at hs ⊢
  exact hs.imp (And.imp_right h.done) (And.imp_right herr)

/-- What a write of a configuration register leaves outside the registers. -/
theorem storeReg_keeps (r : CsrReg) (v : Word) (s : State) :
    (storeReg r v s).done = s.done ∧ (storeReg r v s).errs = s.errs ∧ (storeReg r v s).mem = s.mem ∧
      (storeReg r v s).fifo = s.fifo := by
  cases r <;> exact ⟨rfl, rfl, rfl, rfl⟩

theorem storeReg_ctrl {r : CsrReg} (v : Word) (s : State) (h : r ≠ .ctrl) : (storeReg r v s).ctrl = s.ctrl := by
  cases r <;> first | rfl | exact absurd rfl h

/-- What a step does to the flags: it keeps them, or it is one of the four moves that may clear one. -/
inductive FlagStep (s t : State) : Prop where
  | keeps (h : s.KeepsFlags t)
  | reset (ms : List Move) (hs : s.schedule = .reset :: ms)
  | status (ms : List Move) (v : Word) (hs : s.schedule = .host (.csrWrite (csrOffset .status) v) :: ms)
      (hd : t.done = (s.done && !v.getLsbD 1))
      (he : ∀ n, n < 12 → t.errs.getLsbD n = (s.errs.getLsbD n && (!v.getLsbD (8 + n) || n == 4)))
  | ctrl (ms : List Move) (v : Word) (hs : s.schedule = .host (.csrWrite (csrOffset .ctrl) v) :: ms)
      (hp : s.phase = .idle) (hd : t.done = s.done) (he : t.errs = s.errs)
  | accept (ms : List Move) (v : Word) (hs : s.schedule = .host (.csrWrite (csrOffset .cmd) v) :: ms)
      (hp : s.phase = .idle) (he : t.errs = s.errs)

/-- A host operation, already taken off the schedule of `s`. -/
theorem hostStep_flags {s : State} {ms : List Move} {op : HostOp} (hs : s.schedule = .host op :: ms) :
    FlagStep s (hostStep op { s with schedule := ms }) := by
  rcases hostStep_cases op { s with schedule := ms } with ⟨r, e⟩ | ⟨x, xs, -, -, e⟩ | e | ⟨e, -⟩ |
    ⟨a, v, -, -, -, e⟩ | ⟨off, v, rfl, hat, e⟩ | ⟨off, v, r, rfl, hat, -, hp, e⟩ <;> rw [e]
  · exact .keeps (.of_eq rfl rfl rfl)
  · exact .keeps (.of_eq rfl rfl rfl)
  · exact .keeps (.of_eq rfl rfl rfl)
  · exact .keeps (State.KeepsFlags.dropWrite _).of_withSchedule
  · exact .keeps (.of_eq rfl rfl rfl)
  · obtain rfl := csrOffset_of_csrAt hat
    exact .status ms v hs rfl (clearStatus_errs_getLsbD v s)
  · obtain rfl := csrOffset_of_csrAt hat
    obtain ⟨hd, he, -, -⟩ := storeReg_keeps r v { s with schedule := ms }
    by_cases hr : r = .ctrl
    · exact .ctrl ms v (hr ▸ hs) hp hd he
    · exact .keeps (.of_eq (storeReg_ctrl v _ hr) hd he)

theorem step_flags {s t : State} (h : step s = .next t) : FlagStep s t := by
  cases step_cases h with
  | decoder _ d e _ => exact e ▸ .keeps (.of_eq rfl rfl rfl)
  | close _ e => exact e ▸ .keeps (.of_eq rfl rfl rfl)
  | engine _ u hu e =>
    rcases hu with ⟨-, rfl⟩ | ⟨ms, -, rfl⟩
    · exact e ▸ .keeps (.engineStep _)
    · exact e ▸ .keeps (State.KeepsFlags.engineStep _).of_withSchedule
  | reset _ ms hs _ => exact .reset ms hs
  | wait _ ms _ e =>
    rw [e, waitRound_eq]
    exact .keeps (.of_eq rfl rfl rfl)
  | drain _ ms _ e => exact e ▸ .keeps (State.KeepsFlags.drainRound _).of_withSchedule
  | command _ ms v hs e =>
    rcases exec_command_cases (decodeCommand_isCommand v) e with ⟨hp, op, r, rfl, -, -⟩ | ⟨-, rfl⟩
    · exact .accept ms v hs hp rfl
    · exact .keeps (State.KeepsFlags.dropWrite _).of_withSchedule
  | host _ ms op hs e => exact e ▸ hostStep_flags hs

/-- Settles O9: a step that keeps the flags keeps the level, and every other step is one of those named. -/
theorem irqFallsOnlyByTheHostOrReset : Obligations.IrqFallsOnlyByTheHostOrReset := by
  unfold Obligations.IrqFallsOnlyByTheHostOrReset
  intro s t h hs ht
  cases step_flags h with
  | keeps k => exact absurd (k.irq hs) (by simp [ht])
  | reset ms hms => exact ⟨ms, .inl hms⟩
  | status ms v hms _ _ => exact ⟨ms, .inr ⟨_, v, hms, .inl rfl⟩⟩
  | ctrl ms v hms hp _ _ => exact ⟨ms, .inr ⟨_, v, hms, .inr ⟨hp, .inl rfl⟩⟩⟩
  | accept ms v hms hp _ => exact ⟨ms, .inr ⟨_, v, hms, .inr ⟨hp, .inr rfl⟩⟩⟩

/-- A write at STATUS's offset, in every state (R37). -/
theorem csrWrite_status (v : Word) (s : State) : csrWrite 0x004 v s = clearStatus v s := rfl

/-- Settles O10: the write by bits, and the steps by what they do to the flags. -/
theorem statusBitsAreSticky : Obligations.StatusBitsAreSticky := by
  unfold Obligations.StatusBitsAreSticky
  refine ⟨fun s v => ?write, fun s t h hreset => ?step⟩
  case write =>
    simp only [csrWrite_status]
    exact ⟨rfl, clearStatus_errs_getLsbD v s, fun h => ⟨clearStatus_clr h, by simp⟩⟩
  case step =>
    cases step_flags h with
    | keeps k =>
      exact ⟨fun n hs ht => absurd (k.errs n hs) (by simp [ht]), fun hs ht => absurd (k.done hs) (by simp [ht])⟩
    | reset ms hms => exact absurd hms (hreset ms)
    | status ms v hms hd he =>
      refine ⟨fun n hs ht => ⟨v, ms, hms, ?_⟩, fun hs ht => ⟨_, v, ms, hms, .inl ⟨rfl, ?_⟩⟩⟩
      · rw [he n (BitVec.lt_of_getLsbD hs), hs, Bool.true_and, Bool.or_eq_false_iff] at ht
        simpa using ht.1
      · rw [hd, hs] at ht
        simpa using ht
    | ctrl ms v _ _ hd he =>
      exact ⟨fun n hs ht => absurd hs (by simp [← he, ht]), fun hs ht => absurd hs (by simp [← hd, ht])⟩
    | accept ms v hms hp he =>
      exact ⟨fun n hs ht => absurd hs (by simp [← he, ht]), fun _ _ => ⟨_, v, ms, hms, .inr ⟨rfl, hp⟩⟩⟩

/-! ### The configuration registers (10_state.md R39-R44, R53, R57) -/

/-- A class code as a write leaves it: 4 and 5 become 6 (R44, R53). -/
theorem classCode_classOfCode (b : BitVec 3) :
    classCode (classOfCode b) = if b &&& 0x6#3 = 0x4#3 then 0x6#3 else b := by
  revert b
  decide

/-- The codes 4 and 5 in a field of a word, which a write stores as 6. -/
theorem classField_iff (v : Word) {k : Nat} (hk : k ≤ 29) :
    v &&& 0x6#32 <<< k = 0x4#32 <<< k ↔ v.extractLsb' k 3 &&& 0x6#3 = 0x4#3 := by
  have hfield : ∀ b : BitVec 3, b &&& 0x6#3 = 0x4#3 ↔ b.getLsbD 1 = false ∧ b.getLsbD 2 = true := by decide
  have hmask : ∀ j < 32, (0x6#32).getLsbD j = (j == 1 || j == 2) ∧ (0x4#32).getLsbD j = (j == 2) := by decide
  have hbit : ∀ j, k + j < 32 → ((v &&& 0x6#32 <<< k).getLsbD (k + j) = (v.getLsbD (k + j) && (j == 1 || j == 2)) ∧
      (0x4#32 <<< k).getLsbD (k + j) = (j == 2)) := fun j hj => by
    obtain ⟨h6, h4⟩ := hmask j (by omega)
    simp only [BitVec.getLsbD_and, BitVec.getLsbD_shiftLeft, hj, Nat.add_sub_cancel_left, h6, h4]
    simp
  rw [hfield, BitVec.getLsbD_extractLsb', BitVec.getLsbD_extractLsb']
  constructor
  · intro h
    obtain ⟨h6, h4⟩ := hbit 1 (by omega)
    obtain ⟨h6', h4'⟩ := hbit 2 (by omega)
    rw [h] at h6 h6'
    exact ⟨by simpa using h6.symm.trans h4, by simpa using h6'.symm.trans h4'⟩
  · rintro ⟨h1, h2⟩
    refine BitVec.eq_of_getLsbD_eq fun i hi => ?_
    by_cases hik : i < k
    · simp [BitVec.getLsbD_shiftLeft, hik]
    · obtain ⟨j, rfl⟩ := Nat.exists_eq_add_of_le (Nat.le_of_not_lt hik)
      obtain ⟨h6, h4⟩ := hbit j hi
      rw [h6, h4]
      by_cases hj1 : j = 1
      · subst hj1; simpa using h1
      · by_cases hj2 : j = 2
        · subst hj2; simpa using h2
        · rw [beq_false_of_ne hj1, beq_false_of_ne hj2, Bool.or_self, Bool.and_false]

/-- PIDF as read, by bits (R43). -/
theorem pidfWord_getLsbD (s : State) (i : Nat) :
    s.pidfWord.getLsbD i = if i < 13 then s.pidfPid.getLsbD i else i == 31 && s.pidfEn := by
  rw [State.pidfWord, BitVec.getLsbD_append, BitVec.getLsbD_append, BitVec.getLsbD_ofBool]
  by_cases h1 : i < 13
  · simp [h1]
  · by_cases h2 : i - 13 < 18
    · simp [h1, h2, show i ≠ 31 by omega]
    · by_cases h3 : i = 31
      · simp [h3]
      · simp [h1, h2, h3, show ¬i - 13 - 18 = 0 by omega]

/-- CTX_CFG[c] as read, by bits (R53). -/
theorem CtxCfg.word_getLsbD (c : CtxCfg) (i : Nat) : c.word.getLsbD i =
    if i < 13 then c.pid.getLsbD i else if i < 16 then (classCode c.cls).getLsbD (i - 13)
    else if i = 16 then c.en else if i = 17 then c.all else if i = 18 then c.raw else if i = 19 then c.pkts
    else false := by
  rw [CtxCfg.word]
  simp only [BitVec.getLsbD_append, BitVec.getLsbD_ofBool, BitVec.getLsbD_zero]
  by_cases h1 : i < 13
  · simp [h1]
  · by_cases h2 : i < 16
    · simp [h1, h2, show i - 13 < 3 by omega]
    · obtain ⟨j, rfl⟩ := Nat.exists_eq_add_of_le (Nat.le_of_not_lt h2)
      rcases j with _ | _ | _ | _ | j
      · simp
      · simp
      · simp
      · simp
      · repeat rw [if_neg (by omega)]

theorem pidfWord_pid (s : State) : s.pidfWord.extractLsb' 0 13 = s.pidfPid := by
  refine BitVec.eq_of_getLsbD_eq fun i hi => ?_
  simp [pidfWord_getLsbD, hi]

theorem CtxCfg.word_pid (c : CtxCfg) : c.word.extractLsb' 0 13 = c.pid := by
  refine BitVec.eq_of_getLsbD_eq fun i hi => ?_
  simp [CtxCfg.word_getLsbD, hi]

theorem CtxCfg.word_cls (c : CtxCfg) : c.word.extractLsb' 13 3 = classCode c.cls := by
  refine BitVec.eq_of_getLsbD_eq fun i hi => ?_
  simp [CtxCfg.word_getLsbD, hi, show 13 + i < 16 by omega]

/-- A field at bit 0, alone in its register, as a mask of the word written. -/
theorem lowField_eq_and {k : Nat} {m : Word} (hm : ∀ i < 32, m.getLsbD i = decide (i < k)) (v : Word) :
    (v.extractLsb' 0 k).setWidth 32 = v &&& m := by
  refine BitVec.eq_of_getLsbD_eq fun i hi => ?_
  rw [BitVec.getLsbD_setWidth, BitVec.getLsbD_extractLsb', BitVec.getLsbD_and, hm i hi, Nat.zero_add, decide_eq_true hi,
    Bool.true_and, Bool.and_comm]

theorem decClass_word_stored (v : Word) : (classCode (classOfCode (v.extractLsb' 0 3))).setWidth 32 =
    if v &&& 0x6#32 = 0x4#32 then 0x6#32 else v &&& 0x7#32 := by
  rw [classCode_classOfCode]
  simp only [← classField_iff v (k := 0) (by decide), BitVec.shiftLeft_zero]
  split
  · rfl
  · exact lowField_eq_and (by decide) v

theorem pidfWord_storeReg (v : Word) (s : State) : (storeReg .pidf v s).pidfWord = v &&& 0x80001FFF#32 := by
  have hmask : ∀ i < 32, (0x80001FFF#32).getLsbD i = (decide (i < 13) || decide (i = 31)) := by decide
  refine BitVec.eq_of_getLsbD_eq fun i hi => ?_
  rw [pidfWord_getLsbD, BitVec.getLsbD_and, hmask i hi]
  by_cases h1 : i < 13
  · simp [storeReg, h1]
  · by_cases h2 : i = 31
    · subst h2; simp [storeReg]
    · simp [h1, h2]

theorem CtxCfg.word_ofWord (v : Word) : (CtxCfg.ofWord v).word =
    if v &&& 0xC000#32 = 0x8000#32 then v &&& 0x000F1FFF#32 ||| 0xC000#32 else v &&& 0x000FFFFF#32 := by
  have hcode : v &&& 0xC000#32 = 0x8000#32 ↔ _ := classField_iff v (k := 13) (by decide)
  by_cases hc : v.extractLsb' 13 3 &&& 0x6#3 = 0x4#3
  · rw [if_pos (hcode.2 hc)]
    refine BitVec.eq_of_getLsbD_eq fun i hi => ?_
    rw [CtxCfg.word_getLsbD]
    simp only [CtxCfg.ofWord, classCode_classOfCode, if_pos hc]
    interval_cases i <;> simp
  · rw [if_neg (hcode.not.2 hc)]
    refine BitVec.eq_of_getLsbD_eq fun i hi => ?_
    rw [CtxCfg.word_getLsbD]
    simp only [CtxCfg.ofWord, classCode_classOfCode, if_neg hc]
    interval_cases i <;> simp

/-- The slot of a context after a write of some CTX_CFG (R53). -/
theorem storeReg_ctxCfg_getElem? (c d : Nat) (v : Word) (s : State) : (storeReg (.ctxCfg c) v s).ctxs[d]? =
    (fun x => if c = d then { x with cfg := CtxCfg.ofWord v } else x) <$> s.ctxs[d]? :=
  List.getElem?_modify ..

/-- What a configuration register reads after `v` is written to it (R39-R44, R53). -/
def storedWord (r : CsrReg) (v : Word) : Word :=
  match r with
  | .ctrl => v &&& 0x0000000F#32
  | .start | .endOff => v
  | .pidf => v &&& 0x80001FFF#32
  | .decClass => if v &&& 0x6#32 = 0x4#32 then 0x6#32 else v &&& 0x7#32
  | .ctxCfg _ => if v &&& 0xC000#32 = 0x8000#32 then v &&& 0x000F1FFF#32 ||| 0xC000#32 else v &&& 0x000FFFFF#32
  | _ => 0

theorem readReg_storeReg_same {s : State} {r : CsrReg} (v : Word) (hr : isConfigReg r = true)
    (hc : ∀ c, r = .ctxCfg c → c < s.ctxs.length) : readReg (storeReg r v s) r = storedWord r v := by
  cases r with
  | ctrl => exact lowField_eq_and (by decide) v
  | start => rfl
  | endOff => rfl
  | pidf => exact pidfWord_storeReg v s
  | decClass => exact decClass_word_stored v
  | ctxCfg c =>
    rw [readReg, storeReg_ctxCfg_getElem?, List.getElem?_eq_getElem (hc c rfl), storedWord, ← CtxCfg.word_ofWord]
    simp
  | _ => cases hr

/-- A write to a configuration register is seen in no other register but STATUS. -/
theorem readReg_storeReg_other {r r' : CsrReg} (v : Word) (s : State) (hne : r' ≠ r) (hs : r' ≠ .status) :
    readReg (storeReg r v s) r' = readReg s r' := by
  cases r with
  | ctxCfg c =>
    cases r' with
    | ctxCfg d =>
      have hcd : c ≠ d := fun e => hne (e ▸ rfl)
      rw [readReg, readReg, storeReg_ctxCfg_getElem?]
      simp [hcd]
    | ctxSecs d =>
      rw [readReg, readReg, storeReg_ctxCfg_getElem?]
      by_cases hcd : c = d <;> simp [hcd, Function.comp_def]
    | ctxState d =>
      rw [readReg, readReg, storeReg_ctxCfg_getElem?]
      by_cases hcd : c = d <;> simp [hcd, Function.comp_def]
    | status => exact absurd rfl hs
    | _ => rfl
  | _ => cases r' <;> first | exact absurd rfl hs | exact absurd rfl hne | rfl

theorem writeReg_config {r : CsrReg} (v : Word) (s : State) (hr : isConfigReg r = true) :
    writeReg r v s = if s.phase = .idle then storeReg r v s else dropWrite s := by
  have hs : r ≠ .status := by
    rintro rfl
    cases hr
  rw [writeReg, if_neg hs, if_pos hr]
  cases s.phase <;> rfl

/-- A register that answers belongs to a context that exists. -/
theorem csrAt_ctxCfg_lt {n c off : Nat} (h : csrAt n off = some (.ctxCfg c)) : c < n := by
  have hoff := csrOffset_of_csrAt h
  rw [← hoff, csrAt_ctxCfg] at h
  split at h
  · assumption
  · cases h

/-- Settles O11: the words by bits, and a write by whether the block is busy. -/
theorem configurationWritesStoreOrAreDropped : Obligations.ConfigurationWritesStoreOrAreDropped := by
  unfold Obligations.ConfigurationWritesStoreOrAreDropped
  refine ⟨fun s => ?fields, fun s r v hr hlen hat => ?write⟩
  case fields =>
    intro code
    have hcode : ∀ k, code k = classCode k := fun k => by cases k <;> rfl
    refine ⟨rfl, rfl, rfl, pidfWord_getLsbD s 31, pidfWord_pid s, by rw [hcode, readReg], fun c x hx => ?_⟩
    have hv : readReg s (.ctxCfg c) = x.cfg.word := by
      rw [readReg, hx]
      rfl
    dsimp only
    rw [hv, hcode]
    have hbit := CtxCfg.word_getLsbD x.cfg
    exact ⟨x.cfg.word_pid, x.cfg.word_cls, hbit 16, hbit 17, hbit 18, hbit 19⟩
  case write =>
    rw [csrWrite_mapped v hat, writeReg_config v s hr]
    refine ⟨fun hp => ?_, fun hp => ?_⟩
    · rw [if_pos hp]
      obtain ⟨hd, he, hmem, hfifo⟩ := storeReg_keeps r v s
      have hc : ∀ c, r = .ctxCfg c → c < s.ctxs.length := fun c e => hlen ▸ csrAt_ctxCfg_lt (e ▸ hat)
      refine ⟨(readReg_storeReg_same v hr hc).trans ?_, fun r' => readReg_storeReg_other v s, he, hd, hmem, hfifo⟩
      cases r <;> rfl
    · rw [if_neg (by simp [hp])]
      rfl

/-! ### The commands: what they drop, and what they keep (10_state.md R34, R36, R61) -/

/-- Settles O14: while busy, acceptance drops the write. -/
theorem busyBlockDropsCommands : Obligations.BusyBlockDropsCommands := by
  unfold Obligations.BusyBlockDropsCommands
  intro i s hi hp
  obtain ⟨op, r, hexec, -⟩ := exec_command hi
  rw [hexec, acceptCommand_busy op r hp]
  rfl

/-- A register of a context shows only what every command keeps of its slot. -/
theorem getElem?_regs {xs ys : List CtxSlot} (h : ys.map CtxSlot.regs = xs.map CtxSlot.regs) (c : Nat) :
    ys[c]?.map CtxSlot.regs = xs[c]?.map CtxSlot.regs := by
  rw [← List.getElem?_map, h, List.getElem?_map]

theorem readReg_startCommand {s : State} {e : ExecResult} (op : BitVec 4) (he : e.Sound s) {r : CsrReg}
    (hcmd : r ≠ .cmd) (hstatus : r ≠ .status) : readReg (startCommand op e s) r = readReg s r := by
  cases r with
  | cmd => exact absurd rfl hcmd
  | status => exact absurd rfl hstatus
  | ctxCfg c =>
    have h := congrArg (Option.map (·.1.word)) (getElem?_regs he.regs c)
    rw [Option.map_map, Option.map_map] at h
    exact congrArg (Option.getD · 0) h
  | ctxSecs c =>
    have h := congrArg (Option.map (·.2.1)) (getElem?_regs he.regs c)
    rw [Option.map_map, Option.map_map] at h
    exact congrArg (Option.getD · 0) h
  | ctxState c =>
    have h := congrArg (Option.map (·.2.2.code.setWidth 32)) (getElem?_regs he.regs c)
    rw [Option.map_map, Option.map_map] at h
    exact congrArg (Option.getD · 0) h
  | _ => rfl

theorem readReg_dropWrite (s : State) {r : CsrReg} (hstatus : r ≠ .status) :
    readReg (dropWrite s) r = readReg s r := by
  cases r with
  | status => exact absurd rfl hstatus
  | _ => rfl

/-- Settles O15, by whether the command is accepted or dropped. -/
theorem commandsKeepEverythingElse : Obligations.CommandsKeepEverythingElse := by
  unfold Obligations.CommandsKeepEverythingElse
  intro i s t hi ht
  rcases exec_command_cases hi ht with ⟨hp, op, e, rfl, hop, he⟩ | ⟨hp, rfl⟩
  · exact ⟨fun r => readReg_startCommand op he, State.capAt_congr rfl rfl rfl, rfl, rfl, rfl, rfl, rfl,
      fun _ => ⟨rfl, rfl, rfl, hop.symm⟩, fun hb => nomatch hp.symm.trans hb⟩
  · exact ⟨fun r _ => readReg_dropWrite s, State.capAt_congr rfl rfl rfl, rfl, rfl, rfl, rfl, rfl,
      fun hi => (nomatch hp.symm.trans hi), fun _ => ⟨hp, rfl, rfl, rfl⟩⟩

/-! ### The framer's packets (40_framer.md R200, R207, R212, R215) -/

/-- `find_sync` answers `q` exactly when `q` is the first offset of the range with the condition of R200. -/
theorem findSync_eq_some_iff {cap : Nat → Byte} {a e q : Nat} :
    findSync cap a e = some q ↔ a ≤ q ∧ q + 188 < e ∧ IsSync cap q ∧ ∀ j, a ≤ j → j < q → ¬IsSync cap j := by
  refine ⟨findSync_some, fun ⟨ha, he, hq, hfirst⟩ => ?_⟩
  cases hf : findSync cap a e with
  | none => exact absurd hq (findSync_none hf q ha he)
  | some p =>
    obtain ⟨hap, hpe, hp, hpfirst⟩ := findSync_some hf
    rcases Nat.lt_trichotomy p q with hlt | rfl | hlt
    · exact absurd hp (hfirst p hap hlt)
    · rfl
    · exact absurd hq (hpfirst q ha hlt)

theorem frame_syncOff (g : FrameArgs) (start : Nat) : (frame g start).syncOff = findSync g.cap start g.endOff := by
  unfold frame
  cases findSync g.cap start g.endOff <;> rfl

theorem frame_sliced_of_none {g : FrameArgs} {start : Nat} (h : (frame g start).syncOff = none) :
    (frame g start).sliced = ⟨[], 0, 0, start⟩ := by
  rw [frame_syncOff] at h
  rw [frame, h]

/-- The loop starts at the first sync offset, with enough iterations (R215, R216). -/
theorem frame_sliced_of_some {g : FrameArgs} {start q : Nat} (h : (frame g start).syncOff = some q) :
    (frame g start).sliced = sliceFrames g (g.endOff - q) q := by
  rw [frame_syncOff] at h
  rw [frame, h]
  have hq := (findSync_some h).1
  exact sliceFrames_fuel g _ _ q (by omega) (Nat.le_refl _)

theorem Sliced.Sound.mono {g : FrameArgs} {a b : Nat} {r : Sliced} (h : r.Sound g b) (hab : a ≤ b) : r.Sound g a where
  pos := ⟨hab.trans h.pos.1, h.pos.2⟩
  kept := h.kept
  count := h.count
  all := h.all
  pkts := fun p hp => by
    obtain ⟨x, hx, hrest⟩ := h.pkts p hp
    exact ⟨x, hab.trans hx, hrest⟩

theorem frame_sound {g : FrameArgs} {start : Nat} (h : start ≤ g.endOff) : (frame g start).sliced.Sound g start := by
  cases hf : (frame g start).syncOff with
  | none =>
    rw [frame_sliced_of_none hf]
    exact ⟨⟨Nat.le_refl _, h⟩, rfl, Nat.le_refl _, fun _ => rfl, by simp⟩
  | some q =>
    rw [frame_sliced_of_some hf]
    obtain ⟨hq, hend, -, -⟩ := findSync_some ((frame_syncOff g start).symm.trans hf)
    exact (sliceFrames_sound g _ q (by omega)).mono hq

/-- Settles O27, from what every loop of the slicer guarantees. -/
theorem retainedPacketsLieInTheRegion : Obligations.RetainedPacketsLieInTheRegion := by
  unfold Obligations.RetainedPacketsLieInTheRegion
  intro s hr
  have hsound : s.frame.sliced.Sound s.frameArgs s.start.toNat := frame_sound hr.1
  refine ⟨fun p hp => ?packet, hsound.kept, hsound.count, hsound.all, hsound.pos.1, hsound.pos.2, frame_sliced_of_none,
    fun q => ⟨?first, ?loop⟩⟩
  case packet =>
    obtain ⟨a, ha, hend, hsync, hretained, rfl⟩ := hsound.pkts p hp
    have hoff : (decodePacket s.capAt s.afcHonor a).offset.toNat = a := by
      have hend32 := s.endOff.isLt
      have hend' : a + 188 ≤ s.endOff.toNat := hend
      exact Nat.mod_eq_of_lt (by omega)
    refine ⟨hoff.symm ▸ ha, hoff.symm ▸ hend, hoff.symm ▸ hsync, fun hen => ?_, ?_⟩
    · have hen' : s.frameArgs.pidfEn = true := hen
      rw [FrameArgs.retains, hen'] at hretained
      exact beq_iff_eq.1 hretained
    · show (payload _ _ _ _).length ≤ 184
      rw [payload_length]
      split
      · exact Nat.le_refl _
      · split <;> omega
  case first =>
    rw [State.frame, frame_syncOff, findSync_eq_some_iff, and_assoc]
    rfl
  case loop => exact frame_sliced_of_some

end Sys2Proof.Machine

/-! PROOFS. Capture memory (O12, O13): what a CapWrite does, which steps change a byte, and that a command reads its
region only. -/

namespace Sys2Proof.Machine

/-! ### The CAPMEM port (20_memory.md R100, R102) -/

theorem capWrite_idle {s : State} (a : Nat) (v : Byte) (hp : s.phase = .idle) :
    capWrite a v s = if a < s.inst.capSize then { s with mem := s.mem.write a v } else s := by
  rw [capWrite, hp]

theorem capWrite_busy {s : State} (a : Nat) (v : Byte) (hp : s.phase = .busy) :
    capWrite a v s = if a < s.inst.capSize ∨ Config.hazardOutsideCap = true then dropWrite s else s := by
  rw [capWrite, hp]

theorem dropWrite_capAt (s : State) (a : Nat) : (dropWrite s).capAt a = s.capAt a :=
  State.capAt_congr rfl rfl rfl a

/-- Settles O12, by whether the block is busy and whether the address is inside CAPMEM. -/
theorem capmemHoldsTheLastByteWritten : Obligations.CapmemHoldsTheLastByteWritten := by
  unfold Obligations.CapmemHoldsTheLastByteWritten
  intro s a v
  refine ⟨fun hp ha => ?stored, fun hp ha => ?ignored, fun ha => ?beyond, fun hp => ?busy, rfl⟩
  case stored =>
    refine ⟨capWrite_capAt_same v hp ha, fun b => capWrite_capAt_other v, ?_⟩
    rw [capWrite_idle a v hp, if_pos ha]
  case ignored => rw [capWrite_idle a v hp, if_neg (Nat.not_lt.2 ha)]
  case beyond => rw [State.capAt, if_neg (Nat.not_lt.2 ha)]
  case busy =>
    rw [capWrite_busy a v hp]
    refine ⟨fun b => ?_, fun ha => if_pos (.inl ha)⟩
    split
    · exact dropWrite_capAt s b
    · rfl

/-! ### The steps that change a byte of CAPMEM (20_memory.md R101) -/

theorem engineStep_capAt (s : State) (a : Nat) : (engineStep s).capAt a = s.capAt a := by
  obtain ⟨hmem, hepoch, hinst⟩ := engineStep_keeps_memory s
  exact State.capAt_congr hinst hmem hepoch a

theorem exec_capAt {i : Instr} {s t : State} (h : exec i s = .next t) (a : Nat) : t.capAt a = s.capAt a := by
  obtain ⟨hmem, hepoch, hinst⟩ := exec_keeps_memory h
  exact State.capAt_congr hinst hmem hepoch a

theorem storeReg_capAt (r : CsrReg) (v : Word) (s : State) (a : Nat) : (storeReg r v s).capAt a = s.capAt a := by
  cases r <;> exact State.capAt_congr rfl rfl rfl a

theorem drainRound_capAt (s : State) (a : Nat) : (drainRound s).capAt a = s.capAt a := by
  rw [drainRound_eq, tokPop]
  split
  · split <;> exact State.capAt_congr rfl rfl rfl a
  · rfl

/-- A host operation that changes a byte is a CapWrite to it while BUSY = 0. -/
theorem hostStep_capAt {op : HostOp} {s : State} {a : Nat} (h : (hostStep op s).capAt a ≠ s.capAt a) :
    s.phase = .idle ∧ ∃ v, op = .capWrite a v := by
  have changes : ∀ {u : State}, hostStep op s = u → u.capAt a ≠ s.capAt a := fun e => e ▸ h
  rcases hostStep_cases op s with ⟨r, e⟩ | ⟨x, xs, -, -, e⟩ | e | ⟨e, -⟩ | ⟨b, v, rfl, hp, -, -⟩ |
    ⟨off, v, -, -, e⟩ | ⟨off, v, r, -, -, -, -, e⟩
  · exact (changes e (State.capAt_congr rfl rfl rfl a)).elim
  · exact (changes e (State.capAt_congr rfl rfl rfl a)).elim
  · exact (changes e rfl).elim
  · exact (changes e (dropWrite_capAt s a)).elim
  · by_cases hab : a = b
    · exact ⟨hp, v, by rw [hab]⟩
    · exact absurd (capWrite_capAt_other v hab) h
  · exact (changes e (State.capAt_congr rfl rfl rfl a)).elim
  · exact (changes e (storeReg_capAt r v s a)).elim

/-- Taking a move off the schedule leaves CAPMEM as it is. -/
theorem withSchedule_capAt (s : State) (ms : List Move) (a : Nat) :
    State.capAt { s with schedule := ms } a = s.capAt a :=
  State.capAt_congr rfl rfl rfl a

/-- A step that changes a byte is a reset, or the host's CapWrite to it while BUSY = 0. -/
theorem step_capAt {s t : State} {a : Nat} (h : step s = .next t) (hne : t.capAt a ≠ s.capAt a) :
    ∃ ms, s.schedule = .reset :: ms ∨ (s.phase = .idle ∧ ∃ v, s.schedule = .host (.capWrite a v) :: ms) := by
  cases step_cases h with
  | reset _ ms hs _ => exact ⟨ms, .inl hs⟩
  | host _ ms op hs e =>
    rw [e, ← withSchedule_capAt s ms] at hne
    obtain ⟨hp, v, rfl⟩ := hostStep_capAt hne
    exact ⟨ms, .inr ⟨hp, v, hs⟩⟩
  | decoder _ d e _ => exact absurd (e ▸ State.capAt_congr rfl rfl rfl a) hne
  | close _ e => exact absurd (e ▸ State.capAt_congr rfl rfl rfl a) hne
  | engine _ u hu e =>
    rcases hu with ⟨-, rfl⟩ | ⟨ms, -, rfl⟩
    · exact absurd (e ▸ engineStep_capAt _ a) hne
    · exact absurd (e ▸ (engineStep_capAt _ a).trans (withSchedule_capAt s ms a)) hne
  | wait _ ms _ e =>
    rw [waitRound_eq] at e
    exact absurd (e ▸ State.capAt_congr rfl rfl rfl a) hne
  | drain _ ms _ e => exact absurd (e ▸ (drainRound_capAt _ a).trans (withSchedule_capAt s ms a)) hne
  | command _ ms v _ e => exact absurd ((exec_capAt e a).trans (withSchedule_capAt s ms a)) hne

/-! ### A command reads its region only (10_state.md R33, R42) -/

/-- The same block over another CAPMEM: the bytes written and the draw of the others. -/
def State.over (s : State) (m : Memory) (e : Nat) : State := { s with mem := m, epoch := e }

/-- The other CAPMEM holds the same bytes inside `[START, END)`. -/
def State.SameRegion (s : State) (m : Memory) (e : Nat) : Prop :=
  ∀ a, s.start.toNat ≤ a → a < s.endOff.toNat → (s.over m e).capAt a = s.capAt a

section
variable {s : State} {m : Memory} {e : Nat} (h : s.SameRegion m e)
include h

theorem State.SameRegion.capBytes :
    (s.over m e).capBytes (s.over m e).start.toNat (s.over m e).endOff.toNat =
      s.capBytes s.start.toNat s.endOff.toNat :=
  capSlice_congr h

theorem State.SameRegion.findSync :
    findSync (s.over m e).capAt (s.over m e).start.toNat (s.over m e).endOff.toNat =
      findSync s.capAt s.start.toNat s.endOff.toNat :=
  findSync_congr h (Nat.le_refl _)

theorem State.SameRegion.frame : (s.over m e).frame = s.frame :=
  (frame_congr (g := s.frameArgs) fun i hi he => (h i hi he).symm).symm

theorem State.SameRegion.findSyncResult : findSyncResult (s.over m e) = findSyncResult s := by
  simp only [Machine.findSyncResult, h.findSync]
  rfl

theorem State.SameRegion.parseResult : parseResult (s.over m e) = parseResult s := by
  simp only [Machine.parseResult, h.frame]
  rfl

theorem State.SameRegion.runResult : runResult (s.over m e) = runResult s := by
  simp only [Machine.runResult, h.frame]
  rfl

theorem State.SameRegion.decodeResult : decodeResult (s.over m e) = decodeResult s := by
  simp only [Machine.decodeResult, h.capBytes]
  rfl

theorem State.SameRegion.crcCommandResult : crcCommandResult (s.over m e) = crcCommandResult s := by
  simp only [Machine.crcCommandResult, h.capBytes]
  rfl

end

/-- Outside a legal region a command reads nothing (R608). -/
theorem checkRegion_over {r : State → ExecResult} {s : State} {m : Memory} {e : Nat}
    (h : s.HasRegion → r (s.over m e) = r s) : checkRegion r (s.over m e) = checkRegion r s := by
  show (if s.legalRegion then r (s.over m e) else badRegion s) = if s.legalRegion then r s else badRegion s
  split
  · exact h ((legalRegion_iff s).1 ‹_›)
  · rfl

/-- A command with the same result is accepted or dropped alike, and leaves CAPMEM as it found it. -/
theorem acceptCommand_over (op : BitVec 4) {r : State → ExecResult} {s t : State} {m : Memory} {e : Nat}
    (h : r (s.over m e) = r s) (ht : acceptCommand op r s = .next t) :
    acceptCommand op r (s.over m e) = .next (t.over m e) := by
  cases hp : s.phase with
  | idle =>
    rw [acceptCommand_idle op r hp] at ht
    injection ht with ht
    rw [acceptCommand_idle op r (show (s.over m e).phase = .idle from hp), h, ← ht]
    rfl
  | busy =>
    rw [acceptCommand_busy op r hp] at ht
    injection ht with ht
    rw [acceptCommand_busy op r (show (s.over m e).phase = .busy from hp), ← ht]
    rfl

/-- Over bytes that agree inside the legal region, an instruction does the same. -/
theorem exec_over {i : Instr} {s t : State} {m : Memory} {e : Nat} (h : s.HasRegion → s.SameRegion m e)
    (ht : exec i s = .next t) : exec i (s.over m e) = .next (t.over m e) := by
  cases hi : isCommand i with
  | false =>
    rw [exec_decoderRow hi] at ht ⊢
    injection ht with ht
    rw [← ht]
    rfl
  | true =>
    cases i with
    | nop => exact acceptCommand_over _ rfl ht
    | findSync => exact acceptCommand_over _ (checkRegion_over fun hr => (h hr).findSyncResult) ht
    | parse => exact acceptCommand_over _ (checkRegion_over fun hr => (h hr).parseResult) ht
    | run => exact acceptCommand_over _ (checkRegion_over fun hr => (h hr).runResult) ht
    | decode => exact acceptCommand_over _ (checkRegion_over fun hr => (h hr).decodeResult) ht
    | crc => exact acceptCommand_over _ (checkRegion_over fun hr => (h hr).crcCommandResult) ht
    | reservedCmd67 low => exact acceptCommand_over _ rfl ht
    | reservedCmd8F low => exact acceptCommand_over _ rfl ht
    | _ => cases hi

/-- Settles O13: what instructions and engine steps keep, which steps change a byte, and what a command reads. -/
theorem engineOnlyReadsItsRegion : Obligations.EngineOnlyReadsItsRegion := by
  unfold Obligations.EngineOnlyReadsItsRegion
  refine ⟨fun i s t ht => ?keeps, engineStep_capAt, fun s t a => step_capAt, fun i s t m e h => exec_over h⟩
  case keeps =>
    obtain ⟨hmem, hepoch, -⟩ := exec_keeps_memory ht
    exact ⟨hmem, hepoch, exec_capAt ht⟩

end Sys2Proof.Machine

/-! PROOFS. The encodings (O1, O2, O4), NOP and the reserved commands (O22), the decoded packet (O25), the rows of a
section decode (O37), and the dates and times of an event (O49). -/

namespace Sys2Proof.Machine

/-! ### Encodings (30_encoding.md R130, R131, R145, R146) -/

/-- A pair without a row of its own is skipped as DESC_OTHER (R481). -/
theorem decodeDescriptor_of_noRow {loop : DescLoop} {tag : Byte} (h : loop.hasRow tag = false) :
    decodeDescriptor loop tag = .descOther loop tag := by
  cases loop <;> simp_all [DescLoop.hasRow, decodeDescriptor]

/-- Settles O1, by the row: the bits a row leaves free are those its decoder reads back. -/
theorem decodingAnEncodingGivesTheInstruction : Obligations.DecodingAnEncodingGivesTheInstruction := by
  unfold Obligations.DecodingAnEncodingGivesTheInstruction
  intro i hi
  cases i with
  | reservedCmd67 low => revert low; decide
  | reservedCmd8F low => revert low; decide
  | tblEitSchAct low => revert low; decide
  | tblEitSchOth low => revert low; decide
  | descOther loop tag =>
    have hrow : loop.hasRow tag = false := by simpa [Instr.wellFormed] using hi
    simp [decode, encode, decodeDescriptor_of_noRow hrow]
  | _ => rfl

/-- A command word selects by its bits 3:0 alone (R131). -/
theorem decodeCommand_low (v : Word) : decodeCommand v = decodeCommand ((v.setWidth 4).setWidth 32) := by
  have h : v.toNat % 16 = ((v.setWidth 4).setWidth 32).toNat % 16 := by simp
  rw [decodeCommand, decodeCommand, h]

theorem encode_decodeCommand (v : Word) :
    (decodeCommand v).wellFormed = true ∧ encode (decodeCommand v) = ⟨.command, v &&& 0xF#32⟩ := by
  have hlow : v &&& 0xF#32 = (v.setWidth 4).setWidth 32 := by
    ext i hi
    interval_cases i <;> simp
  rw [hlow, decodeCommand_low]
  generalize v.setWidth 4 = op
  revert op
  decide

/-- R145's table: the class, the table_id and the row it selects. -/
inductive TableSelects : TableClass → Byte → Instr → Prop where
  | pat : TableSelects .pat 0x00#8 .tblPat
  | nitAct : TableSelects .nit 0x40#8 .tblNitAct
  | nitOth : TableSelects .nit 0x41#8 .tblNitOth
  | sdtAct : TableSelects .sdt 0x42#8 .tblSdtAct
  | sdtOth : TableSelects .sdt 0x46#8 .tblSdtOth
  | eitPfAct : TableSelects .eit 0x4E#8 .tblEitPfAct
  | eitPfOth : TableSelects .eit 0x4F#8 .tblEitPfOth
  | eitSchAct (low : BitVec 4) : TableSelects .eit (0x5#4 ++ low) (.tblEitSchAct low)
  | eitSchOth (low : BitVec 4) : TableSelects .eit (0x6#4 ++ low) (.tblEitSchOth low)

/-- A byte with a known high nibble is that nibble before its low one. -/
theorem eq_append_lowNibble {tid : Byte} {hi : BitVec 4} (h : tid &&& 0xF0#8 = hi ++ 0#4) :
    tid = hi ++ tid.extractLsb' 0 4 := by
  refine BitVec.eq_of_getLsbD_eq fun i hi' => ?_
  rw [BitVec.getLsbD_append]
  by_cases hlow : i < 4
  · simp [hlow]
  · have hmask : (0xF0#8).getLsbD i = true := by interval_cases i <;> rfl
    have hbit : (tid &&& 0xF0#8).getLsbD i = hi.getLsbD (i - 4) := by rw [h, BitVec.getLsbD_append, if_neg hlow]
    rw [if_neg hlow, ← hbit, BitVec.getLsbD_and, hmask, Bool.and_true]

/-- The table decoder answers only rows of R145's table. -/
theorem decodeTable_ok {cls : TableClass} {tid : Byte} {i : Instr} (h : decodeTable cls tid = .ok i) :
    TableSelects cls tid i := by
  cases cls with
  | pat =>
    simp only [decodeTable] at h
    split at h <;> cases h
    subst tid
    exact .pat
  | nit =>
    simp only [decodeTable] at h
    repeat' split at h
    all_goals cases h
    · subst tid; exact .nitAct
    · subst tid; exact .nitOth
  | sdt =>
    simp only [decodeTable] at h
    repeat' split at h
    all_goals cases h
    · subst tid; exact .sdtAct
    · subst tid; exact .sdtOth
  | eit =>
    simp only [decodeTable] at h
    repeat' split at h
    all_goals cases h
    · subst tid; exact .eitPfAct
    · subst tid; exact .eitPfOth
    case _ hhigh =>
      have hrow := TableSelects.eitSchAct (tid.extractLsb' 0 4)
      rwa [← eq_append_lowNibble (hi := 0x5#4) hhigh] at hrow
    case _ hhigh =>
      have hrow := TableSelects.eitSchOth (tid.extractLsb' 0 4)
      rwa [← eq_append_lowNibble (hi := 0x6#4) hhigh] at hrow
  | none => cases h
  | any => cases h

theorem TableSelects.encode_eq {cls : TableClass} {tid : Byte} {i : Instr} (h : TableSelects cls tid i) :
    i.wellFormed = true ∧ encode i = ⟨.tableId cls, tid.setWidth 32⟩ := by
  cases h with
  | eitSchAct low => revert low; decide
  | eitSchOth low => revert low; decide
  | _ => decide

theorem encode_decodeDescriptor (loop : DescLoop) (tag : Byte) : (decodeDescriptor loop tag).wellFormed = true ∧
    encode (decodeDescriptor loop tag) = ⟨.descriptor loop, tag.setWidth 32⟩ := by
  cases hrow : loop.hasRow tag with
  | false =>
    rw [decodeDescriptor_of_noRow hrow]
    exact ⟨by rw [Instr.wellFormed, hrow, Bool.not_false], rfl⟩
  | true =>
    simp only [DescLoop.hasRow, Bool.or_eq_true, beq_iff_eq] at hrow
    rcases hrow with rfl | hrow
    · cases loop <;> decide
    · cases loop with
      | nitNet => obtain rfl := eq_of_beq hrow; decide
      | nitTs => obtain rfl := eq_of_beq hrow; decide
      | sdtSvc => obtain rfl := eq_of_beq hrow; decide
      | eitEvt =>
        simp only [List.contains_cons, List.contains_nil, Bool.or_eq_true, beq_iff_eq, Bool.or_false] at hrow
        rcases hrow with rfl | rfl | rfl | rfl | rfl | rfl <;> decide

/-- Settles O2, one decoder after the other. -/
theorem encodingADecodedWordGivesTheWord : Obligations.EncodingADecodedWordGivesTheWord := by
  unfold Obligations.EncodingADecodedWordGivesTheWord
  exact ⟨encode_decodeCommand, fun _ _ _ h => (decodeTable_ok h).encode_eq, encode_decodeDescriptor⟩

/-- Settles O4: the loop of a listed tag, and 0x59 in every loop, decide which row answers. -/
theorem specWordsDecodeToTheirInstructions : Obligations.SpecWordsDecodeToTheirInstructions := by
  unfold Obligations.SpecWordsDecodeToTheirInstructions
  refine ⟨rfl, rfl, rfl, rfl, rfl, rfl, rfl, rfl, rfl, rfl, rfl, rfl, rfl, rfl, fun loop tag => ?tags⟩
  case tags =>
    have hread : decode ⟨.descriptor loop, tag.setWidth 32⟩ = .ok (decodeDescriptor loop tag) := by simp [decode]
    rw [hread]
    by_cases h59 : tag = 0x59#8
    · subst h59
      cases loop <;> rfl
    · cases loop <;> simp [decodeDescriptor, h59]

/-! ### NOP and the reserved commands (30_encoding.md R180, R181) -/

/-- The first engine step after a command that emits nothing and writes no result register completes it. -/
theorem engineStep_startCommand_empty {s : State} (hi : s.Inv) (hp : s.phase = .idle) (op : BitVec 4)
    (n : List ErrCode) : engineStep (startCommand op ⟨[], n, Completion.empty, s.ctxs⟩ s) =
      { s with op := op, done := true, errs := recordBits n s.errs, errCode := firstCode n } := by
  rw [engineStep_complete rfl rfl, completeCommand_startCommand hi hp op n _ rfl]
  rfl

/-- Settles O22: none of these commands has tokens, so its first engine step completes it. -/
theorem nopAndReservedCommandsNeedNoRegion : Obligations.NopAndReservedCommandsNeedNoRegion := by
  unfold Obligations.NopAndReservedCommandsNeedNoRegion
  intro s hi hp
  refine ⟨⟨_, acceptCommand_idle _ _ hp, rfl, rfl, ?nop⟩, fun low => ⟨_, acceptCommand_idle _ _ hp, rfl, ?low⟩,
    fun low => ⟨_, acceptCommand_idle _ _ hp, rfl, ?high⟩⟩
  case nop => exact engineStep_startCommand_empty hi hp _ _
  case low =>
    have hop : 0b011#3 ++ low = BitVec.ofNat 4 (6 + low.toNat) := by revert low; decide
    exact hop ▸ engineStep_startCommand_empty hi hp _ _
  case high =>
    have hop : 1#1 ++ low = BitVec.ofNat 4 (8 + low.toNat) := by revert low; decide
    exact hop ▸ engineStep_startCommand_empty hi hp _ _

/-! ### The decoded packet (40_framer.md R205, R206) -/

theorem capSlice_self (cap : Nat → Byte) (a : Nat) : capSlice cap a a = [] :=
  List.eq_nil_of_length_eq_zero (by rw [capSlice_length, Nat.sub_self])

/-- In every case of R206 the payload is the end of the packet. -/
theorem payload_eq_capSlice (cap : Nat → Byte) (honor : Bool) (pos : Nat) (afc : BitVec 2) :
    ∃ n, n ≤ 188 ∧ payload cap honor pos afc = capSlice cap (pos + 188 - n) (pos + 188) := by
  cases honor with
  | false => exact ⟨184, by decide, by simp [payload]⟩
  | true =>
    by_cases h1 : afc = 1#2
    · exact ⟨184, by decide, by simp [payload, h1]⟩
    by_cases h3 : afc = 3#2
    · by_cases hfits : 5 + (cap (pos + 4)).toNat ≤ 188
      · have hstart : pos + 188 - (183 - (cap (pos + 4)).toNat) = pos + 5 + (cap (pos + 4)).toNat := by omega
        exact ⟨183 - (cap (pos + 4)).toNat, by omega, by simp [payload, h3, hfits, hstart]⟩
      · exact ⟨0, by decide, by simp [payload, h3, hfits, capSlice_self]⟩
    · exact ⟨0, by decide, by simp [payload, h1, h3, capSlice_self]⟩

theorem payload_getElem? {cap : Nat → Byte} {honor : Bool} {pos : Nat} {afc : BitVec 2} {k : Nat}
    (h : k < (payload cap honor pos afc).length) : (payload cap honor pos afc)[k]? =
      some (cap (pos + 188 - (payload cap honor pos afc).length + k)) := by
  obtain ⟨n, hn, hp⟩ := payload_eq_capSlice cap honor pos afc
  have hlen : (payload cap honor pos afc).length = n := by
    rw [hp, capSlice_length]
    omega
  rw [hlen] at h ⊢
  rw [hp, capSlice_getElem? (by omega)]

theorem extractLsb'_toNat_div (x : Byte) (k n : Nat) : (x.extractLsb' k n).toNat = x.toNat / 2 ^ k % 2 ^ n := by
  rw [BitVec.extractLsb'_toNat, Nat.shiftRight_eq_div_pow]

/-- The PID is the low 5 bits of byte 1 before byte 2 (R133). -/
theorem pid_toNat (b1 b2 : Byte) : (b1.extractLsb' 0 5 ++ b2).toNat = b1.toNat % 32 * 256 + b2.toNat := by
  rw [BitVec.toNat_append, ← Nat.shiftLeft_add_eq_or_of_lt b2.isLt, Nat.shiftLeft_eq, extractLsb'_toNat_div]
  simp

/-- Settles O25, the payload by R206's cases. -/
theorem packetFieldsAndPayloadLength : Obligations.PacketFieldsAndPayloadLength := by
  unfold Obligations.PacketFieldsAndPayloadLength
  intro cap honor pos
  have hb3 := (cap (pos + 3)).isLt
  refine ⟨rfl, ⟨rfl, rfl, rfl, pid_toNat _ _, ?sc, ?afc, ?cc⟩, ?length, fun k hk => payload_getElem? hk⟩
  case sc =>
    refine (extractLsb'_toNat_div _ 6 2).trans ?_
    omega
  case afc => exact extractLsb'_toNat_div _ 4 2
  case cc =>
    refine (extractLsb'_toNat_div _ 0 4).trans ?_
    omega
  case length => exact payload_length cap honor pos _

/-! ### The rows of a section decode (42_section_header.md R310, R313, 45_descriptors.md R452) -/

theorem dispatchBody_ok {w : Work} {i : Instr} (h : decodeTable w.cls (byteAt w.sec w.tstart) = .ok i) :
    dispatchBody w = runTable i w := by
  rw [dispatchBody, h]

theorem dispatchBody_error {w : Work} {e : DecodeError} (h : decodeTable w.cls (byteAt w.sec w.tstart) = .error e) :
    dispatchBody w = w := by
  rw [dispatchBody, h]

/-- The working values at the body dispatch (R310), written out. -/
theorem atBody_eq (S : Bytes) (cls : TableClass) (src : BitVec 4) (index : Word) :
    atBody (Work.start S cls src index) = { Work.start S cls src index with
      tstart := tableStart S
      lim := crcPos S
      tidExt := BitVec.ofNat 16 (be S (tableStart S + 3) 2)
      crcCalc := calcCrc S
      crcStatus := if calcCrc S = storedCrc S then 1 else 2
      out := [.secHdr src index (fullHeader S)]
      notes := if calcCrc S = storedCrc S then [] else [.crcMismatch] } := by
  by_cases h : calcCrc S = storedCrc S <;> simp [atBody, Work.start, Work.emit, Work.note, checkedStatus, h]

/-- The body dispatch reads the class and the table_id of the section. -/
theorem decodeTable_atBody (S : Bytes) (cls : TableClass) (src : BitVec 4) (index : Word) :
    let w := atBody (Work.start S cls src index)
    decodeTable w.cls (byteAt w.sec w.tstart) = decodeTable cls (byteAt S (tableStart S)) := by
  rw [atBody_eq]
  rfl

/-- An iteration of a descriptor loop is `exec` of the row its tag selects, which leaves the loop's reader alone. -/
theorem descriptorStep_exec {r : Reader} {w : Work} {s t : State} (hs : s.decoder = (fetchDescriptor r w).2)
    (ht : exec (fetchDescriptor r w).1 s = .next t) : descriptorStep r w = (t.decoder.rd, t.decoder) := by
  have htag := (fetchDescriptor_loop r w).2
  rw [htag, exec_descriptor, ← htag, hs] at ht
  injection ht with ht
  rw [← ht]
  obtain ⟨-, hrd, -⟩ := runDescriptor_samePlace (fetchDescriptor r w).1 (fetchDescriptor r w).2
  exact Prod.ext hrd.symm rfl

/-- Settles O37: the body dispatch by whether a row is selected, the loop by one iteration. -/
theorem sectionDecodeRunsTheRows : Obligations.SectionDecodeRunsTheRows := by
  unfold Obligations.SectionDecodeRunsTheRows
  refine ⟨fun S cls src index => ?dispatch, fun r w s t => descriptorStep_exec,
    fun S cls src index => ⟨fullHeader S, atBody_eq S cls src index⟩⟩
  case dispatch =>
    intro tstart L ended hacc hmin hmax hlen
    have hbody := decodeSection_body src index (sectionError_none hacc hmin hmax hlen) (show L ≠ 0 by omega)
    have hread := decodeTable_atBody S cls src index
    refine ⟨fun i s t hi hs ht => ?row, fun e hi => ?noRow⟩
    case row =>
      rw [exec_table hi, hs] at ht
      injection ht with ht
      rw [hbody, dispatchBody_ok (hread.trans hi), ← ht]
      rfl
    case noRow =>
      rw [hbody, dispatchBody_error (hread.trans hi)]
      refine ⟨rfl, fullHeader S, ?_⟩
      rw [atBody_eq]
      rfl

/-! ### The date formula: years from March to February (44_tables.md R420) -/

/-- Y' of R420: the year of `mjd`, counted from 1900 and from March to February. -/
def mjdYear (mjd : Int) : Int := (100 * mjd - 1507820) / 36525

/-- The day of `mjd` in its March year; 1 March is day 123. -/
def mjdDay (mjd : Int) : Int := mjd - 14956 - 36525 * mjdYear mjd / 100

/-- M' of R420 for a day of the March year: 4 is March, 15 is February. -/
def dayMonth (n : Int) : Int := (10000 * n - 1000) / 306001

/-- The day of the March year before the first of month `m`. -/
def monthStart (m : Int) : Int := 306001 * m / 10000

/-- The calendar year and month of month `m` of the March year `y` (R420's K). -/
def marchMonth (y m : Int) : Int × Int := if m = 14 ∨ m = 15 then (1901 + y, m - 13) else (1900 + y, m - 1)

/-- The date of day `n` of the March year `y`. -/
def marchDate (y n : Int) : Int × Int × Int :=
  ((marchMonth y (dayMonth n)).1, (marchMonth y (dayMonth n)).2, n - monthStart (dayMonth n))

theorem mjdDate_eq_marchDate (mjd : Int) : mjdDate mjd = marchDate (mjdYear mjd) (mjdDay mjd) := by
  rw [mjdDate_eq rfl rfl rfl]
  unfold marchDate marchMonth
  split <;> simp_all [dayMonth, mjdDay, mjdYear, monthStart]

/-- The last day of the March year `y`, whose February is that of `1901 + y`. -/
def lastDay (y : Int) : Int := if y % 4 = 3 then 488 else 487

theorem lastDay_le (y : Int) : lastDay y ≤ 488 := by
  unfold lastDay
  split <;> decide

theorem mjdYear_spec (mjd : Int) :
    36525 * mjdYear mjd ≤ 100 * mjd - 1507820 ∧ 100 * mjd - 1507820 < 36525 * mjdYear mjd + 36525 := by
  unfold mjdYear
  omega

/-- Four years have 1461 days. -/
theorem yearDays_eq (y : Int) : 36525 * y / 100 = 1461 * (y / 4) + 365 * (y % 4) := by omega

theorem mjdDay_bounds (mjd : Int) : 123 ≤ mjdDay mjd ∧ mjdDay mjd ≤ lastDay (mjdYear mjd) := by
  have hy := mjdYear_spec mjd
  rw [mjdDay, lastDay, yearDays_eq]
  split <;> omega

/-- The day after is the next day of the March year, or the first of the next one. -/
theorem mjdDay_succ (mjd : Int) :
    (mjdYear (mjd + 1) = mjdYear mjd ∧ mjdDay (mjd + 1) = mjdDay mjd + 1 ∧ mjdDay mjd < lastDay (mjdYear mjd)) ∨
    (mjdYear (mjd + 1) = mjdYear mjd + 1 ∧ mjdDay (mjd + 1) = 123 ∧ mjdDay mjd = lastDay (mjdYear mjd)) := by
  have hy := mjdYear_spec mjd
  have hy' := mjdYear_spec (mjd + 1)
  simp only [mjdDay, yearDays_eq, lastDay]
  obtain h | h : mjdYear (mjd + 1) = mjdYear mjd ∨ mjdYear (mjd + 1) = mjdYear mjd + 1 := by omega
  · left; omega
  · right; omega

/-- Month `m` is the days after its start, up to the start of the next. -/
theorem dayMonth_eq_iff {m : Int} (h : 4 ≤ m) (h' : m ≤ 15) (n : Int) :
    dayMonth n = m ↔ monthStart m < n ∧ n ≤ monthStart (m + 1) := by
  unfold dayMonth monthStart
  interval_cases m <;> omega

theorem dayMonth_bounds {n : Int} (h : 123 ≤ n) (h' : n ≤ 488) : 4 ≤ dayMonth n ∧ dayMonth n ≤ 15 := by
  unfold dayMonth
  omega

/-! ### The calendar (44_tables.md R426) -/

/-- A leap year of the calendar. -/
abbrev IsLeap (year : Int) : Prop := year % 4 = 0 ∧ (year % 100 ≠ 0 ∨ year % 400 = 0)

/-- The number of days of a calendar month. -/
def monthLength (year month : Int) : Int :=
  if month = 2 then (if IsLeap year then 29 else 28)
  else if month = 4 ∨ month = 6 ∨ month = 9 ∨ month = 11 then 30 else 31

/-- The calendar successor of a day. -/
def nextDay (d : Int × Int × Int) : Int × Int × Int :=
  if d.2.2 < monthLength d.1 d.2.1 then (d.1, d.2.1, d.2.2 + 1)
  else if d.2.1 < 12 then (d.1, d.2.1 + 1, 1) else (d.1 + 1, 1, 1)

/-- R420's month starts leave each month its calendar length, February's being what is left of the year. -/
theorem monthStart_add_length {y m : Int} (hy : 0 ≤ y) (hy' : y ≤ 138) (h : 4 ≤ m) (h' : m ≤ 15) :
    monthStart m + monthLength (marchMonth y m).1 (marchMonth y m).2 =
      if m = 15 then lastDay y else monthStart (m + 1) := by
  by_cases hm : m = 15
  · subst hm
    have hleap : IsLeap (1901 + y) ↔ y % 4 = 3 := by unfold IsLeap; omega
    show 459 + (if IsLeap (1901 + y) then 29 else 28) = if y % 4 = 3 then 488 else 487
    simp only [hleap]
    split <;> rfl
  · have h14 : m ≤ 14 := by omega
    clear h' hm
    interval_cases m <;> rfl

/-- The day after the last of a month is the first of the next. -/
theorem nextDay_marchMonth_last {y m d : Int} (h : 4 ≤ m) (h' : m ≤ 14)
    (hd : ¬d < monthLength (marchMonth y m).1 (marchMonth y m).2) :
    nextDay ((marchMonth y m).1, (marchMonth y m).2, d) = ((marchMonth y (m + 1)).1, (marchMonth y (m + 1)).2, 1) := by
  rw [nextDay, if_neg hd]
  interval_cases m <;> simp [marchMonth]
  next => omega

theorem nextDay_marchDate {y n : Int} (hy : 0 ≤ y) (hy' : y ≤ 138) (hn : 123 ≤ n) (hn' : n < lastDay y) :
    nextDay (marchDate y n) = marchDate y (n + 1) := by
  have hlast := lastDay_le y
  obtain ⟨h4, h15⟩ := dayMonth_bounds hn (by omega)
  have hlen := monthStart_add_length hy hy' h4 h15
  have hin := (dayMonth_eq_iff h4 h15 n).1 rfl
  generalize hm : dayMonth n = m at *
  by_cases hd : n - monthStart m < monthLength (marchMonth y m).1 (marchMonth y m).2
  · have hsame : dayMonth (n + 1) = m := by
      rw [dayMonth_eq_iff h4 h15]
      refine ⟨by omega, ?_⟩
      split at hlen
      case isTrue h =>
        rw [h]
        exact (show n + 1 ≤ 488 by omega).trans (by decide)
      case isFalse => omega
    rw [marchDate, marchDate, hsame, hm, nextDay, if_pos hd, sub_add_eq_add_sub]
  · have hne : m ≠ 15 := by
      rintro rfl
      rw [if_pos rfl] at hlen
      omega
    rw [if_neg hne] at hlen
    have hnext : dayMonth (n + 1) = m + 1 := by
      rw [dayMonth_eq_iff (by omega) (by omega)]
      unfold monthStart at *
      omega
    have hfirst : n + 1 - monthStart (m + 1) = 1 := by omega
    rw [marchDate, marchDate, hnext, hm, nextDay_marchMonth_last h4 (by omega) hd, hfirst]

theorem nextDay_marchDate_last {y : Int} (hy : 0 ≤ y) (hy' : y ≤ 138) :
    nextDay (marchDate y (lastDay y)) = marchDate (y + 1) 123 := by
  have hm : dayMonth (lastDay y) = 15 := by unfold lastDay; split <;> rfl
  have hlen := monthStart_add_length hy hy' (show (4 : Int) ≤ 15 by decide) le_rfl
  rw [if_pos rfl] at hlen
  have hd : ¬lastDay y - monthStart 15 < monthLength (marchMonth y 15).1 (marchMonth y 15).2 := by omega
  have hyear : 1900 + (y + 1) = 1901 + y := by omega
  rw [marchDate, hm, nextDay, if_neg hd]
  show (1901 + y, (3 : Int), (1 : Int)) = (1900 + (y + 1), 3, 1)
  rw [hyear]

/-- From 1900-03-01 on, each day is the calendar successor of the day before (R426). -/
theorem mjdDate_succ {mjd : Int} (h : 15079 ≤ mjd) (h' : mjd < 65548) :
    mjdDate (mjd + 1) = nextDay (mjdDate mjd) := by
  have hyear := mjdYear_spec mjd
  rw [mjdDate_eq_marchDate, mjdDate_eq_marchDate]
  rcases mjdDay_succ mjd with ⟨hy, hd, hlt⟩ | ⟨hy, hd, hlast⟩
  · rw [hy, hd, nextDay_marchDate (by omega) (by omega) (mjdDay_bounds mjd).1 hlt]
  · rw [hy, hd, hlast, nextDay_marchDate_last (by omega) (by omega)]

/-- Every date of a wire start time, and of the days an event can end on, is a calendar value of R169. -/
theorem mjdDate_range {mjd : Int} (h : 0 ≤ mjd) (h' : mjd ≤ 65548) :
    1858 ≤ (mjdDate mjd).1 ∧ (mjdDate mjd).1 ≤ 2038 ∧ 1 ≤ (mjdDate mjd).2.1 ∧ (mjdDate mjd).2.1 ≤ 12 ∧
    1 ≤ (mjdDate mjd).2.2 ∧ (mjdDate mjd).2.2 ≤ 31 := by
  have hyear := mjdYear_spec mjd
  obtain ⟨hd, hd'⟩ := mjdDay_bounds mjd
  have hlast : lastDay (mjdYear mjd) ≤ 488 := lastDay_le _
  obtain ⟨h4, h15⟩ := dayMonth_bounds hd (by omega)
  obtain ⟨hstart, hend⟩ := (dayMonth_eq_iff h4 h15 (mjdDay mjd)).1 rfl
  have hspan : monthStart (dayMonth (mjdDay mjd) + 1) ≤ monthStart (dayMonth (mjdDay mjd)) + 31 := by
    unfold monthStart
    interval_cases dayMonth (mjdDay mjd) <;> decide
  have hlate : mjdYear mjd = 138 → dayMonth (mjdDay mjd) ≤ 13 := by
    intro hy
    unfold dayMonth mjdDay
    omega
  rw [mjdDate_eq_marchDate, marchDate, marchMonth]
  generalize dayMonth (mjdDay mjd) = m at *
  split
  · simp only
    omega
  · simp only
    omega

/-- A floor of a fraction of integers is R12's floor division. -/
theorem floor_eq_ediv {q : Rat} {n : Int} {d : Nat} (h : q = n / d) : Int.floor q = n / d := by
  rw [h, Rat.floor_intCast_div_natCast]

/-- R420's formula with its floors taken of exact fractions. -/
theorem mjdDate_eq_floors (mjd : Int) :
    let y' : Int := Int.floor (((mjd : Rat) - 150782 / 10) / (36525 / 100))
    let a : Int := Int.floor ((y' : Rat) * (36525 / 100))
    let m' : Int := Int.floor (((mjd : Rat) - 149561 / 10 - (a : Rat)) / (306001 / 10000))
    let k : Int := if m' = 14 ∨ m' = 15 then 1 else 0
    mjdDate mjd = (1900 + y' + k, m' - 1 - 12 * k, mjd - 14956 - a - Int.floor ((m' : Rat) * (306001 / 10000))) := by
  intro y' a m' k
  have hy : y' = (100 * mjd - 1507820) / 36525 := floor_eq_ediv (d := 36525) (by push_cast; ring)
  have ha : a = 36525 * y' / 100 := floor_eq_ediv (d := 100) (by push_cast; ring)
  have hm : m' = (10000 * (mjd - 14956 - a) - 1000) / 306001 := floor_eq_ediv (d := 306001) (by push_cast; ring)
  have hd : Int.floor ((m' : Rat) * (306001 / 10000)) = 306001 * m' / 10000 :=
    floor_eq_ediv (d := 10000) (by push_cast; ring)
  rw [hd]
  clear_value m' a y'
  subst hm ha hy
  rfl

/-! ### BCD and the times of an event (44_tables.md R411, R421-R423) -/

theorem bcd_eq_nibbles (b : Byte) : bcd b.toNat = 10 * (b.extractLsb' 4 4).toNat + (b.extractLsb' 0 4).toNat := by
  rw [bcd, BitVec.extractLsb'_toNat, BitVec.extractLsb'_toNat, Nat.shiftRight_eq_div_pow, Nat.shiftRight_zero]

theorem append3_toNat (h m s : Byte) : (h ++ m ++ s).toNat = 65536 * h.toNat + 256 * m.toNat + s.toNat := by
  rw [BitVec.toNat_append, BitVec.toNat_append, ← Nat.shiftLeft_add_eq_or_of_lt m.isLt,
    ← Nat.shiftLeft_add_eq_or_of_lt s.isLt, Nat.shiftLeft_eq, Nat.shiftLeft_eq]
  ring

theorem bcdSeconds_bytes (h m s : Byte) :
    bcdSeconds (h ++ m ++ s).toNat = 3600 * bcd h.toNat + 60 * bcd m.toNat + bcd s.toNat := by
  have hh := h.isLt
  have hm := m.isLt
  have hs := s.isLt
  rw [append3_toNat, bcdSeconds,
    show (65536 * h.toNat + 256 * m.toNat + s.toNat) / 65536 % 256 = h.toNat by omega,
    show (65536 * h.toNat + 256 * m.toNat + s.toNat) / 256 % 256 = m.toNat by omega,
    show (65536 * h.toNat + 256 * m.toNat + s.toNat) % 256 = s.toNat by omega]

theorem bcdSeconds_le (v : Nat) : bcdSeconds v ≤ 604065 := by
  have hh := bcd_le (v / 65536 % 256)
  have hm := bcd_le (v / 256 % 256)
  have hs := bcd_le (v % 256)
  unfold bcdSeconds
  omega

/-- The ranges of a calendar value that a start time or a finish can report (R169). -/
abbrev CalendarRange (d : DateTime) : Prop :=
  1858 ≤ d.year.toNat ∧ d.year.toNat ≤ 2038 ∧ 1 ≤ d.month.toNat ∧ d.month.toNat ≤ 12 ∧ 1 ≤ d.day.toNat ∧
    d.day.toNat ≤ 31 ∧ d.hour.toNat ≤ 165 ∧ d.minute.toNat ≤ 165 ∧ d.second.toNat ≤ 165

theorem dateTime_range {mjd h mi s : Nat} (hd : mjd ≤ 65548) (hh : h ≤ 165) (hm : mi ≤ 165) (hs : s ≤ 165) :
    CalendarRange (dateTime (mjdDate mjd) h mi s) := by
  have hdate := mjdDate_range (mjd := mjd) (by omega) (by omega)
  simp only [CalendarRange, dateTime, BitVec.toNat_ofInt, BitVec.toNat_ofNat]
  omega

/-- The finish of an event is a time of day (R423). -/
theorem finishTime_clock (st du : Nat) : (finishTime st du).hour.toNat ≤ 23 ∧
    (finishTime st du).minute.toNat ≤ 59 ∧ (finishTime st du).second.toNat ≤ 59 := by
  simp only [finishTime, dateTime, BitVec.toNat_ofNat]
  omega

theorem startTime_range (st : Nat) : CalendarRange (startTime st) :=
  dateTime_range (by omega) (bcd_le _) (bcd_le _) (bcd_le _)

theorem finishTime_range (st du : Nat) : CalendarRange (finishTime st du) := by
  have hstart := bcdSeconds_le (st % 16777216)
  have hdur := bcdSeconds_le du
  exact dateTime_range (by omega) (by omega) (by omega) (by omega)

/-- Settles O49: the formula by its floors, the calendar by years from March to February. -/
theorem eventTimesStayInRange : Obligations.EventTimesStayInRange := by
  unfold Obligations.EventTimesStayInRange
  refine ⟨bcd_eq_nibbles, bcdSeconds_bytes, fun mjd _ _ => mjdDate_eq_floors mjd, by decide,
    fun mjd => mjdDate_succ, fun mjd => mjdDate_range, fun st du hst hdu => ?wire⟩
  case wire =>
    have hstart := bcdSeconds_le (st % 2 ^ 24)
    have hdur := bcdSeconds_le du
    refine ⟨by omega, hdur, ?range, finishTime_clock st du⟩
    case range =>
      rintro d (rfl | rfl)
      · exact startTime_range st
      · exact finishTime_range st du

end Sys2Proof.Machine

/-! PROOFS. The framer and its two commands (O24, O26, O28): the loop of R215 case by case, and what FIND_SYNC and PARSE
do on a legal region. -/

namespace Sys2Proof.Machine

/-! ### The loop of R215, one iteration at a time (40_framer.md R212, R213, R216) -/

/-- Less than a packet before END the loop ends, whatever its bound. -/
theorem sliceFrames_end {g : FrameArgs} {pos : Nat} (fuel : Nat) (hend : g.endOff < pos + 188) :
    sliceFrames g fuel pos = ⟨[], 0, 0, pos⟩ := by
  cases fuel with
  | zero => rfl
  | succ fuel => rw [sliceFrames_succ, if_neg (Nat.not_le.2 hend)]

section

variable {g : FrameArgs} {pos fuel : Nat} (hfuel : g.endOff - pos ≤ fuel) (hroom : pos + 188 ≤ g.endOff)
include hfuel hroom

/-- At a sync byte a packet is decoded and the loop goes on behind it. -/
theorem sliceFrames_sync (hsync : g.cap pos = 0x47#8) : sliceFrames g fuel pos =
    Sliced.cons (g.retains (decodePacket g.cap g.afcHonor pos)) (decodePacket g.cap g.afcHonor pos)
      (sliceFrames g (g.endOff - (pos + 188)) (pos + 188)) := by
  rw [sliceFrames_fuel g fuel (fuel + 1) pos hfuel (by omega), sliceFrames_succ, if_pos hroom, if_pos hsync,
    sliceFrames_fuel g fuel (g.endOff - (pos + 188)) (pos + 188) (by omega) (Nat.le_refl _)]

/-- A loss of sync ends the loop when RESYNC is 0 or no later sync is found. -/
theorem sliceFrames_lost (hsync : g.cap pos ≠ 0x47#8)
    (hstop : g.resync = false ∨ findSync g.cap (pos + 1) g.endOff = none) :
    sliceFrames g fuel pos = ⟨[.lost], 0, 0, pos⟩ := by
  rw [sliceFrames_fuel g fuel (fuel + 1) pos hfuel (by omega), sliceFrames_succ, if_pos hroom, if_neg hsync]
  rcases hstop with hresync | hnone
  · rw [if_pos hresync]
  · rw [hnone, ite_self]

/-- After a loss of sync the loop goes on at the next sync offset. -/
theorem sliceFrames_resync {q : Nat} (hsync : g.cap pos ≠ 0x47#8) (hresync : g.resync = true)
    (hq : findSync g.cap (pos + 1) g.endOff = some q) : sliceFrames g fuel pos =
    { sliceFrames g (g.endOff - q) q with evs := .lost :: (sliceFrames g (g.endOff - q) q).evs } := by
  have hpq := (findSync_some hq).1
  rw [sliceFrames_fuel g fuel (fuel + 1) pos hfuel (by omega), sliceFrames_succ, if_pos hroom, if_neg hsync,
    if_neg (by simp [hresync]), hq, ← sliceFrames_fuel g fuel (g.endOff - q) q (by omega) (Nat.le_refl _)]

end

/-- The PID filter (R212): a packet is dropped only when the filter is enabled and its PID is another. -/
theorem Sliced.cons_retains (g : FrameArgs) (p : Packet) (r : Sliced) : Sliced.cons (g.retains p) p r =
    if g.pidfEn = true ∧ p.pid ≠ g.pidfPid then { r with count := r.count + 1 }
    else { r with evs := .pkt p :: r.evs, count := r.count + 1, kept := r.kept + 1 } := by
  cases hen : g.pidfEn <;> by_cases hpid : p.pid = g.pidfPid <;> simp [Sliced.cons, FrameArgs.retains, hen, hpid]

/-- Settles O26, by the cases of one iteration. -/
theorem framerLoopIsTheRule : Obligations.FramerLoopIsTheRule := by
  unfold Obligations.FramerLoopIsTheRule
  intro g pos fuel hpos hfuel
  have hbounds := (sliceFrames_sound g fuel pos hpos).pos
  refine ⟨hbounds.2, hbounds.1, ?iteration, fun q => by rw [findSync_eq_some_iff, and_assoc]⟩
  case iteration =>
    split
    · next hend => exact sliceFrames_end fuel hend
    rename_i hend
    have hroom := Nat.not_lt.1 hend
    split
    · next hsync => exact (sliceFrames_sync hfuel hroom hsync).trans (Sliced.cons_retains ..)
    rename_i hsync
    split
    · next hresync => exact sliceFrames_lost hfuel hroom hsync (.inl hresync)
    rename_i hresync
    split
    · next hnone => exact sliceFrames_lost hfuel hroom hsync (.inr hnone)
    · next q hq => exact sliceFrames_resync hfuel hroom hsync (Bool.eq_true_of_not_eq_false hresync) hq

/-! ### FIND_SYNC (40_framer.md R200, R201, R220) -/

/-- `find_sync` answers NotFound exactly when no offset of the range has the condition of R200. -/
theorem findSync_eq_none_iff {cap : Nat → Byte} {a e : Nat} :
    findSync cap a e = none ↔ ∀ i, a ≤ i → i + 188 < e → ¬IsSync cap i := by
  refine ⟨findSync_none, fun hno => Option.eq_none_iff_forall_ne_some.2 fun q hq => ?_⟩
  obtain ⟨ha, he, hsync, -⟩ := findSync_some hq
  exact hno q ha he hsync

theorem exec_findSync_region {s : State} (hp : s.phase = .idle) (hr : s.HasRegion) :
    exec .findSync s = .next (startCommand 0x1#4 (findSyncResult s) s) :=
  acceptCommand_region _ _ hp hr

/-- FIND_SYNC has no tokens, so its first engine step completes it and writes SYNC_OFF. -/
theorem engineStep_findSync {s : State} (hi : s.Inv) (hp : s.phase = .idle) {q : Option Nat}
    (hq : findSync s.capAt s.start.toNat s.endOff.toNat = q) :
    engineStep (startCommand 0x1#4 (findSyncResult s) s) =
      { s with
        op := 1
        done := true
        errs := recordBits (syncNotes q) s.errs
        errCode := firstCode (syncNotes q)
        syncOff := syncWord q } := by
  subst hq
  rw [engineStep_complete rfl rfl]
  exact completeCommand_startCommand hi hp _ _ _ rfl

/-- Settles O24, by what the search answers. -/
theorem findSyncReportsTheFirstSync : Obligations.FindSyncReportsTheFirstSync := by
  unfold Obligations.FindSyncReportsTheFirstSync
  intro s hi hp hr
  refine ⟨_, exec_findSync_region hp hr, rfl, fun i ha he hsync hsync' hfirst => ?found, fun hno => ?notFound⟩
  case found => exact engineStep_findSync hi hp (findSync_eq_some_iff.2 ⟨ha, he, ⟨hsync, hsync'⟩, hfirst⟩)
  case notFound => exact engineStep_findSync hi hp (findSync_eq_none_iff.2 hno)

/-! ### PARSE (40_framer.md R221, 46_output.md R521) -/

theorem exec_parse_region {s : State} (hp : s.phase = .idle) (hr : s.HasRegion) :
    exec .parse s = .next (startCommand 0x2#4 (parseResult s) s) :=
  acceptCommand_region _ _ hp hr

/-- NOT_SYNCHRONIZED is the first note when the first search fails (R215). -/
theorem syncNotes_eq (q : Option Nat) : syncNotes q = if q = none then [.notSynchronized] else [] := by
  cases q <;> rfl

/-- Settles O28, by the walk of the event list (R221). -/
theorem parseEmitsOnePktPerRetainedPacket : Obligations.ParseEmitsOnePktPerRetainedPacket := by
  unfold Obligations.ParseEmitsOnePktPerRetainedPacket
  intro s hp hr
  rw [exec_parse_region hp hr, parseResult, parseEvents_eq, syncNotes_eq]
  rfl

end Sys2Proof.Machine

/-! PROOFS. The reassembler (O29, O30, O31, O32) and the section decoder's capacity (O33): what each context adds to the
tokens and notes of a RUN, and which bytes of a unit its decode reads. -/

namespace Sys2Proof.Machine

/-! ### Append, Open, Close and the transition table (41_reassembler.md R251, R254-R256) -/

/-- A buffer that fits takes in the payload as far as SECBUF_SIZE, and a cut payload sets the truncation flag (R255). -/
theorem Context.append_of_fits {secbuf : Nat} (p : Packet) {x : Context} (h : x.buf.length ≤ secbuf) :
    x.append secbuf p = { x with
      buf := (x.buf ++ p.payload).take secbuf
      trunc := x.trunc || decide (secbuf < x.buf.length + p.payload.length) } := by
  unfold Context.append
  split
  · next hclip =>
    have hlen : secbuf < x.buf.length + p.payload.length := by omega
    rw [List.take_append, List.take_of_length_le h, decide_eq_true hlen, Bool.or_true]
  · next hroom =>
    have hlen : x.buf.length + p.payload.length ≤ secbuf := by omega
    rw [List.take_of_length_le (by simpa using hlen), decide_eq_false (Nat.not_lt.2 hlen), Bool.or_false]

theorem appendPacket_out (secbuf c : Nat) (cfg : CtxCfg) (p : Packet) (x : Context) (a : Acc) :
    (appendPacket secbuf c cfg p x a).2.out = a.out ++ (if cfg.pkts then [.pkt (BitVec.ofNat 4 c) p] else []) := by
  simp only [appendPacket]
  split <;> split <;> simp

theorem appendPacket_notes_of_fits {secbuf : Nat} (c : Nat) (cfg : CtxCfg) (p : Packet) {x : Context} (a : Acc)
    (h : x.buf.length ≤ secbuf) : (appendPacket secbuf c cfg p x a).2.notes =
      a.notes ++ (if secbuf < x.buf.length + p.payload.length then [.secbufOverflow] else []) := by
  have hclip : p.payload.length > secbuf - x.buf.length ↔ secbuf < x.buf.length + p.payload.length := by omega
  simp only [appendPacket, hclip]
  split <;> split <;> simp

theorem closeUnit_out (c : Nat) (cfg : CtxCfg) (x : Context) (a : Acc) : (closeUnit c cfg x a).2.out =
    a.out ++ (if cfg.raw then [.secRaw (BitVec.ofNat 4 c) x.k x.buf x.trunc] else []) ++
      (if cfg.cls = .none then [] else (decodeSection x.buf cfg.cls (BitVec.ofNat 4 c) x.k).out) := by
  simp only [closeUnit]
  split <;> split <;> simp

theorem closeUnit_notes_eq (c : Nat) (cfg : CtxCfg) (x : Context) (a : Acc) : (closeUnit c cfg x a).2.notes =
    a.notes ++ (if cfg.cls = .none then [] else (decodeSection x.buf cfg.cls (BitVec.ofNat 4 c) x.k).notes) := by
  simp only [closeUnit]
  split <;> split <;> simp

theorem appendPacket_state (secbuf c : Nat) (cfg : CtxCfg) (p : Packet) (x : Context) (a : Acc) :
    (appendPacket secbuf c cfg p x a).1.state = x.state := by
  rw [appendPacket_fst, Context.append]
  split <;> rfl

theorem openUnit_state (secbuf c : Nat) (cfg : CtxCfg) (p : Packet) (x : Context) (a : Acc) :
    (openUnit secbuf c cfg p x a).1.state = .collect :=
  appendPacket_state ..

section

variable {cfg : CtxCfg} {p : Packet} {x : Context} (secbuf c : Nat) (a : Acc)

/-! The rows of R251's table. -/

theorem contextStep_other (h : p.pid ≠ cfg.pid) : contextStep secbuf c cfg p x a = (x, a) := by simp [contextStep, h]

theorem contextStep_idle (h : p.pid = cfg.pid) (hs : x.state = .idle) :
    contextStep secbuf c cfg p x a = if p.pusi then openUnit secbuf c cfg p x a else (x, a) := by
  simp [contextStep, h, hs]

theorem contextStep_collect (h : p.pid = cfg.pid) (hs : x.state = .collect) : contextStep secbuf c cfg p x a =
    if p.pusi then
      if cfg.all then openUnit secbuf c cfg p (closeUnit c cfg x a).1 (closeUnit c cfg x a).2
      else ({ (closeUnit c cfg x a).1 with state := .done }, (closeUnit c cfg x a).2)
    else appendPacket secbuf c cfg p x a := by
  simp [contextStep, h, hs]

theorem contextStep_done (hs : x.state = .done) : contextStep secbuf c cfg p x a = (x, a) := by simp [contextStep, hs]

end

/-- Settles O29, by the rows of the table. -/
theorem contextFollowsTheTransitionTable : Obligations.ContextFollowsTheTransitionTable := by
  unfold Obligations.ContextFollowsTheTransitionTable
  intro secbuf c cfg p x a
  refine ⟨contextStep_other secbuf c a, fun hp hs hu => ?waits, fun hp hs hu => ?opens, fun hp hs hu => ?appends,
    fun hp hs hu ha => ?closes, fun hp hs hu ha => ?reopens, fun _ => contextStep_done secbuf c a,
    fun hfit => ⟨(appendPacket_fst ..).trans (Context.append_of_fits p hfit), appendPacket_out ..,
      appendPacket_notes_of_fits c cfg p a hfit⟩,
    rfl, rfl, closeUnit_out .., closeUnit_notes_eq ..⟩
  case waits => rw [contextStep_idle secbuf c a hp hs, hu]; rfl
  case opens =>
    rw [contextStep_idle secbuf c a hp hs, if_pos hu]
    exact ⟨rfl, openUnit_state ..⟩
  case appends =>
    rw [contextStep_collect secbuf c a hp hs, if_neg (by simp [hu])]
    exact ⟨rfl, (appendPacket_state ..).trans hs⟩
  case closes => rw [contextStep_collect secbuf c a hp hs, if_pos hu, if_neg (by simp [ha])]
  case reopens =>
    rw [contextStep_collect secbuf c a hp hs, if_pos hu, if_pos ha]
    exact ⟨rfl, openUnit_state ..⟩

/-! ### Contexts in ascending index (R257, R270, R522) -/

/-- How slot `c` reacts to one retained packet: a disabled context sees nothing (R250). -/
def CtxSlot.react (secbuf : Nat) (p : Packet) (c : Nat) (x : CtxSlot) (a : Acc) : Context × Acc :=
  if x.cfg.en then contextStep secbuf c x.cfg p x.ctx a else (x.ctx, a)

/-- How slot `c` reacts to the end of input (R257). -/
def CtxSlot.close (c : Nat) (x : CtxSlot) (a : Acc) : Context × Acc :=
  if x.cfg.en = true ∧ x.ctx.state = .collect then closeUnit c x.cfg x.ctx a else (x.ctx, a)

/-- Every slot reacts in ascending index, from index `c` on, each after the tokens and notes of those before it. -/
def sweep (react : Nat → CtxSlot → Acc → Context × Acc) : Nat → List CtxSlot → Acc → List CtxSlot × Acc
  | _, [], a => ([], a)
  | c, x :: xs, a =>
    ({ x with ctx := (react c x a).1 } :: (sweep react (c + 1) xs (react c x a).2).1,
      (sweep react (c + 1) xs (react c x a).2).2)

theorem feedPacket_eq_sweep (secbuf : Nat) (p : Packet) (c : Nat) (xs : List CtxSlot) (a : Acc) :
    feedPacket secbuf p c xs a = sweep (CtxSlot.react secbuf p) c xs a := by
  induction xs generalizing c a with
  | nil => rfl
  | cons x xs ih =>
    simp only [feedPacket, ih]
    rfl

theorem closeAll_eq_sweep (c : Nat) (xs : List CtxSlot) (a : Acc) : closeAll c xs a = sweep CtxSlot.close c xs a := by
  induction xs generalizing c a with
  | nil => rfl
  | cons x xs ih =>
    simp only [closeAll, ih]
    rfl

/-- A reaction that only adds: what came before matters neither to the context nor to what is added, and the tokens
added carry the context's index. -/
structure AddsOwn (react : Nat → CtxSlot → Acc → Context × Acc) : Prop where
  fst : ∀ c x a, (react c x a).1 = (react c x ⟨[], []⟩).1
  snd : ∀ c x a, (react c x a).2 = a.append (react c x ⟨[], []⟩).2
  own : ∀ c x, ∀ t ∈ (react c x ⟨[], []⟩).2.out, t.src = BitVec.ofNat 4 c

/-- What is added to nothing is all there is. -/
theorem OwnTokens.src {s : BitVec 4} {b : Acc} (h : OwnTokens s ⟨[], []⟩ b) : ∀ t ∈ b.out, t.src = s := by
  obtain ⟨ts, hout, hsrc⟩ := h
  rw [hout]
  exact hsrc

theorem CtxSlot.react_addsOwn (secbuf : Nat) (p : Packet) : AddsOwn (CtxSlot.react secbuf p) where
  fst c x a := by
    unfold react
    split
    · rw [contextStep_fst, contextStep_fst]
    · rfl
  snd c x a := by
    unfold react
    split
    · simpa only [Acc.append_nil] using contextStep_acc secbuf c x.cfg p x.ctx a ⟨[], []⟩
    · exact a.append_nil.symm
  own c x := by
    unfold react
    split
    · exact (contextStep_own ..).src
    · simp

theorem CtxSlot.close_addsOwn : AddsOwn CtxSlot.close where
  fst c x a := by
    unfold close
    split <;> rfl
  snd c x a := by
    unfold close
    split
    · simpa only [Acc.append_nil] using closeUnit_acc c x.cfg x.ctx a ⟨[], []⟩
    · exact a.append_nil.symm
  own c x := by
    unfold close
    split
    · exact (closeUnit_own ..).src
    · simp

/-- A sweep of additive reactions, slot by slot (R522). -/
theorem AddsOwn.sweep_eq {react : Nat → CtxSlot → Acc → Context × Acc} (h : AddsOwn react) (n : Nat)
    (xs : List CtxSlot) (a : Acc) : sweep react n xs a =
      (xs.mapIdx fun c x => { x with ctx := (react (n + c) x ⟨[], []⟩).1 },
        ⟨a.out ++ (xs.mapIdx fun c x => (react (n + c) x ⟨[], []⟩).2.out).flatten,
          a.notes ++ (xs.mapIdx fun c x => (react (n + c) x ⟨[], []⟩).2.notes).flatten⟩) := by
  induction xs generalizing n a with
  | nil => simp [sweep]
  | cons x xs ih =>
    simp only [sweep, ih, h.fst n x a, h.snd n x a, Acc.append, List.mapIdx_cons, List.flatten_cons, Nat.add_zero,
      List.append_assoc, Nat.add_assoc, Nat.add_comm 1]

/-! ### The tokens of one context (R259, R521) -/

theorem tokensOf_own {s : BitVec 4} {ts : List Token} (h : ∀ t ∈ ts, t.src = s) : tokensOf s ts = ts :=
  List.filter_eq_self.2 fun t ht => beq_iff_eq.2 (h t ht)

/-- Slots that add no token of a source add none together. -/
theorem tokensOf_flatten_mapIdx_others {s : BitVec 4} {xs : List CtxSlot} {g : Nat → CtxSlot → List Token}
    (hg : ∀ i < xs.length, ∀ y, ∀ t ∈ g i y, t.src ≠ s) : tokensOf s (xs.mapIdx g).flatten = [] := by
  refine List.filter_eq_nil_iff.2 fun t ht => ?_
  obtain ⟨ts, hts, ht⟩ := List.mem_flatten.1 ht
  obtain ⟨i, hi, rfl⟩ := List.mem_mapIdx.1 hts
  simpa using hg i hi _ t ht

/-- The contexts' indexes are different sources: there are at most 15 of them. -/
theorem ofNat4_ne {m n : Nat} (hm : m < 16) (hn : n < 16) (h : m ≠ n) : BitVec.ofNat 4 m ≠ BitVec.ofNat 4 n := by
  intro he
  have := congrArg BitVec.toNat he
  simp only [BitVec.toNat_ofNat] at this
  omega

/-- Of tokens added slot by slot, those of source `c` are what slot `c` added. -/
theorem tokensOf_flatten_mapIdx {xs : List CtxSlot} {x : CtxSlot} {c : Nat} (hx : xs[c]? = some x)
    (hlen : xs.length ≤ 15) {g : Nat → CtxSlot → List Token} (hg : ∀ i y, ∀ t ∈ g i y, t.src = BitVec.ofNat 4 i) :
    tokensOf (BitVec.ofNat 4 c) (xs.mapIdx g).flatten = g c x := by
  obtain ⟨hc, rfl⟩ := List.getElem?_eq_some_iff.1 hx
  have hother : ∀ i, i < 16 → i ≠ c → ∀ y, ∀ t ∈ g i y, t.src ≠ BitVec.ofNat 4 c := fun i hi hne y t ht => by
    rw [hg i y t ht]
    exact ofNat4_ne hi (by omega) hne
  have hbefore : (xs.take c).length = c := List.length_take_of_le (by omega)
  have hafter : (xs.drop (c + 1)).length = xs.length - (c + 1) := List.length_drop
  conv_lhs => rw [← List.take_append_drop c xs, List.drop_eq_getElem_cons hc]
  simp only [List.mapIdx_append, List.mapIdx_cons, List.flatten_append, List.flatten_cons, tokensOf_append, hbefore,
    Nat.zero_add]
  rw [tokensOf_flatten_mapIdx_others, tokensOf_own (hg c _), tokensOf_flatten_mapIdx_others, List.nil_append,
    List.append_nil]
  · exact fun i hi => hother _ (by omega) (by omega)
  · exact fun i hi => hother _ (by omega) (by omega)

theorem AddsOwn.tokensOf_sweep {react : Nat → CtxSlot → Acc → Context × Acc} (h : AddsOwn react) {xs : List CtxSlot}
    {x : CtxSlot} {c : Nat} (hx : xs[c]? = some x) (hlen : xs.length ≤ 15) (a : Acc) :
    tokensOf (BitVec.ofNat 4 c) (sweep react 0 xs a).2.out =
      tokensOf (BitVec.ofNat 4 c) a.out ++ (react c x ⟨[], []⟩).2.out := by
  rw [h.sweep_eq, tokensOf_append]
  simp only [Nat.zero_add]
  rw [tokensOf_flatten_mapIdx hx hlen (g := fun i y => (react i y ⟨[], []⟩).2.out) h.own]

/-- The tokens slot `c` emits over a list of framer events. -/
def CtxSlot.emits (secbuf c : Nat) : List FrameEvent → CtxSlot → List Token
  | [], _ => []
  | .lost :: es, x => CtxSlot.emits secbuf c es x
  | .pkt p :: es, x => (x.react secbuf p c ⟨[], []⟩).2.out ++ CtxSlot.emits secbuf c es (x.after secbuf p)

section

variable {xs : List CtxSlot} {x : CtxSlot} {c : Nat} (hx : xs[c]? = some x) (hlen : xs.length ≤ 15)
include hx

theorem feedEvents_getElem? (secbuf : Nat) (es : List FrameEvent) (a : Acc) :
    (feedEvents secbuf es xs a).1[c]? = some (x.run secbuf es) := by
  rw [feedEvents_fst, List.getElem?_map, hx, Option.map_some]

include hlen

/-- Beside any other contexts, the tokens of source `c` are those of slot `c`. -/
theorem tokensOf_feedEvents (secbuf : Nat) (es : List FrameEvent) (a : Acc) :
    tokensOf (BitVec.ofNat 4 c) (feedEvents secbuf es xs a).2.out =
      tokensOf (BitVec.ofNat 4 c) a.out ++ x.emits secbuf c es := by
  induction es generalizing xs x a with
  | nil => simp [feedEvents, CtxSlot.emits]
  | cons e es ih =>
    cases e with
    | lost => exact ih hx hlen _
    | pkt p =>
      have hfed : (feedPacket secbuf p 0 xs a).1[c]? = some (x.after secbuf p) := by
        rw [feedPacket_fst, List.getElem?_map, hx, Option.map_some]
      rw [feedEvents, ih hfed (by rw [feedPacket_fst, List.length_map]; exact hlen), feedPacket_eq_sweep,
        (CtxSlot.react_addsOwn secbuf p).tokensOf_sweep hx hlen, List.append_assoc]
      rfl

/-- The tokens of source `c` up to the end-of-input close. -/
theorem tokensOf_closeAll_feedEvents (secbuf : Nat) (es : List FrameEvent) (a : Acc) :
    tokensOf (BitVec.ofNat 4 c) (closeAll 0 (feedEvents secbuf es xs a).1 (feedEvents secbuf es xs a).2).2.out =
      tokensOf (BitVec.ofNat 4 c) a.out ++ x.emits secbuf c es ++ ((x.run secbuf es).close c ⟨[], []⟩).2.out := by
  rw [closeAll_eq_sweep, CtxSlot.close_addsOwn.tokensOf_sweep (feedEvents_getElem? hx secbuf es a)
    (by rw [feedEvents_fst, List.length_map]; exact hlen), tokensOf_feedEvents hx hlen]

end

/-! ### Packets of other PIDs (R251, R259) -/

section

variable {x : CtxSlot} {p : Packet} (h : p.pid ≠ x.cfg.pid)
include h

theorem CtxSlot.after_other (secbuf : Nat) : x.after secbuf p = x := by simp [CtxSlot.after, Context.after, h]

theorem CtxSlot.react_other (secbuf c : Nat) (a : Acc) : x.react secbuf p c a = (x.ctx, a) := by
  simp [CtxSlot.react, contextStep_other secbuf c a h]

end

/-- Events left out that are no packet of the slot's PID do not change its state. -/
theorem CtxSlot.run_filter {q : FrameEvent → Bool} (secbuf : Nat) (es : List FrameEvent) {x : CtxSlot}
    (hq : ∀ p, p.pid = x.cfg.pid → q (.pkt p) = true) : x.run secbuf (es.filter q) = x.run secbuf es := by
  induction es generalizing x with
  | nil => rfl
  | cons e es ih =>
    rw [List.filter_cons]
    split
    · cases e with
      | lost => exact ih hq
      | pkt p => exact ih (x := x.after secbuf p) hq
    · next hdrop =>
      cases e with
      | lost => exact ih hq
      | pkt p =>
        rw [CtxSlot.run, CtxSlot.after_other (mt (hq p) hdrop)]
        exact ih hq

/-- Events left out that are no packet of the slot's PID do not change its tokens. -/
theorem CtxSlot.emits_filter {q : FrameEvent → Bool} (secbuf c : Nat) (es : List FrameEvent) {x : CtxSlot}
    (hq : ∀ p, p.pid = x.cfg.pid → q (.pkt p) = true) : x.emits secbuf c (es.filter q) = x.emits secbuf c es := by
  induction es generalizing x with
  | nil => rfl
  | cons e es ih =>
    rw [List.filter_cons]
    split
    · cases e with
      | lost => exact ih hq
      | pkt p => exact congrArg _ (ih (x := x.after secbuf p) hq)
    · next hdrop =>
      cases e with
      | lost => exact ih hq
      | pkt p =>
        rw [CtxSlot.emits, CtxSlot.after_other (mt (hq p) hdrop), CtxSlot.react_other (mt (hq p) hdrop)]
        exact ih hq

/-- Settles O30: the slot's state and tokens depend on its own events only, and those of other PIDs change neither. -/
theorem contextSeesOnlyItsPid : Obligations.ContextSeesOnlyItsPid := by
  unfold Obligations.ContextSeesOnlyItsPid
  intro secbuf evs xs a b c x hx
  have hq : ∀ p : Packet, p.pid = x.cfg.pid → (p.pid == x.cfg.pid) = true := fun p => beq_iff_eq.2
  refine ⟨?state, fun ys hy hxs hys hab => ⟨?fed, ?closed⟩⟩
  case state =>
    rw [feedEvents_getElem? hx, feedEvents_getElem? rfl, CtxSlot.run_filter]
    exact hq
  case fed =>
    rw [tokensOf_feedEvents hx hxs, tokensOf_feedEvents hy hys, CtxSlot.emits_filter, hab]
    exact hq
  case closed =>
    rw [tokensOf_closeAll_feedEvents hx hxs, tokensOf_closeAll_feedEvents hy hys, CtxSlot.emits_filter,
      CtxSlot.run_filter, hab]
    exacts [hq, hq]

/-! ### RUN (41_reassembler.md R257, R258, R270) -/

theorem exec_run_region {s : State} (hp : s.phase = .idle) (hr : s.HasRegion) :
    exec .run s = .next (startCommand 0x3#4 (runResult s) s) :=
  acceptCommand_region _ _ hp hr

/-- The units a context will have closed at the end of input (R257). -/
theorem CtxSlot.finish_closed (x : CtxSlot) : x.finish.ctx.closed =
    x.ctx.closed + (if x.cfg.en = true ∧ x.ctx.state = .collect then 1 else 0) := by
  unfold CtxSlot.finish
  split <;> rfl

/-- A slot as RUN feeds it the framer's events: it starts idle and empty (R250, R270). -/
def State.fed (s : State) (x : CtxSlot) : CtxSlot :=
  CtxSlot.run s.inst.secbufSize s.frame.sliced.evs { x with ctx := Context.initial }

theorem State.fed_cfg (s : State) (x : CtxSlot) : (s.fed x).cfg = x.cfg :=
  (CtxSlot.run_keeps _ _ { x with ctx := Context.initial }).1

theorem State.fed_disabled (s : State) {x : CtxSlot} (hen : x.cfg.en = false) :
    s.fed x = { x with ctx := Context.initial } :=
  CtxSlot.run_disabled _ hen

theorem startContexts_getElem? {xs : List CtxSlot} {c : Nat} {x : CtxSlot} (hx : xs[c]? = some x) :
    (startContexts xs)[c]? = some { x with ctx := Context.initial } := by
  rw [startContexts, List.getElem?_map, hx, Option.map_some]

theorem feedEvents_startContexts_getElem? {s : State} {c : Nat} {x : CtxSlot} (hx : s.ctxs[c]? = some x) (a : Acc) :
    (feedEvents s.inst.secbufSize s.frame.sliced.evs (startContexts s.ctxs) a).1[c]? = some (s.fed x) :=
  feedEvents_getElem? (startContexts_getElem? hx) ..

/-- With ALL = 0 a context has closed one unit once it is DONE, and none before (R251). -/
def Context.ClosedOnce (x : Context) : Prop := x.closed = if x.state = .done then 1 else 0

theorem Context.append_keeps (secbuf : Nat) (p : Packet) (x : Context) : (x.append secbuf p).state = x.state ∧
    (x.append secbuf p).k = x.k ∧ (x.append secbuf p).closed = x.closed := by
  unfold Context.append
  split <;> exact ⟨rfl, rfl, rfl⟩

theorem Context.after_closedOnce (secbuf : Nat) {cfg : CtxCfg} (hall : cfg.all = false) (p : Packet) (x : Context)
    (h : x.ClosedOnce) : (x.after secbuf cfg p).ClosedOnce := by
  unfold Context.after
  split
  · exact h
  cases hs : x.state with
  | done => exact h
  | idle =>
    simp only [ClosedOnce, hs, reduceCtorEq, if_false] at h
    simp only
    split
    · simp [ClosedOnce, opened, append_keeps, h]
    · simp [ClosedOnce, hs, h]
  | collect =>
    simp only [ClosedOnce, hs, reduceCtorEq, if_false] at h
    simp only [hall]
    split
    · simp [ClosedOnce, h]
    · simp [ClosedOnce, append_keeps, hs, h]

/-- With ALL = 0 a context closes at most one unit (R258). -/
theorem State.fed_closes_le_one (s : State) {x : CtxSlot} (hall : x.cfg.all = false) :
    (s.fed x).finish.ctx.closed ≤ 1 := by
  have h : (s.fed x).ctx.ClosedOnce := CtxSlot.run_induct (Context.after_closedOnce _ hall) _ _ rfl rfl
  rw [CtxSlot.finish_closed, h]
  by_cases hdone : (s.fed x).ctx.state = .done
  · simp [hdone]
  · rw [if_neg hdone, Nat.zero_add]
    split <;> decide

/-- RUN reports the units each context closed, and its state before the end-of-input close (R54, R55). -/
theorem runResult_ctxResults (s : State) : (runResult s).q.ctxResults =
    some (s.ctxs.map fun x => (BitVec.ofNat 32 (s.fed x).finish.ctx.closed, (s.fed x).ctx.state)) := by
  simp only [runResult, startContexts, closeAll_fst, feedEvents_fst, List.map_map, List.zipWith_map, List.zipWith_self]
  rfl

theorem runResult_secCount (s : State) : (runResult s).q.secCount =
    some (BitVec.ofNat 32 (s.ctxs.map fun x => (s.fed x).finish.ctx.closed).sum) := by
  simp only [runResult, startContexts, closedTotal, closeAll_fst, feedEvents_fst, List.map_map]
  rfl

/-- Settles O32: the two sweeps and the fold are R270's, and what RUN reports is read off each slot's own run. -/
theorem runFeedsTheContexts : Obligations.RunFeedsTheContexts := by
  unfold Obligations.RunFeedsTheContexts
  refine ⟨fun secbuf p xs a => ?packet, fun secbuf evs xs a => ?events, fun xs a => ?close, fun s hp hr => ?run⟩
  case packet =>
    rw [feedPacket_eq_sweep, (CtxSlot.react_addsOwn secbuf p).sweep_eq]
    simp only [Nat.zero_add]
    rfl
  case events =>
    induction evs generalizing xs a with
    | nil => rfl
    | cons e evs ih => cases e <;> exact ih _ _
  case close =>
    rw [closeAll_eq_sweep, CtxSlot.close_addsOwn.sweep_eq]
    simp only [Nat.zero_add]
    rfl
  case run =>
    rw [← syncNotes_eq]
    refine ⟨_, exec_run_region hp hr, rfl, rfl, rfl, rfl, rfl, rfl, rfl, rfl, rfl, rfl, _, List.length_map ..,
      runResult_secCount s, _, runResult_ctxResults s, List.length_map .., fun c x y hx hy => ?slot⟩
    case slot =>
      obtain rfl : s.fed x = y := Option.some.inj ((feedEvents_startContexts_getElem? hx _).symm.trans hy)
      refine ⟨(s.fed x).finish.ctx.closed, ?_, ?_, ?_, fun hen => ?disabled, s.fed_closes_le_one⟩
      · rw [List.getElem?_map, hx, Option.map_some]
      · rw [List.getElem?_map, hx, Option.map_some]
      · rw [CtxSlot.finish_closed, s.fed_cfg]
      case disabled =>
        rw [s.fed_disabled hen]
        exact ⟨by simp [CtxSlot.finish, hen, Context.initial], rfl⟩

/-! ### The SEC_END tokens of one context (R254, R257, R258) -/

theorem closedUnits_tokensOf (src : BitVec 4) (ts : List Token) :
    closedUnits src (tokensOf src ts) = closedUnits src ts := by
  rw [closedUnits, closedUnits, tokensOf, List.filterMap_filter]
  refine List.filterMap_congr fun t _ => ?_
  cases t with
  | secEnd s i e st ovf => by_cases hs : s = src <;> simp [Token.src, hs]
  | _ => exact ite_self _

/-- A context with a class closes its unit with one SEC_END, of the unit's index (R256). -/
theorem closedUnits_closeUnit (c : Nat) {cfg : CtxCfg} (hcls : cfg.cls ≠ .none) (x : Context) (a : Acc) :
    closedUnits (BitVec.ofNat 4 c) (closeUnit c cfg x a).2.out = closedUnits (BitVec.ofNat 4 c) a.out ++ [x.k] := by
  rw [closeUnit_out, closedUnits_append, closedUnits_append, if_neg hcls, decodeSection_closes, if_pos rfl]
  cases cfg.raw <;> simp [closedUnits]

/-- Context `c` after the tokens `ts`: the indexes of its SEC_END tokens count the units closed, and the unit being
collected has the next one. -/
structure Context.Counted (c : Nat) (x : Context) (ts : List Token) : Prop where
  closed : closedUnits (BitVec.ofNat 4 c) ts = (List.range x.closed).map (BitVec.ofNat 32)
  next : x.state = .collect → x.k = BitVec.ofNat 32 x.closed

theorem Context.Counted.initial (c : Nat) : Context.initial.Counted c [] := ⟨rfl, nofun⟩

section

variable {c : Nat} {cfg : CtxCfg} {x : Context} {a : Acc}

theorem Context.Counted.append (h : x.Counted c a.out) (secbuf : Nat) (cfg : CtxCfg) (p : Packet) :
    (appendPacket secbuf c cfg p x a).1.Counted c (appendPacket secbuf c cfg p x a).2.out := by
  obtain ⟨hstate, hk, hclosed⟩ := Context.append_keeps secbuf p x
  rw [appendPacket_fst]
  exact ⟨by rw [closedUnits_appendPacket, hclosed, h.closed], by rw [hstate, hk, hclosed]; exact h.next⟩

/-- An opened unit has the next index (R254). -/
theorem Context.Counted.openUnit
    (h : closedUnits (BitVec.ofNat 4 c) a.out = (List.range x.closed).map (BitVec.ofNat 32)) (secbuf : Nat)
    (cfg : CtxCfg) (p : Packet) :
    (openUnit secbuf c cfg p x a).1.Counted c (openUnit secbuf c cfg p x a).2.out :=
  Counted.append (x := { x with k := BitVec.ofNat 32 x.closed, buf := [], trunc := false, state := .collect })
    ⟨h, fun _ => rfl⟩ ..

/-- A close counts the unit being collected (R256). -/
theorem Context.Counted.closeUnit (h : x.Counted c a.out) (hs : x.state = .collect) (hcls : cfg.cls ≠ .none) :
    closedUnits (BitVec.ofNat 4 c) (closeUnit c cfg x a).2.out =
      (List.range (x.closed + 1)).map (BitVec.ofNat 32) := by
  rw [closedUnits_closeUnit c hcls, h.closed, h.next hs, List.range_succ, List.map_append]
  rfl

/-- Every row of R251's table keeps the count. -/
theorem Context.Counted.contextStep (h : x.Counted c a.out) (secbuf : Nat) (hcls : cfg.cls ≠ .none) (p : Packet) :
    (contextStep secbuf c cfg p x a).1.Counted c (contextStep secbuf c cfg p x a).2.out := by
  by_cases hp : p.pid = cfg.pid
  case neg => rwa [contextStep_other secbuf c a hp]
  cases hs : x.state with
  | done => rwa [contextStep_done secbuf c a hs]
  | idle =>
    rw [contextStep_idle secbuf c a hp hs]
    split
    · exact Counted.openUnit h.closed ..
    · exact h
  | collect =>
    rw [contextStep_collect secbuf c a hp hs]
    split
    · split
      · exact Counted.openUnit (h.closeUnit hs hcls) ..
      · exact ⟨h.closeUnit hs hcls, nofun⟩
    · exact h.append ..

end

section

variable {c : Nat} {x : CtxSlot} {ts : List Token} (h : x.ctx.Counted c ts) (hcls : x.cfg.cls ≠ .none)
include h hcls

theorem CtxSlot.counted_after (secbuf : Nat) (p : Packet) :
    (x.after secbuf p).ctx.Counted c (ts ++ (x.react secbuf p c ⟨[], []⟩).2.out) := by
  cases hen : x.cfg.en with
  | false => simpa [CtxSlot.after, CtxSlot.react, hen] using h
  | true =>
    have hstep := Context.Counted.contextStep (a := ⟨ts, []⟩) h secbuf hcls p
    rw [contextStep_fst, ← Acc.append_nil ⟨ts, []⟩, contextStep_acc] at hstep
    simpa [CtxSlot.after, CtxSlot.react, Acc.append, hen] using hstep

theorem CtxSlot.counted_run (secbuf : Nat) (es : List FrameEvent) :
    (x.run secbuf es).ctx.Counted c (ts ++ x.emits secbuf c es) := by
  induction es generalizing x ts with
  | nil => simpa [CtxSlot.run, CtxSlot.emits] using h
  | cons e es ih =>
    cases e with
    | lost => exact ih h hcls
    | pkt p =>
      rw [CtxSlot.emits, ← List.append_assoc]
      exact ih (CtxSlot.counted_after h hcls secbuf p) hcls

/-- The end-of-input close counts the unit still being collected (R257). -/
theorem CtxSlot.closedUnits_close : closedUnits (BitVec.ofNat 4 c) (ts ++ (x.close c ⟨[], []⟩).2.out) =
    (List.range x.finish.ctx.closed).map (BitVec.ofNat 32) := by
  by_cases hopen : x.cfg.en = true ∧ x.ctx.state = .collect
  · have hclose := Context.Counted.closeUnit (a := ⟨ts, []⟩) h hopen.2 hcls
    rw [← Acc.append_nil ⟨ts, []⟩, closeUnit_acc] at hclose
    rw [CtxSlot.close, if_pos hopen, CtxSlot.finish_closed, if_pos hopen]
    exact hclose
  · rw [CtxSlot.close, if_neg hopen, CtxSlot.finish_closed, if_neg hopen, List.append_nil]
    exact h.closed

end

/-- Settles O31: the SEC_END tokens of source `c` are those of slot `c`, which count its units at every event. -/
theorem runClosesUnitsInOrder : Obligations.RunClosesUnitsInOrder := by
  unfold Obligations.RunClosesUnitsInOrder
  intro s t c x hi hp hr ht hx hcls
  obtain rfl : _ = t := Host.Outcome.next.inj ((exec_run_region hp hr).symm.trans ht)
  refine ⟨(s.fed x).finish.ctx.closed, _, runResult_ctxResults s, ?_, ?_⟩
  · rw [List.getElem?_map, hx, Option.map_some, Option.map_some]
  · have hlen : (startContexts s.ctxs).length ≤ 15 := by
      obtain ⟨-, -, -, nCtx_le, -⟩ := hi.legal
      rw [startContexts, List.length_map, hi.ctxCount]
      exact nCtx_le
    have hcount : (s.fed x).ctx.Counted c _ :=
      CtxSlot.counted_run (x := { x with ctx := Context.initial }) (Context.Counted.initial c) hcls _ _
    rw [← CtxSlot.closedUnits_close hcount (s.fed_cfg x ▸ hcls), ← closedUnits_tokensOf]
    exact congrArg _ (tokensOf_closeAll_feedEvents (startContexts_getElem? hx) hlen ..)

/-! ### The bytes a decode reads (41_reassembler.md R262, 42_section_header.md R310) -/

/-- A unit clipped to `n` bytes has the same bytes below `n`. -/
theorem agreeBelow_take {B n : Nat} (h : B ≤ n) (S : Bytes) : AgreeBelow B S (S.take n) := by
  intro i j hj
  rw [slice, slice, List.drop_take, List.take_take, Nat.min_eq_left (by omega)]

theorem tableStart_le (S : Bytes) : tableStart S ≤ 256 := by
  have := (byteAt S 0).isLt
  unfold tableStart
  omega

/-- A section whose length passes its check ends within 4352 bytes: its pointer has at most 255 (R262). -/
theorem crcPos_add_four_le {S : Bytes} (hmax : sectionLength S ≤ 4093) : crcPos S + 4 ≤ 4352 := by
  have := tableStart_le S
  have : 1 ≤ tableStart S := Nat.le_add_right ..
  unfold crcPos
  omega

/-- Check 5 of R310. -/
theorem sectionLength_le_of_no_error {cls : TableClass} {S : Bytes} (h : sectionError cls S = none) :
    sectionLength S ≤ 4093 := by
  by_contra hlong
  simp only [sectionError, if_pos (show sectionLength S > sectionLengthMax by simp only [sectionLengthMax]; omega)] at h
  split_ifs at h

section

variable {B : Nat} {S S' : Bytes} (h : AgreeBelow B S S')
include h

theorem AgreeBelow.be {i n : Nat} (hi : i + n ≤ B) : be S' i n = be S i n := by
  rw [Machine.be, Machine.be, h i (i + n) hi]

theorem AgreeBelow.byteAt {i : Nat} (hi : i < B) : byteAt S' i = byteAt S i :=
  BitVec.eq_of_toNat_eq (by rw [← be_one_eq, ← be_one_eq, h.be hi])

end

section

variable {S S' : Bytes} (h : AgreeBelow 4352 S S')
include h

theorem AgreeBelow.tableStart : tableStart S' = tableStart S := by
  rw [Machine.tableStart, Machine.tableStart, h.byteAt (by decide)]

theorem AgreeBelow.lengthField : lengthField S' = lengthField S := by
  have := tableStart_le S
  rw [Machine.lengthField, Machine.lengthField, h.tableStart, h.be (by omega)]

theorem AgreeBelow.sectionLength : sectionLength S' = sectionLength S := by
  rw [Machine.sectionLength, Machine.sectionLength, h.lengthField]

theorem AgreeBelow.emptyHeader : emptyHeader S' = emptyHeader S := by
  have := tableStart_le S
  simp only [Machine.emptyHeader, h.tableStart, h.lengthField, h.byteAt (i := 0) (by decide),
    h.byteAt (i := Machine.tableStart S) (by omega)]

theorem AgreeBelow.crcPos : crcPos S' = crcPos S := by
  rw [Machine.crcPos, Machine.crcPos, h.tableStart, h.sectionLength]

theorem AgreeBelow.calcCrc (hmax : Machine.sectionLength S ≤ 4093) : calcCrc S' = calcCrc S := by
  have := crcPos_add_four_le hmax
  rw [Machine.calcCrc, Machine.calcCrc, h.tableStart, h.crcPos, h _ _ (by omega)]

theorem AgreeBelow.storedCrc (hmax : Machine.sectionLength S ≤ 4093) : storedCrc S' = storedCrc S := by
  rw [Machine.storedCrc, Machine.storedCrc, h.crcPos, h.be (crcPos_add_four_le hmax)]

theorem AgreeBelow.fullHeader (hmax : Machine.sectionLength S ≤ 4093) : fullHeader S' = fullHeader S := by
  have := tableStart_le S
  simp only [Machine.fullHeader, checkedStatus, h.emptyHeader, h.tableStart, h.sectionLength, h.storedCrc hmax,
    h.calcCrc hmax, h.be (i := Machine.tableStart S + 3) (n := 2) (by omega),
    h.byteAt (i := Machine.tableStart S + 5) (by omega), h.byteAt (i := Machine.tableStart S + 6) (by omega),
    h.byteAt (i := Machine.tableStart S + 7) (by omega)]

theorem AgreeBelow.atBody (hmax : Machine.sectionLength S ≤ 4093) (cls : TableClass) (src : BitVec 4) (index : Word) :
    atBody (Work.start S' cls src index) = (atBody (Work.start S cls src index)).on S' := by
  have := tableStart_le S
  rw [atBody_eq, atBody_eq, h.tableStart, h.crcPos, h.calcCrc hmax, h.storedCrc hmax, h.fullHeader hmax,
    h.be (i := Machine.tableStart S + 3) (n := 2) (by omega)]
  rfl

theorem AgreeBelow.dispatchBody {w : Work} (hw : w.sec = S) (hstart : w.tstart < 4352) (hlim : w.lim ≤ 4352) :
    dispatchBody (w.on S') = (dispatchBody w).on S' := by
  have htable : decodeTable (w.on S').cls (Machine.byteAt (w.on S').sec (w.on S').tstart) =
      decodeTable w.cls (Machine.byteAt w.sec w.tstart) := by
    rw [hw]
    exact congrArg _ (h.byteAt hstart)
  cases hrow : decodeTable w.cls (Machine.byteAt w.sec w.tstart) with
  | ok i =>
    rw [dispatchBody_ok hrow, dispatchBody_ok (htable.trans hrow)]
    exact (runTable_on h i hlim hw).1
  | error e => rw [dispatchBody_error hrow, dispatchBody_error (htable.trans hrow)]

/-- The seven checks read the table_id and the length field, and compare the unit's length with 4352 at most. -/
theorem AgreeBelow.sectionError (hlen : S'.length = S.length ∨ 4352 ≤ S.length ∧ 4352 ≤ S'.length)
    (cls : TableClass) : sectionError cls S' = sectionError cls S := by
  have := tableStart_le S
  have hempty : S'.length < 1 ↔ S.length < 1 := by omega
  have hid : S'.length < Machine.tableStart S + 1 ↔ S.length < Machine.tableStart S + 1 := by omega
  have hfield : S'.length < Machine.tableStart S + 3 ↔ S.length < Machine.tableStart S + 3 := by omega
  simp only [Machine.sectionError, h.tableStart, h.sectionLength, h.byteAt (i := Machine.tableStart S) (by omega),
    hempty, hid, hfield]
  by_cases hmax : Machine.sectionLength S > sectionLengthMax
  · simp only [if_pos hmax]
  · have hroom : S'.length - (Machine.tableStart S + 3) < Machine.sectionLength S ↔
        S.length - (Machine.tableStart S + 3) < Machine.sectionLength S := by
      simp only [sectionLengthMax] at hmax
      omega
    simp only [hroom]

/-- Two units that agree below 4352, and are of one length or both at least so long, decode alike. -/
theorem AgreeBelow.decodeSection (hlen : S'.length = S.length ∨ 4352 ≤ S.length ∧ 4352 ≤ S'.length)
    (cls : TableClass) (src : BitVec 4) (index : Word) :
    decodeSection S' cls src index = (decodeSection S cls src index).on S' := by
  cases herr : Machine.sectionError cls S with
  | some e =>
    rw [decodeSection_error src index herr, decodeSection_error src index ((h.sectionError hlen cls).trans herr)]
    rfl
  | none =>
    have herr' := (h.sectionError hlen cls).trans herr
    by_cases hzero : Machine.sectionLength S = 0
    · rw [decodeSection_empty src index herr hzero,
        decodeSection_empty src index herr' (h.sectionLength.trans hzero), h.emptyHeader]
      rfl
    · have hmax := sectionLength_le_of_no_error herr
      obtain ⟨-, -, -, hsec, -, -, -, hstart, hlim, -⟩ := atBody_start S cls src index
      have := tableStart_le S
      have := crcPos_add_four_le hmax
      rw [decodeSection_body src index herr hzero,
        decodeSection_body src index herr' (by rwa [h.sectionLength]), h.atBody hmax,
        h.dispatchBody hsec (by omega) (by omega)]
      rfl

end

/-- Settles O33: a clipped unit agrees below 4352, and clipping shortens only a unit of more than 4352 bytes. -/
theorem decodeIgnoresBytesPastTheCapacity : Obligations.DecodeIgnoresBytesPastTheCapacity := by
  unfold Obligations.DecodeIgnoresBytesPastTheCapacity
  intro S cls src index n hn
  have hlen : (S.take n).length = S.length ∨ 4352 ≤ S.length ∧ 4352 ≤ (S.take n).length := by
    rw [List.length_take]
    omega
  rw [(agreeBelow_take hn S).decodeSection hlen]
  exact ⟨rfl, rfl, rfl, rfl⟩

end Sys2Proof.Machine

/-! PROOFS. The section header: table_ids and classes (O3), the seven checks (O34), the empty section (O35), the tokens
and notes of a decode (O36), the frame of the table and descriptor rows (O43). -/

namespace Sys2Proof.Machine

/-! ### The header (42_section_header.md R310, R312) -/

/-- The length field's two bytes, the first the more significant (R104). -/
theorem lengthField_eq {S : Bytes} (h : tableStart S + 3 ≤ S.length) :
    lengthField S = 256 * (byteAt S (tableStart S + 1)).toNat + (byteAt S (tableStart S + 2)).toNat := by
  rw [lengthField, be_succ (by omega), be_one_eq, byteAt_eq_getElem (i := tableStart S + 2) (by omega)]

/-- The single bits and the reserved field of a length field are those of its first byte (R137). -/
theorem lengthField_flags {S : Bytes} (h : tableStart S + 3 ≤ S.length) :
    let x := lengthField S
    let b := byteAt S (tableStart S + 1)
    (x / 32768 % 2 == 1) = b.getLsbD 7 ∧ (x / 16384 % 2 == 1) = b.getLsbD 6 ∧
      BitVec.ofNat 2 (x / 4096) = b.extractLsb' 4 2 := by
  intro x b
  have hlow := (byteAt S (tableStart S + 2)).isLt
  have hx : x = 256 * b.toNat + (byteAt S (tableStart S + 2)).toNat := lengthField_eq h
  refine ⟨?ssi, ?priv, ?rsv⟩
  case ssi =>
    rw [BitVec.getLsbD, Nat.testBit_eq_decide_div_mod_eq, show x / 32768 = b.toNat / 2 ^ 7 by omega]
    rfl
  case priv =>
    rw [BitVec.getLsbD, Nat.testBit_eq_decide_div_mod_eq, show x / 16384 = b.toNat / 2 ^ 6 by omega]
    rfl
  case rsv =>
    apply BitVec.eq_of_toNat_eq
    rw [BitVec.toNat_ofNat, extractLsb'_toNat_div, show x / 4096 = b.toNat / 2 ^ 4 by omega]

theorem emptyHeader_eq {S : Bytes} (h : tableStart S + 3 ≤ S.length) : emptyHeader S =
    { pointerField := byteAt S 0, tableId := byteAt S (tableStart S),
      ssi := (byteAt S (tableStart S + 1)).getLsbD 7, priv := (byteAt S (tableStart S + 1)).getLsbD 6,
      rsv1 := (byteAt S (tableStart S + 1)).extractLsb' 4 2, sectionLength := 0, tidExt := 0, rsv2 := 0, version := 0,
      currentNext := false, sectionNumber := 0, lastSectionNumber := 0, crcStored := 0, crcCalc := 0,
      crcStatus := 0 } := by
  obtain ⟨hssi, hpriv, hrsv⟩ := lengthField_flags h
  rw [emptyHeader, hssi, hpriv, hrsv]

/-- The CRC check of a full header has two outcomes (R310, R315). -/
theorem fullHeader_checked (S : Bytes) :
    (fullHeader S).crcStatus = 1 ∧ (fullHeader S).crcCalc = (fullHeader S).crcStored ∨
      (fullHeader S).crcStatus = 2 ∧ (fullHeader S).crcCalc ≠ (fullHeader S).crcStored := by
  by_cases h : calcCrc S = storedCrc S
  · exact .inl ⟨if_pos h, h⟩
  · exact .inr ⟨if_neg h, h⟩

/-! ### The seven checks (42_section_header.md R310, R311), each reached when those before it pass -/

section

variable {cls : TableClass} {S : Bytes}

theorem sectionError_noTableId (h : S.length ≤ tableStart S) : sectionError cls S = some .truncatedSection := by
  simp only [sectionError, if_pos (Nat.lt_succ_of_le h), ite_self]

theorem sectionError_notAccepted (h : tableStart S < S.length) (ha : accepts cls (byteAt S (tableStart S)) = false) :
    sectionError cls S = some .unexpectedTableId := by
  unfold sectionError
  rw [if_neg (by omega), if_neg (by omega), if_pos (by simp [ha])]

variable (ha : accepts cls (byteAt S (tableStart S)) = true)

include ha

/-- The checks from the fourth on. -/
theorem sectionError_accepted (h : tableStart S < S.length) : sectionError cls S =
    if S.length < tableStart S + 3 then some .truncatedSection
    else if sectionLength S > sectionLengthMax then some .badSectionLength
    else if S.length - (tableStart S + 3) < sectionLength S then some .truncatedSection
    else if 1 ≤ sectionLength S ∧ sectionLength S ≤ 8 then some .truncatedSection
    else none := by
  unfold sectionError
  rw [if_neg (by omega), if_neg (by omega), if_neg (by simp [ha])]

theorem sectionError_noLength (h : tableStart S < S.length) (hlen : S.length < tableStart S + 3) :
    sectionError cls S = some .truncatedSection := by
  rw [sectionError_accepted ha h, if_pos hlen]

theorem sectionError_tooLong (h : tableStart S + 3 ≤ S.length) (hmax : 4093 < sectionLength S) :
    sectionError cls S = some .badSectionLength := by
  rw [sectionError_accepted ha (by omega), if_neg (by omega), if_pos hmax]

theorem sectionError_cutShort (h : tableStart S + 3 ≤ S.length) (hmax : sectionLength S ≤ 4093)
    (hlen : S.length < tableStart S + 3 + sectionLength S) : sectionError cls S = some .truncatedSection := by
  rw [sectionError_accepted ha (by omega), if_neg (by omega), if_neg (Nat.not_lt.2 hmax), if_pos (by omega)]

theorem sectionError_noRoomForCrc (h : tableStart S + 3 + sectionLength S ≤ S.length) (hmin : 1 ≤ sectionLength S)
    (hmax : sectionLength S ≤ 8) : sectionError cls S = some .truncatedSection := by
  rw [sectionError_accepted ha (by omega), if_neg (by omega), if_neg (by simp only [sectionLengthMax]; omega),
    if_neg (by omega), if_pos ⟨hmin, hmax⟩]

theorem sectionError_zeroLength (h : tableStart S + 3 ≤ S.length) (hzero : sectionLength S = 0) :
    sectionError cls S = none := by
  rw [sectionError_accepted ha (by omega), hzero, if_neg (by omega), if_neg (by decide), if_neg (by omega),
    if_neg (by omega)]

end

/-! ### What a decode emits and notes -/

section

variable (S : Bytes) (cls : TableClass) (src : BitVec 4) (index : Word)

/-- The decode reports `e` and nothing else. -/
def FailsWith (e : ErrCode) : Prop :=
  (decodeSection S cls src index).out = [.secEnd src index e.code 0 false] ∧
    (decodeSection S cls src index).notes = [e]

variable {S cls}

theorem failsWith_of_error {e : ErrCode} (h : sectionError cls S = some e) : FailsWith S cls src index e := by
  rw [FailsWith, decodeSection_error src index h]
  exact ⟨rfl, rfl⟩

/-- A section of length 0 gives its header and an end (R312). -/
theorem decodeSection_zeroLength (h : sectionError cls S = none) (hzero : sectionLength S = 0) :
    (decodeSection S cls src index).out = [.secHdr src index (emptyHeader S), .secEnd src index 0 0 false] ∧
      (decodeSection S cls src index).notes = [] ∧ (decodeSection S cls src index).crcStatus = 0 := by
  rw [decodeSection_empty src index h hzero]
  exact ⟨rfl, rfl, rfl⟩

end

/-- Settles O36, by the three outcomes of a decode: a failed check, an empty section, a body. -/
theorem decodeEmitsHeaderBodyEnd : Obligations.DecodeEmitsHeaderBodyEnd := by
  unfold Obligations.DecodeEmitsHeaderBodyEnd
  intro S cls src index
  cases herr : sectionError cls S with
  | some e => exact ⟨e, .inl ⟨sectionError_kind herr, failsWith_of_error src index herr⟩⟩
  | none =>
    refine ⟨.truncatedSection, .inr ?_⟩
    by_cases hzero : sectionLength S = 0
    · obtain ⟨hout, hnotes, -⟩ := decodeSection_zeroLength src index herr hzero
      exact ⟨emptyHeader S, [], 0, hout, nofun, hnotes, .inl rfl⟩
    · obtain ⟨body, n, hbody, hout, hnotes, -⟩ := decodeSection_body_adds src index herr hzero
      exact ⟨fullHeader S, body, n, hout, hbody, hnotes, .inr (fullHeader_checked S)⟩

/-- Settles O35: no check fails, and the header is R312's. -/
theorem zeroLengthSectionYieldsAnEmptyRecord : Obligations.ZeroLengthSectionYieldsAnEmptyRecord := by
  unfold Obligations.ZeroLengthSectionYieldsAnEmptyRecord
  intro S cls src index t hlen ha hzero
  obtain ⟨hout, hnotes, hstatus⟩ := decodeSection_zeroLength src index (sectionError_zeroLength ha hlen hzero) hzero
  exact ⟨hnotes, hstatus, emptyHeader_eq hlen ▸ hout⟩

/-- Settles O34: one check for each failure; a section that passes them all is empty or has a body. -/
theorem sectionReportsItsFirstFailedCheck : Obligations.SectionReportsItsFirstFailedCheck := by
  unfold Obligations.SectionReportsItsFirstFailedCheck
  intro S cls src index t L failsWith
  have hfails {e : ErrCode} (h : sectionError cls S = some e) : failsWith e := failsWith_of_error src index h
  refine ⟨fun h => hfails (sectionError_noTableId (by simp [h])), fun h => hfails (sectionError_noTableId h),
    fun h ha => hfails (sectionError_notAccepted h ha), fun h ha hlen => hfails (sectionError_noLength ha h hlen),
    fun h ha hmax => hfails (sectionError_tooLong ha h hmax),
    fun h ha hmax hlen => hfails (sectionError_cutShort ha h hmax hlen),
    fun h ha hmin hmax => hfails (sectionError_noRoomForCrc ha h hmin hmax), fun h ha hmax hL => ?passes⟩
  case passes =>
    rcases hL with hzero | hmin
    · have hlen : t + 3 ≤ S.length := by omega
      obtain ⟨hout, -⟩ := decodeSection_zeroLength src index (sectionError_zeroLength ha hlen hzero) hzero
      exact ⟨emptyHeader S, 0, false, by rw [hout]; rfl, by rw [hout]; rfl, rfl, hzero.symm, rfl, by omega⟩
    · obtain ⟨body, n, -, hout, -⟩ :=
        decodeSection_body_adds src index (sectionError_none ha hmin hmax h) (show L ≠ 0 by omega)
      refine ⟨fullHeader S, checkedStatus S, n != 0, by rw [hout]; rfl, by rw [hout, List.getLast?_concat], rfl,
        ?length, rfl, fun _ => ?fields⟩
      case length => exact Nat.mod_eq_of_lt (show L < 4096 by omega)
      case fields =>
        intro crcPos stored computed
        rw [fullHeader, emptyHeader_eq (show t + 3 ≤ S.length by omega)]
        rfl

/-! ### The frame of the rows (44_tables.md, 45_descriptors.md) -/

/-- No register shows the section decoder's working values (R30). -/
theorem readReg_decoder (s : State) (w : Work) (r : CsrReg) : readReg { s with decoder := w } r = readReg s r := by
  cases r <;> rfl

/-- Settles O43: a row is its action on the decoder, which only adds body tokens and overflows. -/
theorem tableAndDescriptorRowsKeepEverythingElse : Obligations.TableAndDescriptorRowsKeepEverythingElse := by
  unfold Obligations.TableAndDescriptorRowsKeepEverythingElse
  intro i s t hi ht
  rw [exec_decoderRow hi] at ht
  injection ht with ht
  subst ht
  exact ⟨rfl, State.capAt_congr rfl rfl rfl, readReg_decoder s _,
    (runTable_grows i s.decoder).trans (runDescriptor_body i _)⟩

/-! ### The table_ids of a class (42_section_header.md R300, 30_encoding.md R145) -/

/-- A byte is its high nibble before its low one. -/
theorem eq_append_of_highNibble {tid : Byte} {hi : BitVec 4} (h : tid.toNat / 16 = hi.toNat) :
    tid = hi ++ tid.extractLsb' 0 4 := by
  apply BitVec.eq_of_toNat_eq
  rw [BitVec.toNat_append, ← Nat.shiftLeft_add_eq_or_of_lt (BitVec.isLt _), Nat.shiftLeft_eq, extractLsb'_toNat_div]
  omega

theorem accepts_eit_iff (tid : Byte) : accepts .eit tid = true ↔ 0x4E#8 ≤ tid ∧ tid ≤ 0x6F#8 := by
  simp [accepts, BitVec.le_def]

section

variable {cls : TableClass} {tid : Byte}

theorem TableSelects.decodeTable_eq {i : Instr} (h : TableSelects cls tid i) : decodeTable cls tid = .ok i := by
  cases h with
  | eitSchAct low => revert low; decide
  | eitSchOth low => revert low; decide
  | _ => rfl

theorem TableSelects.accepts_eq {i : Instr} (h : TableSelects cls tid i) : accepts cls tid = true := by
  cases h with
  | eitSchAct low => revert low; decide
  | eitSchOth low => revert low; decide
  | _ => rfl

/-- Every table_id a class but ANY accepts has a row. -/
theorem exists_tableSelects (hany : cls ≠ .any) (ha : accepts cls tid = true) : ∃ i, TableSelects cls tid i := by
  cases cls with
  | pat =>
    obtain rfl : tid = 0x00#8 := by simpa [accepts] using ha
    exact ⟨_, .pat⟩
  | nit =>
    obtain rfl | rfl : tid = 0x40#8 ∨ tid = 0x41#8 := by simpa [accepts] using ha
    · exact ⟨_, .nitAct⟩
    · exact ⟨_, .nitOth⟩
  | sdt =>
    obtain rfl | rfl : tid = 0x42#8 ∨ tid = 0x46#8 := by simpa [accepts] using ha
    · exact ⟨_, .sdtAct⟩
    · exact ⟨_, .sdtOth⟩
  | eit =>
    obtain ⟨hmin, hmax⟩ : 0x4E ≤ tid.toNat ∧ tid.toNat ≤ 0x6F := by simpa [accepts] using ha
    obtain h | h | h | h : tid.toNat = 0x4E ∨ tid.toNat = 0x4F ∨ tid.toNat / 16 = 5 ∨ tid.toNat / 16 = 6 := by omega
    · obtain rfl : tid = 0x4E#8 := BitVec.eq_of_toNat_eq h
      exact ⟨_, .eitPfAct⟩
    · obtain rfl : tid = 0x4F#8 := BitVec.eq_of_toNat_eq h
      exact ⟨_, .eitPfOth⟩
    · rw [eq_append_of_highNibble (hi := 0x5#4) h]
      exact ⟨_, .eitSchAct _⟩
    · rw [eq_append_of_highNibble (hi := 0x6#4) h]
      exact ⟨_, .eitSchOth _⟩
  | none => cases ha
  | any => exact absurd rfl hany

theorem decodeTable_ok_iff (hany : cls ≠ .any) : (∃ i, decodeTable cls tid = .ok i) ↔ accepts cls tid = true := by
  refine ⟨fun ⟨_, hi⟩ => (decodeTable_ok hi).accepts_eq, fun ha => ?_⟩
  obtain ⟨i, hi⟩ := exists_tableSelects hany ha
  exact ⟨i, hi.decodeTable_eq⟩

end

/-- Settles O3: the table decoder answers the rows of R145's table and no others. -/
theorem tableDecoderAcceptsItsClass : Obligations.TableDecoderAcceptsItsClass := by
  unfold Obligations.TableDecoderAcceptsItsClass
  intro tid
  exact ⟨by simp [accepts], by simp [accepts], by simp [accepts], accepts_eit_iff tid, rfl,
    fun cls hany _ => decodeTable_ok_iff hany, rfl, rfl, TableSelects.pat.decodeTable_eq,
    TableSelects.nitAct.decodeTable_eq, TableSelects.nitOth.decodeTable_eq, TableSelects.sdtAct.decodeTable_eq,
    TableSelects.sdtOth.decodeTable_eq, TableSelects.eitPfAct.decodeTable_eq, TableSelects.eitPfOth.decodeTable_eq,
    fun low => ⟨(TableSelects.eitSchAct low).decodeTable_eq, (TableSelects.eitSchOth low).decodeTable_eq⟩⟩

end Sys2Proof.Machine

/-! PROOFS. The CRC-32 validator: its table form (O39) and its residual property (O40). -/

namespace Sys2Proof.Machine

/-! ### One byte of the table form (43_crc32.md R352) -/

/-- A register is its top byte, in place, over its low 24 bits. -/
theorem eq_topByte_xor_low (r : Word) :
    r = (((r >>> 24).setWidth 8).setWidth 32 <<< 24) ^^^ (r.setWidth 24).setWidth 32 := by
  apply BitVec.eq_of_getLsbD_eq
  intro i hi
  by_cases h : i < 24
  · simp [h, hi]
  · simp [h, hi, show i - 24 < 8 by omega, show i - 24 < 32 by omega, show 24 + (i - 24) = i by omega]

/-- Eight shifts push the top byte out and reduce it: the low 24 bits only move up. -/
theorem crcShift8_eq_table (r : Word) : crcShift8 r = (r <<< 8) ^^^ crcTable ((r >>> 24).setWidth 8) := by
  have hlow : crcShift8 ((r.setWidth 24).setWidth 32) = r <<< 8 := by
    rw [crcShift8_low fun i hi => by simp [show ¬i < 24 by omega]]
    apply BitVec.eq_of_getLsbD_eq
    intro i hi
    simp [show i - 8 < 24 by omega, show i - 8 < 32 by omega]
  calc crcShift8 r
      = crcTable ((r >>> 24).setWidth 8) ^^^ crcShift8 ((r.setWidth 24).setWidth 32) := by
        rw [crcTable, ← crcShift8_xor, ← eq_topByte_xor_low]
    _ = (r <<< 8) ^^^ crcTable ((r >>> 24).setWidth 8) := by rw [hlow, BitVec.xor_comm]

/-- The table is linear, as the iteration it stores is. -/
theorem crcTable_xor (i j : Byte) : crcTable (i ^^^ j) = crcTable i ^^^ crcTable j := by
  rw [crcTable, BitVec.setWidth_xor, BitVec.shiftLeft_xor_distrib, crcShift8_xor]
  rfl

theorem crcByteByTable_eq_crcByte : crcByteByTable = crcByte := by
  funext r b
  rw [crcByte_eq, crcShift8_eq_table, crcByteByTable, crcTable_xor, BitVec.xor_assoc]
  rfl

/-- Settles O39: the two forms are folds of the same byte step. -/
theorem crcTableFormAgrees : Obligations.CrcTableFormAgrees := by
  unfold Obligations.CrcTableFormAgrees
  refine ⟨crc32_eq_loops, fun bs => ?table, fun i => ?entry, by decide, by decide, by decide, by decide, by decide⟩
  case table => rw [crc32ByTable, crc32, crcByteByTable_eq_crcByte]
  case entry => exact congrArg crcShift8 BitVec.zero_xor.symm

/-! ### The residue of the stored CRC (43_crc32.md R353, 20_memory.md R106) -/

/-- Nothing is lost by eight shifts, so they give 0 from 0 only. -/
theorem crcShift8_eq_zero_iff (a : Word) : crcShift8 a = 0 ↔ a = 0 :=
  ⟨crcShift8_eq_zero, fun h => by rw [h]; rfl⟩

/-- Eight shifts move a byte below the top one place up. -/
theorem crcShift8_shifted_byte (b : Byte) {k : Nat} (hk : k ≤ 16) :
    crcShift8 (b.setWidth 32 <<< k) = b.setWidth 32 <<< (k + 8) := by
  rw [crcShift8_low fun i hi => ?above, BitVec.shiftLeft_add]
  case above =>
    rw [BitVec.getLsbD_shiftLeft, BitVec.getLsbD_setWidth, BitVec.getLsbD_of_ge b (i - k) (by omega)]
    simp

/-- One more byte of a big-endian number moves the others one place up. -/
theorem ofNat_mul_256_add (n : Nat) (b : Byte) :
    BitVec.ofNat 32 (256 * n + b.toNat) = (BitVec.ofNat 32 n <<< 8) ^^^ b.setWidth 32 := by
  apply BitVec.eq_of_getLsbD_eq
  intro i hi
  rw [BitVec.getLsbD_ofNat, show 256 * n = 2 ^ 8 * n from rfl, Nat.testBit_two_pow_mul_add n b.isLt,
    BitVec.getLsbD_xor, BitVec.getLsbD_shiftLeft, BitVec.getLsbD_ofNat, BitVec.getLsbD_setWidth]
  by_cases h : i < 8
  · simp [h, hi, BitVec.testBit_toNat]
  · simp [h, hi, show i - 8 < 32 by omega, BitVec.getLsbD_of_ge b i (by omega)]

/-- The stored word is its four bytes in place, the first at the top. -/
theorem ofNat_be_four (c0 c1 c2 c3 : Byte) :
    BitVec.ofNat 32 (be [c0, c1, c2, c3] 0 4) =
      (c0.setWidth 32 <<< 24) ^^^ (c1.setWidth 32 <<< 16) ^^^ (c2.setWidth 32 <<< 8) ^^^ c3.setWidth 32 := by
  rw [be_succ (by simp), be_succ (by simp), be_succ (by simp), be_succ (by simp), be_zero]
  simp [ofNat_mul_256_add, BitVec.shiftLeft_xor_distrib, ← BitVec.shiftLeft_add]

/-- Four more bytes enter the register as one word, the first at the top. -/
theorem foldl_crcByte_four (r : Word) (c0 c1 c2 c3 : Byte) :
    [c0, c1, c2, c3].foldl crcByte r =
      crcShift8 (crcShift8 (crcShift8 (crcShift8 (r ^^^ BitVec.ofNat 32 (be [c0, c1, c2, c3] 0 4))))) := by
  have hlast : crcShift8 (c3.setWidth 32) = c3.setWidth 32 <<< 8 := by
    simpa using crcShift8_shifted_byte c3 (Nat.zero_le 16)
  rw [ofNat_be_four]
  simp only [List.foldl_cons, List.foldl_nil, crcByte, crcShift8_xor, hlast, crcShift8_shifted_byte, BitVec.xor_assoc,
    Nat.reduceAdd, Nat.reduceLeDiff]

/-- Settles O40: the four bytes enter as one word, and the shifts of the register's difference from it lose nothing. -/
theorem crcResidualIsZeroExactlyWhenValid : Obligations.CrcResidualIsZeroExactlyWhenValid := by
  unfold Obligations.CrcResidualIsZeroExactlyWhenValid
  intro bs c0 c1 c2 c3
  rw [crc32_append, foldl_crcByte_four]
  simp only [crcShift8_eq_zero_iff]
  exact BitVec.xor_eq_zero_iff

end Sys2Proof.Machine

/-! PROOFS. The table bodies (O44, O45, O46, O47), the records and descriptors inside them (O48), and the fields of an
event (O50). -/

namespace Sys2Proof.Machine

/-! ### Counted overflows (42_section_header.md R302, 45_descriptors.md R450) -/

/-- Several occurrences of `overflow()`, written out. -/
theorem overflow_iterate (n : Nat) (w : Work) : overflow^[n] w = { w with
    notes := w.notes ++ List.replicate n .descriptorOverflow
    ovf := w.ovf || n != 0 } := by
  induction n generalizing w with
  | zero => simp
  | succ n ih => simp [ih, overflow, List.replicate_succ]

@[simp] theorem overflow_iterate_sec (n : Nat) (w : Work) : (overflow^[n] w).sec = w.sec := by rw [overflow_iterate]
@[simp] theorem overflow_iterate_src (n : Nat) (w : Work) : (overflow^[n] w).src = w.src := by rw [overflow_iterate]
@[simp] theorem overflow_iterate_index (n : Nat) (w : Work) : (overflow^[n] w).index = w.index := by
  rw [overflow_iterate]
@[simp] theorem overflow_iterate_tidExt (n : Nat) (w : Work) : (overflow^[n] w).tidExt = w.tidExt := by
  rw [overflow_iterate]
@[simp] theorem overflow_iterate_out (n : Nat) (w : Work) : (overflow^[n] w).out = w.out := by rw [overflow_iterate]

/-- A count of overflows that is not 0. -/
theorem overflow_iterate_pos {n : Nat} (hn : 0 < n) (w : Work) : overflow^[n] w = { w with
    notes := w.notes ++ List.replicate n .descriptorOverflow
    ovf := true } := by
  rw [overflow_iterate, bne_iff_ne.2 hn.ne', Bool.or_true]

/-! ### Fields that may not fit (45_descriptors.md R450) -/

/-- The big-endian field of `n` bytes at `a`, 0 if it passes `lim`. -/
def fieldOrZero (S : Bytes) (lim a n : Nat) : Nat := if a + n ≤ lim then be S a n else 0

/-- A word of the field's width keeps it whole. -/
theorem toNat_ofNat_fieldOrZero (S : Bytes) (lim a n : Nat) :
    (BitVec.ofNat (8 * n) (fieldOrZero S lim a n)).toNat = if a + n ≤ lim then be S a n else 0 := by
  rw [BitVec.toNat_ofNat, Nat.pow_mul, fieldOrZero]
  split
  · exact Nat.mod_eq_of_lt (be_lt S a n)
  · exact Nat.zero_mod _

theorem ofNat_be_one (S : Bytes) (a : Nat) : BitVec.ofNat 8 (be S a 1) = byteAt S a := by
  rw [be_one_eq, BitVec.ofNat_toNat, BitVec.setWidth_eq]

theorem ofNat_fieldOrZero_one (S : Bytes) (lim a : Nat) :
    BitVec.ofNat 8 (fieldOrZero S lim a 1) = if a + 1 ≤ lim then byteAt S a else 0 := by
  rw [fieldOrZero, apply_ite (BitVec.ofNat 8), ofNat_be_one]
  rfl

theorem Reader.skip_fit {r : Reader} {n : Nat} (h : r.cur + n ≤ r.lim) : r.skip n = ⟨r.cur + n, r.lim⟩ := by
  rw [Reader.skip, Nat.min_eq_left h]

/-- A field after `m` bytes of a reader, whether or not those bytes fit. -/
theorem readField_skip {n : Nat} (hn : 0 < n) (m : Nat) (r : Reader) (w : Work) :
    readField n (r.skip m) w = (fieldOrZero w.sec r.lim (r.cur + m) n, r.skip (m + n),
      overflow^[if r.lim < r.cur + (m + n) then 1 else 0] w) := by
  by_cases h : r.cur + m + n ≤ r.lim
  · rw [Reader.skip_fit (show r.cur + m ≤ r.lim by omega), readField_fit h, fieldOrZero, if_pos h, if_neg (by omega),
      Reader.skip_fit (show r.cur + (m + n) ≤ r.lim by omega), ← Nat.add_assoc]
    rfl
  · rw [readField_short (by rw [Reader.skip]; simp only; omega), fieldOrZero, if_neg h, if_pos (by omega),
      Reader.skip, Reader.skip, Nat.min_eq_right (show r.lim ≤ r.cur + (m + n) by omega)]
    rfl

/-- The first field of a section body (R313). -/
theorem readField_bodyReader (n : Nat) (w : Work) : readField n (bodyReader w) w =
    (fieldOrZero w.sec w.lim (w.tstart + 8) n, (bodyReader w).skip n,
      overflow^[if w.lim < w.tstart + 8 + n then 1 else 0] w) := by
  rw [readField_eq]
  by_cases h : w.tstart + 8 + n ≤ w.lim
  · simp [fieldOrZero, bodyReader, Reader.skip, h, Nat.not_lt.2 h]
  · simp [fieldOrZero, bodyReader, Reader.skip, h, Nat.not_le.1 h]

/-- How many of a body's fixed fields do not fit, given where each ends in the body. -/
def shortFields (w : Work) (ends : List Nat) : Nat := ends.countP fun k => w.lim < w.tstart + 8 + k

theorem shortFields_fit {w : Work} {ends : List Nat} {n : Nat} (hends : ∀ k ∈ ends, k ≤ n)
    (h : w.tstart + 8 + n ≤ w.lim) : shortFields w ends = 0 := by
  refine List.countP_eq_zero.2 fun k hk => ?_
  have := hends k hk
  simp only [decide_eq_true_eq]
  omega

theorem shortFields_pos {w : Work} {ends : List Nat} {n : Nat} (hn : n ∈ ends) (h : w.lim < w.tstart + 8 + n) :
    0 < shortFields w ends :=
  List.countP_pos_iff.2 ⟨n, hn, decide_eq_true h⟩

/-- A field that fits, over a reader given by its two ends. -/
theorem readField_mk_fit {n a l : Nat} (w : Work) (h : a + n ≤ l) :
    readField n ⟨a, l⟩ w = (be w.sec a n, ⟨a + n, l⟩, w) := readField_fit (r := ⟨a, l⟩) h

/-- A record loop over no bytes changes nothing. -/
theorem runRecords_skip_past {h : Nat} (hh : 0 < h) (body : Reader → Work → Reader × Work) {n : Nat} {r : Reader}
    (w : Work) (hr : r.lim < r.cur + n) : runRecords h body (r.skip n) w = w := by
  rw [Reader.skip, Nat.min_eq_right (Nat.le_of_lt hr), runRecords_end w (by simp only; omega), loopRemainder,
    if_neg (Nat.lt_irrefl _)]

/-- A descriptor loop keeps the section, its unit and its table_id_extension. -/
theorem descLoop_unit (loop : DescLoop) (r : Reader) (w : Work) : (descLoop loop r w).sec = w.sec ∧
    (descLoop loop r w).src = w.src ∧ (descLoop loop r w).index = w.index ∧
    (descLoop loop r w).tidExt = w.tidExt := by
  obtain ⟨hsec, hsrc, hindex, hext, -⟩ := (descLoop_grows loop (fun _ _ _ _ h => h) (.refl w) r).fields
  exact ⟨hsec, hsrc, hindex, hext⟩

/-! ### PAT (44_tables.md R380) -/

/-- The token of the PAT entry at `a`. -/
def patToken (src : BitVec 4) (index : Word) (S : Bytes) (a : Nat) : Token :=
  .patEntry src index (BitVec.ofNat 16 (be S a 2)) (BitVec.ofNat 3 (be S (a + 2) 2 / 8192))
    (BitVec.ofNat 13 (be S (a + 2) 2)) (be S a 2 == 0)

theorem patEntry_fit (r : Reader) (w : Work) (h : r.cur + 4 ≤ r.lim) :
    patEntry r w = (⟨r.cur + 4, r.lim⟩, w.emit (patToken w.src w.index w.sec r.cur)) := by
  obtain ⟨a, l⟩ := r
  simp only at h
  simp (disch := omega) only [patEntry, readField_mk_fit, Nat.add_assoc, Nat.reduceAdd, patToken]

/-- Settles O44: a PAT entry has the length of its header and emits one token. -/
theorem patBodyEmitsEveryEntry : Obligations.PatBodyEmitsEveryEntry := by
  unfold Obligations.PatBodyEmitsEveryEntry
  intro s w lo
  have hbody := runRecords_emit (by decide) patEntry_fit (bodyReader w) w
  exact congrArg (fun d => Host.Outcome.next { s with decoder := d }) hbody

/-! ### NIT (44_tables.md R385) -/

/-- The loop whose 12-bit length field stands at `a`, clipped to the body's end `lim`, and the working values after
reading the field (R385). -/
def lengthLoop (S : Bytes) (lim a : Nat) (v : Work) : Reader × Work :=
  let n := be S a 2 % 4096
  if lim < a + 2 then (⟨lim, lim⟩, overflow v)
  else if lim < a + 2 + n then (⟨a + 2, lim⟩, overflow v)
  else (⟨a + 2, a + 2 + n⟩, v)

/-- A length field and the span it measures are the loop at the field. -/
theorem readSpan_readField (lim a : Nat) (v : Work) :
    let f := readField 2 ⟨a, lim⟩ v
    let l := lengthLoop v.sec lim a v
    readSpan (f.1 % 4096) f.2.1 f.2.2 = (l.1, ⟨l.1.lim, lim⟩, l.2) := by
  intro f l
  by_cases hfield : a + 2 ≤ lim
  · simp only [f, l, lengthLoop, readField_fit (r := ⟨a, lim⟩) hfield, if_neg (Nat.not_lt.2 hfield)]
    by_cases hspan : a + 2 + be v.sec a 2 % 4096 ≤ lim
    · rw [readSpan_fit hspan, if_neg (Nat.not_lt.2 hspan)]
    · rw [readSpan_clip (Nat.not_le.1 hspan), if_pos (Nat.not_le.1 hspan)]
  · have hshort : lim < a + 2 := Nat.not_le.1 hfield
    simp only [f, l, lengthLoop, readField_short (r := ⟨a, lim⟩) hshort, if_pos hshort]
    exact readSpan_fit (Nat.le_refl lim)

theorem lengthLoop_sec (S : Bytes) (lim a : Nat) (v : Work) : (lengthLoop S lim a v).2.sec = v.sec := by
  simp only [lengthLoop]
  split
  · rfl
  · split <;> rfl

/-- The NIT body is its two loops, each where its length field says. -/
theorem nitBody_eq (w : Work) :
    let net := lengthLoop w.sec w.lim (w.tstart + 8) w
    let ts := lengthLoop w.sec w.lim net.1.lim (descLoop .nitNet net.1 net.2)
    nitBody w = runRecords 6 nitRecord ts.1 ts.2 := by
  intro net ts
  have hnet := readSpan_readField w.lim (w.tstart + 8) w
  have hts := readSpan_readField w.lim net.1.lim (descLoop .nitNet net.1 net.2)
  have hsec : (descLoop .nitNet net.1 net.2).sec = w.sec :=
    (descLoop_unit ..).1.trans (lengthLoop_sec ..)
  simp only [hsec] at hts
  simp only [nitBody, bodyReader, hnet]
  simp only [net, ts] at hts ⊢
  rw [hts]

/-- Settles O45: the two loops by their length fields, their tokens by what each loop can emit. -/
theorem nitBodyEmitsNamesThenServices : Obligations.NitBodyEmitsNamesThenServices := by
  unfold Obligations.NitBodyEmitsNamesThenServices
  intro s _
  obtain ⟨u, hnames, hservices⟩ := nitBody_grows s.decoder
  obtain ⟨-, hsrc, hindex, -⟩ := hnames.fields
  obtain ⟨names, m, ⟨hout, -⟩, hn⟩ := hnames
  obtain ⟨services, n, ⟨hout', -⟩, hs⟩ := hservices
  rw [hsrc, hindex] at hs
  exact ⟨{ s with decoder := nitBody s.decoder }, names, services, rfl, rfl, hout'.trans (by rw [hout]), hn, hs,
    nitBody_eq s.decoder⟩

/-! ### SDT (44_tables.md R395) -/

/-- The SDT body's two skipped fields, and the loop after them. -/
theorem sdtBody_eq (w : Work) :
    sdtBody w = runRecords 5 sdtRecord ((bodyReader w).skip 3) (overflow^[shortFields w [2, 3]] w) := by
  rw [sdtBody, readField_bodyReader]
  simp only [readField_skip Nat.zero_lt_one, bodyReader, shortFields, List.countP_cons, List.countP_nil,
    decide_eq_true_eq, Nat.zero_add, Nat.reduceAdd, Function.iterate_add_apply]

/-- Settles O46: both skipped fields fit, or no record does. -/
theorem sdtBodyDecodesItsRecords : Obligations.SdtBodyDecodesItsRecords := by
  unfold Obligations.SdtBodyDecodesItsRecords
  intro s _
  obtain ⟨ts, n, ⟨hout, -⟩, hts⟩ := sdtBody_grows s.decoder
  have hbody := sdtBody_eq s.decoder
  refine ⟨{ s with decoder := sdtBody s.decoder }, ts, rfl, rfl, hout, hts, fun hfit => ?fit, fun hshort => ?short⟩
  case fit => rwa [shortFields_fit (n := 3) (by decide) hfit, Reader.skip_fit hfit] at hbody
  case short =>
    have hsome : 0 < shortFields s.decoder [2, 3] := shortFields_pos (n := 3) (by decide) hshort
    rw [runRecords_skip_past (by decide) _ _ hshort, overflow_iterate_pos hsome] at hbody
    rw [hbody] at hout
    exact ⟨List.self_eq_append_right.1 hout, hbody⟩

/-! ### EIT (44_tables.md R405) -/

/-- The EIT_HDR of a section, with 0 for the fields that do not fit. -/
def eitHeader (w : Work) : Token :=
  .eitHdr w.src w.index w.tidExt (BitVec.ofNat 16 (fieldOrZero w.sec w.lim (w.tstart + 8) 2))
    (BitVec.ofNat 16 (fieldOrZero w.sec w.lim (w.tstart + 10) 2))
    (BitVec.ofNat 8 (fieldOrZero w.sec w.lim (w.tstart + 12) 1))
    (BitVec.ofNat 8 (fieldOrZero w.sec w.lim (w.tstart + 13) 1))

/-- The EIT body's four fields, its header token, and the events after it. -/
theorem eitBody_eq (w : Work) : eitBody w = runRecords 12 eitRecord ((bodyReader w).skip 6)
    ((overflow^[shortFields w [2, 4, 5, 6]] w).emit (eitHeader w)) := by
  rw [eitBody, readField_bodyReader]
  simp only [readField_skip Nat.zero_lt_two, readField_skip Nat.zero_lt_one, bodyReader, eitHeader, shortFields,
    List.countP_cons, List.countP_nil, decide_eq_true_eq, Nat.zero_add, Nat.add_assoc, Nat.reduceAdd,
    Function.iterate_add_apply, overflow_iterate_sec, overflow_iterate_src, overflow_iterate_index,
    overflow_iterate_tidExt]

/-- Settles O47: the four fields fit and events follow, or no event does. -/
theorem eitBodyEmitsHeaderThenEvents : Obligations.EitBodyEmitsHeaderThenEvents := by
  unfold Obligations.EitBodyEmitsHeaderThenEvents
  intro s low _ w lo
  have hbody : eitBody w = _ := eitBody_eq w
  obtain ⟨ts, n, ⟨hout, -⟩, hts⟩ := runRecords_grows eitRecord_grows
    (.refl ((overflow^[shortFields w [2, 4, 5, 6]] w).emit (eitHeader w))) ((bodyReader w).skip 6)
  rw [← hbody] at hout
  simp only [Work.emit_out, Work.emit_src, Work.emit_index, Work.emit_tidExt, overflow_iterate_out,
    overflow_iterate_src, overflow_iterate_index, overflow_iterate_tidExt] at hout hts
  refine ⟨{ s with decoder := eitBody w }, ts, _, _, _, _, rfl, rfl, rfl, rfl,
    hout.trans (List.append_assoc ..), hts, toNat_ofNat_fieldOrZero _ _ _ 2, toNat_ofNat_fieldOrZero _ _ _ 2,
    ofNat_fieldOrZero_one .., ofNat_fieldOrZero_one .., fun hfit => ?fit, fun hshort => ?short⟩
  case fit => rwa [shortFields_fit (n := 6) (by decide) hfit, Reader.skip_fit hfit] at hbody
  case short =>
    have hsome : 0 < shortFields w [2, 4, 5, 6] := shortFields_pos (n := 6) (by decide) hshort
    rw [runRecords_skip_past (by decide) _ _ hshort, overflow_iterate_pos hsome] at hbody
    rw [hbody] at hout
    exact ⟨List.self_eq_append_right.1 hout, hbody⟩

/-! ### The records, the descriptor loop and one descriptor (44_tables.md R385, R395, R405, 45_descriptors.md R452) -/

theorem nitRecord_fit {r : Reader} (w : Work) (h : r.cur + 6 ≤ r.lim) :
    let n := be w.sec (r.cur + 4) 2 % 4096
    let e := min (r.cur + 6 + n) r.lim
    nitRecord r w = (⟨e, r.lim⟩,
      descLoop .nitTs ⟨r.cur + 6, e⟩ (if r.cur + 6 + n ≤ r.lim then w else overflow w)) := by
  obtain ⟨a, l⟩ := r
  simp only at h
  simp (disch := omega) only [nitRecord, readField_mk_fit, readSpan_eq, Nat.add_assoc, Nat.reduceAdd]

theorem serviceRecord_eq (sid fb x : Nat) : serviceRecord sid fb x =
    ⟨BitVec.ofNat 16 sid, fb.testBit 1, fb.testBit 0, BitVec.ofNat 3 (x / 8192), x.testBit 12⟩ := by
  simp only [serviceRecord, Nat.testBit_eq_decide_div_mod_eq, Nat.pow_zero, Nat.div_one, Nat.pow_one, beq_eq_decide,
    Nat.reducePow]

theorem sdtRecord_fit {r : Reader} (w : Work) (h : r.cur + 5 ≤ r.lim) :
    let x := be w.sec (r.cur + 3) 2
    let e := min (r.cur + 5 + x % 4096) r.lim
    sdtRecord r w = (⟨e, r.lim⟩, descLoop .sdtSvc ⟨r.cur + 5, e⟩
      { (if r.cur + 5 + x % 4096 ≤ r.lim then w else overflow w) with
        record := serviceRecord (be w.sec r.cur 2) (be w.sec (r.cur + 2) 1) x }) := by
  obtain ⟨a, l⟩ := r
  simp only at h
  simp (disch := omega) only [sdtRecord, readField_mk_fit, readSpan_eq, Nat.add_assoc, Nat.reduceAdd]

theorem eitRecord_fit {r : Reader} (w : Work) (h : r.cur + 12 ≤ r.lim) :
    let x := be w.sec (r.cur + 10) 2
    let e := min (r.cur + 12 + x % 4096) r.lim
    eitRecord r w = (⟨e, r.lim⟩, emitEvent (be w.sec r.cur 2) (be w.sec (r.cur + 2) 5) (be w.sec (r.cur + 7) 3) x
      (descLoop .eitEvt ⟨r.cur + 12, e⟩
        { (if r.cur + 12 + x % 4096 ≤ r.lim then w else overflow w) with ev := EventAsm.new })) := by
  obtain ⟨a, l⟩ := r
  simp only at h
  simp (disch := omega) only [eitRecord, readField_mk_fit, readSpan_eq, Nat.add_assoc, Nat.reduceAdd]

theorem fetchDescriptor_eq {r : Reader} (w : Work) (h : r.cur + 2 ≤ r.lim) :
    let n := be w.sec (r.cur + 1) 1
    let e := min (r.cur + 2 + n) r.lim
    fetchDescriptor r w = (decodeDescriptor w.loop (byteAt w.sec r.cur),
      { (if r.cur + 2 + n ≤ r.lim then w else overflow w) with
        body := ⟨r.cur + 2, e⟩
        rd := ⟨e, r.lim⟩ }) := by
  refine Prod.ext (fetchDescriptor_fit h) ?_
  obtain ⟨a, l⟩ := r
  simp only at h
  simp (disch := omega) only [fetchDescriptor, readField_mk_fit, readSpan_eq, Nat.add_assoc, Nat.reduceAdd]

/-- Settles O48: each record's fields fit, and its span is clipped. -/
theorem recordsReadTheirHeaderAndLoop : Obligations.RecordsReadTheirHeaderAndLoop := by
  unfold Obligations.RecordsReadTheirHeaderAndLoop
  intro r w clip
  refine ⟨fun _ => rfl, nitRecord_fit w, fun h => ?sdt, fun h => ?eit, fetchDescriptor_eq w⟩
  case sdt =>
    intro x e fb
    rw [← serviceRecord_eq]
    exact sdtRecord_fit w h
  case eit =>
    intro x e v
    rw [eitRecord_fit w h]
    obtain ⟨-, hsrc, hindex, hext⟩ : v.sec = _ ∧ v.src = _ ∧ v.index = _ ∧ v.tidExt = _ := descLoop_unit ..
    simp only [clip, apply_ite Work.src, apply_ite Work.index, apply_ite Work.tidExt, overflow_src, overflow_index,
      overflow_tidExt, ite_self] at hsrc hindex hext
    rw [← hsrc, ← hindex, ← hext]
    rfl

/-! ### The fields of an event (44_tables.md R411, R412, R423, R424) -/

/-- Joining the present texts is joining all of them, an absent one being empty. -/
theorem flatten_filterMap_id (xs : List (Option Bytes)) :
    (xs.filterMap id).flatten = xs.flatMap fun x => x.getD [] := by
  induction xs with
  | nil => rfl
  | cons x xs ih =>
    cases x with
    | none => exact ih
    | some text => exact congrArg (text ++ ·) ih

/-- The extended text in ascending descriptor_number order (R412). -/
theorem extendedText_eq (ev : EventAsm) :
    extendedText ev = (List.finRange 16).flatMap fun d => (ev.ext[d]).getD [] := by
  rw [extendedText, flatten_filterMap_id]
  have htexts : ev.ext.toList = (List.finRange 16).map fun d => ev.ext[d] := List.ext_getElem (by simp) (by simp)
  rw [htexts, List.flatMap_map]

/-- The start's three BCD bytes as seconds of its day (R422). -/
theorem bcdSeconds_start (st : Nat) : bcdSeconds (st % 16777216) =
    3600 * bcd (st / 65536 % 256) + 60 * bcd (st / 256 % 256) + bcd (st % 256) := by
  simp only [bcdSeconds, show st % 16777216 / 65536 % 256 = st / 65536 % 256 by omega,
    show st % 16777216 / 256 % 256 = st / 256 % 256 by omega, show st % 16777216 % 256 = st % 256 by omega]

/-- The duration's three BCD bytes as seconds (R422). -/
theorem bcdSeconds_duration {du : Nat} (h : du < 2 ^ 24) : bcdSeconds du =
    3600 * bcd (du / 65536) + 60 * bcd (du / 256 % 256) + bcd (du % 256) := by
  rw [bcdSeconds, Nat.mod_eq_of_lt (show du / 65536 < 256 by omega)]

/-- The MJD of a 40-bit start time. -/
theorem startMjd {st : Nat} (h : st < 2 ^ 40) : st / 16777216 % 65536 = st / 2 ^ 24 := by omega

theorem startTime_eq {st : Nat} (h : st < 2 ^ 40) : startTime st = dateTime (mjdDate (st / 2 ^ 24 : Nat))
    (bcd (st / 65536 % 256)) (bcd (st / 256 % 256)) (bcd (st % 256)) := by
  rw [startTime, startMjd h]

/-- The finish is the time of day left, and the days carried over, of the start plus the duration (R423). -/
theorem finishTime_eq {st : Nat} (h : st < 2 ^ 40) (du : Nat) :
    let tot := bcdSeconds (st % 16777216) + bcdSeconds du
    finishTime st du = dateTime (mjdDate (st / 2 ^ 24 + tot / 86400 : Nat)) (tot % 86400 / 3600)
      (tot % 86400 % 3600 / 60) (tot % 86400 % 60) := by
  rw [finishTime, startMjd h]

/-- A time of day as hour, minute and second loses nothing. -/
theorem dateTime_seconds (date : Int × Int × Int) {t : Nat} (h : t < 86400) :
    let d := dateTime date (t / 3600) (t % 3600 / 60) (t % 60)
    d.hour.toNat * 3600 + d.minute.toNat * 60 + d.second.toNat = t := by
  simp only [dateTime, BitVec.toNat_ofNat]
  omega

theorem toNat_ofNat_bcd (b : Nat) : (BitVec.ofNat 8 (bcd b)).toNat = bcd b :=
  Nat.mod_eq_of_lt (Nat.lt_of_le_of_lt (bcd_le b) (by decide))

theorem toNat_ofNat_bcdSeconds (v : Nat) : (BitVec.ofNat 20 (bcdSeconds v)).toNat = bcdSeconds v :=
  Nat.mod_eq_of_lt (Nat.lt_of_le_of_lt (bcdSeconds_le v) (by decide))

/-- Settles O50: each field is wide enough for its value, and the finish is the start plus the duration. -/
theorem eventTokenReportsTheEvent : Obligations.EventTokenReportsTheEvent := by
  unfold Obligations.EventTokenReportsTheEvent
  intro sid eid st du x ev heid hst hdu hx e sod
  have hsecs : e.durSecs.toNat = bcdSeconds du := toNat_ofNat_bcdSeconds du
  have hstart : e.start = _ := startTime_eq hst
  have hfinish : e.finish = _ := finishTime_eq hst du
  rw [bcdSeconds_start, ← hsecs] at hfinish
  refine ⟨rfl, Nat.mod_eq_of_lt heid, Nat.mod_eq_of_lt hst, Nat.mod_eq_of_lt hdu, toNat_ofNat_bcd _,
    toNat_ofNat_bcd _, toNat_ofNat_bcd _, ?startDate, hsecs.trans (bcdSeconds_duration hdu),
    Nat.mod_eq_of_lt (by omega), ?freeCa, rfl, rfl, rfl, extendedText_eq ev, rfl, rfl, ?finishClock, _, rfl,
    ?finishDate⟩
  case startDate =>
    rw [hstart]
    rfl
  case freeCa => simp only [e, eventItem, Nat.testBit_eq_decide_div_mod_eq, beq_eq_decide, Nat.reducePow]
  case finishClock =>
    rw [hfinish]
    exact dateTime_seconds _ (Nat.mod_lt _ (by decide))
  case finishDate =>
    rw [hfinish]
    rfl

end Sys2Proof.Machine

/-! PROOFS. The descriptors: the rows that emit tokens (O51, O52), the rows that fill the event (O53, O54, O55) and the
rows that are skipped (O56). -/

namespace Sys2Proof.Machine

/-! ### Reads that may not fit, with their overflows counted (45_descriptors.md R450) -/

/-- How many overflows a read up to `stop` records: 0 if it keeps inside the limit, else 1. -/
def missed (lim stop : Nat) : Nat := if stop ≤ lim then 0 else 1

theorem missed_eq_zero_iff (lim stop : Nat) : missed lim stop = 0 ↔ stop ≤ lim := by
  rw [missed, ite_eq_left_iff, imp_iff_not Nat.one_ne_zero, not_not]

theorem readField_count (n : Nat) (r : Reader) (w : Work) : readField n r w =
    (fieldOrZero w.sec r.lim r.cur n, ⟨min (r.cur + n) r.lim, r.lim⟩, overflow^[missed r.lim (r.cur + n)] w) := by
  rw [readField_eq, fieldOrZero, missed]
  split <;> rfl

theorem readSpan_count (n : Nat) (r : Reader) (w : Work) : readSpan n r w =
    (⟨r.cur, min (r.cur + n) r.lim⟩, ⟨min (r.cur + n) r.lim, r.lim⟩, overflow^[missed r.lim (r.cur + n)] w) := by
  rw [readSpan_eq, missed]
  split <;> rfl

/-- A field at a cursor that stopped at the limit reads 0, as the field past the limit does. -/
theorem fieldOrZero_min {n : Nat} (hn : 0 < n) (S : Bytes) (lim a : Nat) :
    fieldOrZero S lim (min a lim) n = fieldOrZero S lim a n := by
  rcases Nat.le_total a lim with h | h
  · rw [Nat.min_eq_left h]
  · rw [Nat.min_eq_right h, fieldOrZero, fieldOrZero, if_neg (by omega), if_neg (by omega)]

theorem fieldOrZero_lt (S : Bytes) (lim a n : Nat) : fieldOrZero S lim a n < 256 ^ n := by
  rw [fieldOrZero]
  split
  · exact be_lt S a n
  · exact Nat.pow_pos (by decide)

theorem min_min_add (a k lim : Nat) : min (min a lim + k) lim = min (a + k) lim := by omega

/-! ### A text: a length byte, and as many bytes as it says (45_descriptors.md R465, R470, R473) -/

/-- The bytes of the text whose length byte stands at `a`, clipped to `lim`. -/
def textAt (S : Bytes) (lim a : Nat) : Reader :=
  ⟨min (a + 1) lim, min (min (a + 1) lim + fieldOrZero S lim a 1) lim⟩

/-- How many of a text's two reads, the length byte and the bytes, do not fit. -/
def textShort (S : Bytes) (lim a : Nat) : Nat :=
  missed lim (min (a + 1) lim + fieldOrZero S lim a 1) + missed lim (a + 1)

/-- A length byte and the span it measures are the text at the byte. -/
theorem readSpan_readByte (lim a : Nat) (v : Work) :
    let f := readField 1 ⟨a, lim⟩ v
    let x := textAt v.sec lim a
    readSpan f.1 f.2.1 f.2.2 = (x, ⟨x.lim, lim⟩, overflow^[textShort v.sec lim a] v) := by
  intro f x
  simp only [f, x, readField_count, readSpan_count, textAt, textShort, Function.iterate_add_apply]

theorem textAt_min (S : Bytes) (lim a : Nat) : textAt S lim (min a lim) = textAt S lim a := by
  rw [textAt, textAt, fieldOrZero_min Nat.one_pos, min_min_add]

theorem textShort_min (S : Bytes) (lim a : Nat) : textShort S lim (min a lim) = textShort S lim a := by
  have hbyte : missed lim (min a lim + 1) = missed lim (a + 1) := if_congr (by omega) rfl rfl
  rw [textShort, textShort, fieldOrZero_min Nat.one_pos, min_min_add, hbyte]

theorem textShort_eq_zero_iff (S : Bytes) (lim a : Nat) :
    textShort S lim a = 0 ↔ a + 1 + fieldOrZero S lim a 1 ≤ lim := by
  simp only [textShort, Nat.add_eq_zero_iff, missed_eq_zero_iff]
  omega

/-- How many of the reads of two texts, the first at `a`, do not fit. -/
def textsShort (S : Bytes) (lim a : Nat) : Nat := textShort S lim (textAt S lim a).lim + textShort S lim a

/-- Two texts after fixed fields of which `k` do not fit: all reads fit exactly when the fields and the first length byte
do (`q`), the first text leaves room for the second length byte, and the second text fits. -/
theorem textsShort_add_eq_zero_iff {S : Bytes} {lim a k : Nat} {q : Prop} (hq : q ↔ a + 1 ≤ lim ∧ k = 0) :
    let e := (textAt S lim a).lim
    textsShort S lim a + k = 0 ↔ q ∧ min (a + 1) lim + fieldOrZero S lim a 1 + 1 ≤ lim ∧
      min (e + 1) lim + fieldOrZero S lim e 1 ≤ lim := by
  intro e
  have hend : e = min (min (a + 1) lim + fieldOrZero S lim a 1) lim := rfl
  rw [show textsShort S lim a = textShort S lim e + textShort S lim a from rfl, Nat.add_eq_zero_iff, Nat.add_eq_zero_iff,
    textShort_eq_zero_iff, textShort_eq_zero_iff, hq]
  omega

/-! ### The rows with texts, as one update of the working values -/

@[simp] theorem overflow_iterate_record (n : Nat) (w : Work) : (overflow^[n] w).record = w.record := by
  rw [overflow_iterate]
@[simp] theorem overflow_iterate_ev (n : Nat) (w : Work) : (overflow^[n] w).ev = w.ev := by rw [overflow_iterate]

@[simp] theorem spanBytes_overflow_iterate (n : Nat) (w : Work) (r : Reader) :
    spanBytes (overflow^[n] w) r = spanBytes w r := by rw [spanBytes, overflow_iterate_sec, spanBytes]

theorem descService_eq (w : Work) :
    let lim := w.body.lim
    let c := w.body.cur + 1
    let provider := textAt w.sec lim c
    let name := textAt w.sec lim provider.lim
    descService w = (overflow^[textsShort w.sec lim c + missed lim c] w).emit
      (.sdtService w.src w.index w.record (BitVec.ofNat 8 (fieldOrZero w.sec lim w.body.cur 1))
        (spanBytes w provider) (spanBytes w name)) := by
  simp only [descService, readField_count 1 w.body, readSpan_readByte, textsShort,
    Function.iterate_add_apply, overflow_iterate_sec, overflow_iterate_src, overflow_iterate_index,
    overflow_iterate_record, spanBytes_overflow_iterate, textAt_min, textShort_min]

theorem descShortEvent_eq (w : Work) :
    let lim := w.body.lim
    let c := min (w.body.cur + 3) lim
    let name := textAt w.sec lim c
    let text := textAt w.sec lim name.lim
    descShortEvent w =
      { overflow^[textsShort w.sec lim c + missed lim (w.body.cur + 3)] w with ev := { w.ev with
        hasShort := true
        lang := BitVec.ofNat 24 (fieldOrZero w.sec lim w.body.cur 3)
        name := spanBytes w name
        text := spanBytes w text } } := by
  simp only [descShortEvent, readField_count 3 w.body, readSpan_readByte, textsShort,
    Function.iterate_add_apply, overflow_iterate_sec, overflow_iterate_ev, spanBytes_overflow_iterate]

theorem descExtendedEvent_eq (w : Work) :
    let lim := w.body.lim
    let c := min (w.body.cur + 4) lim
    let items := textAt w.sec lim c
    let text := textAt w.sec lim items.lim
    descExtendedEvent w =
      { overflow^[textsShort w.sec lim c +
          (missed lim (min (w.body.cur + 1) lim + 3) + missed lim (w.body.cur + 1))] w with
        ev := w.ev.setExt (Fin.ofNat 16 (fieldOrZero w.sec lim w.body.cur 1 / 16)) (spanBytes w text) } := by
  simp only [descExtendedEvent, readField_count 1 w.body, readField_count 3, readSpan_readByte, textsShort,
    Function.iterate_add_apply, overflow_iterate_sec, overflow_iterate_ev, spanBytes_overflow_iterate, min_min_add,
    Nat.add_assoc, Nat.reduceAdd]

/-- A row's meaning, from what its action makes of the working values. -/
theorem onDecoder_eq {f : Work → Work} {s : State} {w : Work} (h : f s.decoder = w) :
    onDecoder f s = .next { s with decoder := w } := by rw [onDecoder, h]

/-! ### The rows that emit tokens (45_descriptors.md R460, R462, R465) -/

/-- The token of the service-list entry at `a`. -/
def serviceListToken (src : BitVec 4) (index : Word) (S : Bytes) (a : Nat) : Token :=
  .nitService src index (BitVec.ofNat 16 (be S a 2)) (BitVec.ofNat 8 (be S (a + 2) 1))

theorem serviceListEntry_fit (r : Reader) (w : Work) (h : r.cur + 3 ≤ r.lim) :
    serviceListEntry r w = (⟨r.cur + 3, r.lim⟩, w.emit (serviceListToken w.src w.index w.sec r.cur)) := by
  obtain ⟨a, l⟩ := r
  simp only at h
  simp (disch := omega) only [serviceListEntry, readField_mk_fit, Nat.add_assoc, Nat.reduceAdd, serviceListToken]

/-- Settles O51: a network name is one token; a service-list entry has the length of its header and emits one token. -/
theorem nitDescriptorsEmitTheirTokens : Obligations.NitDescriptorsEmitTheirTokens := by
  unfold Obligations.NitDescriptorsEmitTheirTokens
  intro s w n
  have hlist := runRecords_emit (by decide) serviceListEntry_fit w.body w
  exact ⟨rfl, onDecoder_eq hlist⟩

/-- Settles O52: one fixed field and two texts are read, then the token is emitted. -/
theorem serviceDescriptorEmitsOneToken : Obligations.ServiceDescriptorEmitsOneToken := by
  unfold Obligations.ServiceDescriptorEmitsOneToken
  intro s _ w b byte p0 p1 n0 n1
  have hservice := descService_eq w
  simp only [overflow_iterate] at hservice
  refine ⟨_, onDecoder_eq hservice, ?_⟩
  exact textsShort_add_eq_zero_iff (by rw [missed_eq_zero_iff]; omega)

/-! ### The rows that fill the event (45_descriptors.md R470, R473, R476) -/

/-- Settles O53: one fixed field and two texts are read, then the event is updated. -/
theorem shortEventStoresItsTexts : Obligations.ShortEventStoresItsTexts := by
  unfold Obligations.ShortEventStoresItsTexts
  intro s _ w b byte c m0 m1 x0 x1
  have hevent := descShortEvent_eq w
  simp only [overflow_iterate] at hevent
  refine ⟨_, onDecoder_eq hevent, ?_⟩
  exact textsShort_add_eq_zero_iff (by rw [missed_eq_zero_iff]; omega)

/-- The text is stored under its own descriptor_number only. -/
theorem EventAsm.setExt_getElem (ev : EventAsm) (text : Bytes) {n : Nat} (hn : n < 16) (d : Fin 16) :
    (ev.setExt (Fin.ofNat 16 n) text).ext[d] = if d.val = n then some text else ev.ext[d] := by
  simp only [EventAsm.setExt, Fin.ofNat, Nat.mod_eq_of_lt hn, Fin.getElem_fin, Vector.getElem_set, eq_comm]

/-- Settles O54: two fixed fields and two texts are read, then the second text is stored. -/
theorem extendedEventStoresItsText : Obligations.ExtendedEventStoresItsText := by
  unfold Obligations.ExtendedEventStoresItsText
  intro s _ w b byte l i1 x0 x1
  have hevent := descExtendedEvent_eq w
  simp only [overflow_iterate] at hevent
  refine ⟨_, _, onDecoder_eq hevent, fun d => ?slot, ?fit⟩
  case slot =>
    exact w.ev.setExt_getElem _ (Nat.div_lt_of_lt_mul (fieldOrZero_lt w.sec b w.body.cur 1)) d
  case fit =>
    exact textsShort_add_eq_zero_iff (by simp only [Nat.add_eq_zero_iff, missed_eq_zero_iff]; omega)

/-- The content entry at `a`. -/
def contentAt (S : Bytes) (a : Nat) : ContentEntry :=
  ⟨BitVec.ofNat 4 (be S a 1 / 16), BitVec.ofNat 4 (be S a 1), BitVec.ofNat 8 (be S (a + 1) 1)⟩

/-- The content list lengthened. -/
def Work.addContent (w : Work) (xs : List ContentEntry) : Work :=
  { w with ev := { w.ev with content := w.ev.content ++ xs } }

theorem contentEntry_fit (r : Reader) (w : Work) (h : r.cur + 2 ≤ r.lim) :
    contentEntry r w = (⟨r.cur + 2, r.lim⟩, w.addContent [contentAt w.sec r.cur]) := by
  obtain ⟨a, l⟩ := r
  simp only at h
  simp (disch := omega) only [contentEntry, readField_mk_fit, Nat.add_assoc, Nat.reduceAdd, contentAt, Work.addContent]

theorem foldl_addContent (place : Nat → Nat) (ks : List Nat) (w : Work) :
    ks.foldl (fun w k => w.addContent [contentAt w.sec (place k)]) w =
      w.addContent (ks.map fun k => contentAt w.sec (place k)) := by
  induction ks generalizing w with
  | nil => simp [Work.addContent]
  | cons k ks ih =>
    rw [List.foldl_cons, ih]
    simp [Work.addContent]

/-- A remainder of `m` bytes, written out. -/
theorem remainder_eq (m : Nat) (w : Work) : (if m = 0 then id else overflow) w = { w with
    notes := w.notes ++ (if m = 0 then [] else [.descriptorOverflow])
    ovf := w.ovf || m != 0 } := by
  by_cases h : m = 0
  · simp [h]
  · simp [h, overflow]

/-- A content list's entries are added in order, and a remainder records the overflow. -/
theorem runRecords_contentEntry (r : Reader) (w : Work) :
    let n := r.lim - r.cur
    runRecords 2 contentEntry r w = (if n % 2 = 0 then id else overflow)
      (w.addContent ((List.range (n / 2)).map fun k => contentAt w.sec (r.cur + 2 * k))) := by
  rcases Nat.le_total r.cur r.lim with h | h
  · rw [runRecords_fixed Nat.two_pos (fun a w => w.addContent [contentAt w.sec a]) contentEntry_fit r w h,
      foldl_addContent]
  · rw [runRecords_end w (by omega), loopRemainder, if_neg (Nat.not_lt.2 h), Nat.sub_eq_zero_of_le h]
    simp [Work.addContent]

/-- Settles O55: a content entry has the length of its header and lengthens the list, which starts empty. -/
theorem contentDescriptorReplacesTheList : Obligations.ContentDescriptorReplacesTheList := by
  unfold Obligations.ContentDescriptorReplacesTheList
  intro s w n
  exact onDecoder_eq ((runRecords_contentEntry ..).trans (remainder_eq ..))

/-! ### The rows that are skipped (45_descriptors.md R480, R481) -/

/-- Settles O56: a row is its action on the decoder, and these rows' actions are the identity. -/
theorem skippedDescriptorsChangeNothing : Obligations.SkippedDescriptorsChangeNothing := by
  unfold Obligations.SkippedDescriptorsChangeNothing
  intro s loop tag
  exact ⟨exec_decoderRow rfl s, exec_decoderRow rfl s, exec_decoderRow rfl s, exec_decoderRow rfl s,
    exec_decoderRow rfl s⟩

end Sys2Proof.Machine

/-! PROOFS. The output: the tokens popped, in the FIFO and pending (O20), and the host's pop (O21). -/

namespace Sys2Proof.Machine

/-! ### The host's pop (46_output.md R525) -/

theorem tokPop_cons {s : State} {x : Token} {xs : List Token} (h : s.fifo = x :: xs) :
    tokPop s = { s.reply (.token x) with fifo := xs } := by
  rw [tokPop, h]

theorem tokPop_nil {s : State} (h : s.fifo = []) : tokPop s = s.reply .empty := by
  rw [tokPop, h]

/-! ### The steps that take a token out of the FIFO (46_output.md R525) -/

theorem waitRound_fifo (s : State) : (waitRound s).fifo = s.fifo := by rw [waitRound_eq]

/-- The engine only adds to the FIFO (R61 step 2). -/
theorem engineStep_fifo_prefix (s : State) : s.fifo <+: (engineStep s).fifo := by
  rcases engineStep_cases s with e | ⟨-, -, e⟩ | ⟨-, -, x, xs, -, e⟩
  · rw [e]
  · rw [e, completeCommand_fifo]
  · exact e ▸ List.prefix_append ..

theorem command_fifo {i : Instr} {s t : State} (hi : isCommand i = true) (ht : exec i s = .next t) :
    t.fifo = s.fifo := by
  rcases exec_command_cases hi ht with ⟨-, op, r, rfl, -, -⟩ | ⟨-, rfl⟩
  · exact startCommand_fifo op r s
  · exact dropWrite_fifo s

theorem hostStep_fifo {op : HostOp} (s : State) (h : op ≠ .tokPop) : (hostStep op s).fifo = s.fifo := by
  rcases hostStep_cases op s with ⟨r, e⟩ | ⟨x, xs, hop, -, -⟩ | e | ⟨e, -⟩ | ⟨a, v, -, -, -, e⟩ |
    ⟨off, v, -, -, e⟩ | ⟨off, v, r, -, -, -, -, e⟩
  · rw [e, State.reply_fifo]
  · exact absurd hop h
  · rw [e]
  · rw [e, dropWrite_fifo]
  · rw [e]
  · rw [e, clearStatus_fifo]
  · obtain ⟨-, -, -, hfifo⟩ := storeReg_keeps r v s
    rw [e, hfifo]

/-- A step leaves every token of the FIFO where it is, or is a pop, a round of `drain` or a reset. -/
theorem step_fifo {s t : State} (h : step s = .next t) :
    s.fifo <+: t.fifo ∨
      ∃ ms, s.schedule = .host .tokPop :: ms ∨ s.schedule = .drain :: ms ∨ s.schedule = .reset :: ms := by
  cases step_cases h with
  | decoder _ d e _ => exact .inl (e ▸ List.prefix_rfl)
  | close _ e => exact .inl (e ▸ List.prefix_rfl)
  | engine _ u hu e =>
    rcases hu with ⟨-, rfl⟩ | ⟨ms, -, rfl⟩
    · exact .inl (e ▸ engineStep_fifo_prefix _)
    · exact .inl (e ▸ engineStep_fifo_prefix { s with schedule := ms })
  | reset _ ms hs _ => exact .inr ⟨ms, .inr (.inr hs)⟩
  | wait _ ms _ e => exact .inl (by rw [e, waitRound_fifo])
  | drain _ ms hs _ => exact .inr ⟨ms, .inr (.inl hs)⟩
  | command _ ms v _ e => exact .inl (by rw [command_fifo (decodeCommand_isCommand v) e])
  | host _ ms op hs e =>
    by_cases hop : op = .tokPop
    · exact .inr ⟨ms, .inl (hop ▸ hs)⟩
    · exact .inl (by rw [e, hostStep_fifo _ hop])

/-- Settles O21, by the FIFO's head, and by what every other step leaves in the FIFO. -/
theorem popTakesTheHead : Obligations.PopTakesTheHead := by
  unfold Obligations.PopTakesTheHead
  exact fun s => ⟨fun x xs => tokPop_cons, tokPop_nil, fun t h hlt =>
    (step_fifo h).resolve_left fun hkept => absurd hkept.length_le (Nat.not_le.2 hlt)⟩

/-! ### The stream of tokens (46_output.md R520, R526) -/

theorem tokensRead_append (l l' : List Response) : tokensRead (l ++ l') = tokensRead l ++ tokensRead l' :=
  List.filterMap_append

/-- A reply that holds no token leaves the stream as it is. -/
theorem reply_stream (s : State) {r : Response} (h : tokensRead [r] = []) : (s.reply r).stream = s.stream := by
  simp [State.stream, tokensRead_append, h]

/-- A pop moves the head token to the end of what was popped. -/
theorem tokPop_stream (s : State) : (tokPop s).stream = s.stream := by
  cases hf : s.fifo with
  | nil => exact tokPop_nil hf ▸ reply_stream s rfl
  | cons x xs =>
    have hread : tokensRead [.token x] = [x] := rfl
    simp [tokPop_cons hf, State.stream, hf, tokensRead_append, hread]

theorem waitRound_stream (s : State) : (waitRound s).stream = s.stream := by
  rw [waitRound_eq]
  exact reply_stream s rfl

theorem drainRound_stream (s : State) : (drainRound s).stream = s.stream := by
  rw [drainRound_eq]
  split
  · exact tokPop_stream s
  · rfl

/-- A push moves the first pending token to the end of the FIFO, and completion finds none pending. -/
theorem engineStep_stream (s : State) : (engineStep s).stream = s.stream := by
  rcases engineStep_cases s with e | ⟨-, hp, e⟩ | ⟨-, -, x, xs, hp, e⟩
  · rw [e]
  · simp [e, State.stream, hp]
  · simp [e, State.stream, hp]

theorem storeReg_stream (r : CsrReg) (v : Word) (s : State) : (storeReg r v s).stream = s.stream := by
  cases r <;> rfl

theorem writeReg_stream (r : CsrReg) (v : Word) (s : State) : (writeReg r v s).stream = s.stream := by
  unfold writeReg
  repeat' split
  · rfl
  · exact storeReg_stream r v s
  · rfl
  · rfl

theorem hostStep_stream (op : HostOp) (s : State) : (hostStep op s).stream = s.stream := by
  cases op with
  | capWrite a v =>
    rw [hostStep, capWrite]
    repeat' split
    all_goals rfl
  | capRead a => exact reply_stream s rfl
  | csrWrite off v =>
    rw [hostStep, csrWrite]
    split
    · exact writeReg_stream _ v s
    · rfl
  | csrRead off => exact reply_stream s rfl
  | tokPop => exact tokPop_stream s

/-- The end of a section decode adds its tokens at the end of P. -/
theorem closeDecode_stream (s : State) : (closeDecode s).stream = s.stream ++ (endSection s.decoder).out := by
  simp [closeDecode, State.stream]

/-- A command accepted with nothing pending adds its tokens. -/
theorem startCommand_stream (op : BitVec 4) (r : ExecResult) {s : State} (h : s.pend = []) :
    (startCommand op r s).stream = s.stream ++ r.out := by
  simp [State.stream, h]

/-- What a step other than a reset does to the stream: it keeps it, or adds the tokens of a command it accepts or of a
section decode it ends. -/
inductive StreamStep (s t : State) : Prop where
  | keeps (h : t.stream = s.stream)
  | accept (hs : s.phase = .idle) (ht : t.phase = .busy) (new : List Token) (h : t.stream = s.stream ++ new)
  | close (hs : s.decoder.stage = .close) (new : List Token) (h : t.stream = s.stream ++ new)

theorem step_stream {s t : State} (hi : s.Inv) (h : step s = .next t) (hreset : ∀ ms, s.schedule ≠ .reset :: ms) :
    StreamStep s t := by
  cases step_cases h with
  | decoder _ d e _ => exact e ▸ .keeps rfl
  | close hst e => exact e ▸ .close hst _ (closeDecode_stream s)
  | engine _ u hu e =>
    rcases hu with ⟨-, rfl⟩ | ⟨ms, -, rfl⟩
    · exact e ▸ .keeps (engineStep_stream _)
    · exact e ▸ .keeps (engineStep_stream { s with schedule := ms })
  | reset _ ms hs _ => exact absurd hs (hreset ms)
  | wait _ ms _ e => exact e ▸ .keeps (waitRound_stream { s with schedule := ms })
  | drain _ ms _ e => exact e ▸ .keeps (drainRound_stream { s with schedule := ms })
  | command _ ms v _ e =>
    rcases exec_command_cases (decodeCommand_isCommand v) e with ⟨hp, op, r, rfl, -, -⟩ | ⟨-, rfl⟩
    · obtain ⟨hpend, -⟩ := hi.idleEmpty hp
      exact .accept hp rfl r.out (startCommand_stream op r (s := { s with schedule := ms }) hpend)
    · exact .keeps rfl
  | host _ ms op _ e => exact e ▸ .keeps (hostStep_stream op { s with schedule := ms })

/-- Settles O20, by what a step does to the stream. -/
theorem tokensAreNeverLostOrReordered : Obligations.TokensAreNeverLostOrReordered := by
  unfold Obligations.TokensAreNeverLostOrReordered
  intro s t hi h hreset
  cases step_stream hi h hreset with
  | keeps e => exact ⟨[], by rw [e, List.append_nil], fun hnew => absurd rfl hnew⟩
  | accept hs ht new e => exact ⟨new, e, fun _ => .inl ⟨hs, ht⟩⟩
  | close hs new e => exact ⟨new, e, fun _ => .inr hs⟩

end Sys2Proof.Machine

/-! PROOFS. Errors and completion (O16, O17, O18, O19, O23), reset (O57, O58) and safe runs (O60). -/

namespace Sys2Proof.Machine

/-! ### Runs (60_exceptions.md R612) -/

/-- Every step keeps the invariant, and so does every run. -/
theorem Reaches.inv {s t : State} (h : Reaches s t) (hs : s.Inv) : t.Inv := by
  induction h with
  | start => exact hs
  | step _ hstep ih => exact everyStepKeepsTheInvariant _ _ ih hstep

/-- Settles O60: the invariant along a run, and in every state a next step. -/
theorem everyRunIsSafe : Obligations.EveryRunIsSafe := by
  unfold Obligations.EveryRunIsSafe
  obtain ⟨-, goesOn⟩ : Obligations.NothingStopsTheBlock := nothingStopsTheBlock
  exact fun s hs t hreach => ⟨hreach.inv hs, goesOn t⟩

/-! ### The words of CMD, ERR_CODE, HWCFG and CAPSIZE (10_state.md R36, R51, R52) -/

/-- HWCFG by bits (R52). -/
theorem hwcfgWord_getLsbD (s : State) (i : Nat) : s.hwcfgWord.getLsbD i =
    if i < 4 then (BitVec.ofNat 4 s.inst.nCtx).getLsbD i
    else if i < 16 then false else (BitVec.ofNat 16 s.inst.secbufSize).getLsbD (i - 16) := by
  rw [State.hwcfgWord, BitVec.getLsbD_append, BitVec.getLsbD_append]
  by_cases h4 : i < 4
  · simp [h4]
  · by_cases h16 : i < 16
    · simp [h4, h16, show i - 4 < 12 by omega]
    · simp [h4, h16, show ¬i - 4 < 12 by omega, show i - 4 - 12 = i - 16 by omega]

theorem hwcfgWord_nCtx (s : State) : s.hwcfgWord.extractLsb' 0 4 = BitVec.ofNat 4 s.inst.nCtx := by
  refine BitVec.eq_of_getLsbD_eq fun i hi => ?_
  rw [BitVec.getLsbD_extractLsb', hwcfgWord_getLsbD, if_pos (by omega), Nat.zero_add, decide_eq_true hi, Bool.true_and]

theorem hwcfgWord_reserved (s : State) : s.hwcfgWord.extractLsb' 4 12 = 0#12 := by
  refine BitVec.eq_of_getLsbD_eq fun i hi => ?_
  rw [BitVec.getLsbD_extractLsb', hwcfgWord_getLsbD, if_neg (by omega), if_pos (by omega), Bool.and_false,
    BitVec.getLsbD_zero]

theorem hwcfgWord_secbufSize (s : State) : s.hwcfgWord.extractLsb' 16 16 = BitVec.ofNat 16 s.inst.secbufSize := by
  refine BitVec.eq_of_getLsbD_eq fun i hi => ?_
  rw [BitVec.getLsbD_extractLsb', hwcfgWord_getLsbD, if_neg (by omega), if_neg (by omega), Nat.add_sub_cancel_left,
    decide_eq_true hi, Bool.true_and]

/-- Inside R8's ranges HWCFG holds both parameters uncut (R52). -/
theorem hwcfgWord_toNat {s : State} (h : s.inst.Legal) :
    s.hwcfgWord.toNat = 65536 * s.inst.secbufSize + s.inst.nCtx := by
  obtain ⟨-, -, -, hctx, -, hbuf, -⟩ := h
  rw [State.hwcfgWord, BitVec.toNat_append, BitVec.toNat_append, ← Nat.shiftLeft_add_eq_or_of_lt (BitVec.isLt _),
    ← Nat.shiftLeft_add_eq_or_of_lt (BitVec.isLt _)]
  simp only [BitVec.toNat_ofNat, Nat.shiftLeft_eq]
  omega

/-! ### Completion (10_state.md R61, 60_exceptions.md R604) -/

/-- The slot of a context after completion: its results are Q's where Q has them, and its configuration stays. -/
theorem completeCommand_slot {s : State} {c : Nat} {x : CtxSlot} (hx : s.ctxs[c]? = some x) :
    ∃ y, (completeCommand s).ctxs[c]? = some y ∧
      (y.secs, y.last) = ((s.compl.ctxResults.getD [])[c]?).getD (x.secs, x.last) := by
  obtain ⟨y, hy, hres⟩ := writeCtxResults_getElem? (s.compl.ctxResults.getD []) hx
  refine ⟨{ y with ctx := Context.initial }, ?_, hres⟩
  rw [completeCommand_ctxs, clearContexts, List.getElem?_map, hy]
  rfl

/-- Completion leaves every CTX_CFG as it is (R61). -/
theorem completeCommand_cfgs (s : State) : (completeCommand s).ctxs.map CtxSlot.cfg = s.ctxs.map CtxSlot.cfg := by
  have h := congrArg (List.map Prod.fst) (writeCtxResults_keeps s.ctxs (s.compl.ctxResults.getD []))
  rw [List.map_map, List.map_map] at h
  rw [completeCommand_ctxs, clearContexts, List.map_map]
  exact h

theorem readReg_ctxCfg_congr {s t : State} (h : t.ctxs.map CtxSlot.cfg = s.ctxs.map CtxSlot.cfg) (c : Nat) :
    readReg t (.ctxCfg c) = readReg s (.ctxCfg c) := by
  have hc : t.ctxs[c]?.map CtxSlot.cfg = s.ctxs[c]?.map CtxSlot.cfg := by
    rw [← List.getElem?_map, h, List.getElem?_map]
  have hw := congrArg (Option.map CtxCfg.word) hc
  rw [Option.map_map, Option.map_map] at hw
  exact congrArg (Option.getD · 0) hw

/-- Completion leaves the configuration and CMD as they are. -/
theorem readReg_completeCommand (s : State) {r : CsrReg} (hr : isConfigReg r = true ∨ r = .cmd) :
    readReg (completeCommand s) r = readReg s r := by
  cases r with
  | ctxCfg c => exact readReg_ctxCfg_congr (completeCommand_cfgs s) c
  | cmd => rfl
  | ctrl => rfl
  | start => rfl
  | endOff => rfl
  | pidf => rfl
  | decClass => rfl
  | _ => exact (hr.elim nofun nofun)

/-- Settles O16: the words by bits, and the registers as the completing step leaves them. -/
theorem completionRecordsTheNotes : Obligations.CompletionRecordsTheNotes := by
  unfold Obligations.CompletionRecordsTheNotes
  refine ⟨rfl, fun s => ⟨rfl, rfl, hwcfgWord_nCtx s, hwcfgWord_reserved s, hwcfgWord_secbufSize s, rfl,
    fun hl => ⟨hwcfgWord_toNat hl, ?capsize⟩⟩, fun s hp hpend => ?completion⟩
  case capsize =>
    obtain ⟨-, hcap, -⟩ := hl
    exact Nat.mod_eq_of_lt (by omega)
  case completion =>
    rw [engineStep_complete hp hpend]
    refine ⟨?code, ?errCode, recordBits_getLsbD s.notes s.errs, ⟨rfl, rfl, rfl, rfl, rfl, rfl⟩, fun c x hx => ?ctx,
      rfl, rfl, rfl, State.capAt_congr rfl rfl rfl, fun r => readReg_completeCommand s⟩
    case code =>
      rw [completeCommand_errCode]
      cases s.notes <;> rfl
    case errCode =>
      rw [readReg, completeCommand_errCode]
      cases s.notes <;> rfl
    case ctx =>
      obtain ⟨y, hy, hres⟩ := completeCommand_slot hx
      dsimp only
      rw [← hres, readReg, readReg, hy]
      refine ⟨rfl, ?_⟩
      show y.last.code.setWidth 32 = _
      cases y.last <;> rfl

/-! ### What is seen before completion (60_exceptions.md R711, 20_memory.md R112) -/

/-- What the result registers show. -/
def State.results (s : State) : Word × Word × Word × Word × Word × Word × BitVec 4 × List (Word × CtxPhase) :=
  (s.syncOff, s.pktCount, s.pktKept, s.frPos, s.crcResult, s.secCount, s.errCode,
    s.ctxs.map fun x => (x.secs, x.last))

theorem readReg_of_results {s t : State} (h : t.results = s.results) {r : CsrReg} (hr : isResultReg r = true) :
    readReg t r = readReg s r := by
  simp only [State.results, Prod.mk.injEq] at h
  obtain ⟨hsync, hcount, hkept, hpos, hcrc, hsec, hcode, hctxs⟩ := h
  have hslot (c : Nat) : t.ctxs[c]?.map (fun x => (x.secs, x.last)) = s.ctxs[c]?.map fun x => (x.secs, x.last) := by
    rw [← List.getElem?_map, hctxs, List.getElem?_map]
  cases r with
  | syncOff => exact hsync
  | pktCount => exact hcount
  | pktKept => exact hkept
  | frPos => exact hpos
  | crcResult => exact hcrc
  | secCount => exact hsec
  | errCode => exact congrArg (BitVec.setWidth 32) hcode
  | ctxSecs c =>
    have hw := congrArg (Option.map Prod.fst) (hslot c)
    rw [Option.map_map, Option.map_map] at hw
    exact congrArg (Option.getD · 0) hw
  | ctxState c =>
    have hw := congrArg (Option.map fun p : Word × CtxPhase => p.2.code.setWidth 32) (hslot c)
    rw [Option.map_map, Option.map_map] at hw
    exact congrArg (Option.getD · 0) hw
  | _ => cases hr

/-- `t` shows the results of `s`, and no error bit but E_HAZARD is new. -/
structure State.KeepsResults (s t : State) : Prop where
  results : t.results = s.results
  errs : ∀ n, n ≠ 11 → t.errs.getLsbD n = true → s.errs.getLsbD n = true

theorem State.KeepsResults.of_eq {s t : State} (hr : t.results = s.results) (he : t.errs = s.errs) :
    s.KeepsResults t := ⟨hr, fun n _ h => by rwa [← he]⟩

theorem State.KeepsResults.of_withSchedule {s t : State} {ms : List Move}
    (h : State.KeepsResults { s with schedule := ms } t) : s.KeepsResults t := { h with }

theorem hazardBit_getLsbD {n : Nat} (h : n ≠ 11) : hazardBit.getLsbD n = false := by
  have hlow : ∀ i < 12, i ≠ 11 → hazardBit.getLsbD i = false := by decide
  by_cases hn : n < 12
  · exact hlow n hn h
  · exact BitVec.getLsbD_of_ge _ _ (by omega)

/-- A dropped write sets E_HAZARD only (R102). -/
theorem State.KeepsResults.dropWrite (s : State) : s.KeepsResults (dropWrite s) where
  results := rfl
  errs := fun n hn h => by
    rwa [dropWrite_errs, BitVec.getLsbD_or, hazardBit_getLsbD hn, Bool.or_false] at h

theorem State.KeepsResults.clearStatus (v : Word) (s : State) : s.KeepsResults (clearStatus v s) where
  results := rfl
  errs := fun n _ h => by
    rw [clearStatus_errs, BitVec.getLsbD_and, Bool.and_eq_true] at h
    exact h.1

theorem State.KeepsResults.storeReg (r : CsrReg) (v : Word) (s : State) : s.KeepsResults (storeReg r v s) := by
  cases r with
  | ctxCfg c =>
    have hctxs : (Machine.storeReg (.ctxCfg c) v s).ctxs.map (fun x => (x.secs, x.last)) =
        s.ctxs.map fun x => (x.secs, x.last) :=
      map_modify_of_eq (g := fun x => { x with cfg := CtxCfg.ofWord v }) (fun _ => rfl) c s.ctxs
    exact .of_eq (by rw [State.results, hctxs]; rfl) rfl
  | _ => exact .of_eq rfl rfl

theorem State.KeepsResults.tokPop (s : State) : s.KeepsResults (tokPop s) := by
  unfold Machine.tokPop
  split <;> exact .of_eq rfl rfl

theorem State.KeepsResults.drainRound (s : State) : s.KeepsResults (drainRound s) := by
  rw [drainRound_eq]
  split
  · exact { State.KeepsResults.tokPop s with }
  · exact .of_eq rfl rfl

/-- Acceptance changes no result register and no error bit (R61 step 1). -/
theorem State.KeepsResults.startCommand (op : BitVec 4) {e : ExecResult} {s : State} (he : e.Sound s) :
    s.KeepsResults (startCommand op e s) := by
  have hctxs := congrArg (List.map Prod.snd) he.regs
  rw [List.map_map, List.map_map] at hctxs
  have hctxs' : (Machine.startCommand op e s).ctxs.map (fun x => (x.secs, x.last)) =
      s.ctxs.map fun x => (x.secs, x.last) := hctxs
  exact .of_eq (by rw [State.results, hctxs']; rfl) rfl

theorem State.KeepsResults.hostStep (op : HostOp) (s : State) : s.KeepsResults (hostStep op s) := by
  rcases hostStep_cases op s with ⟨r, e⟩ | ⟨x, xs, -, -, e⟩ | e | ⟨e, -⟩ | ⟨a, v, -, -, -, e⟩ |
    ⟨off, v, -, -, e⟩ | ⟨off, v, r, -, -, -, -, e⟩ <;> rw [e]
  · exact .of_eq rfl rfl
  · exact .of_eq rfl rfl
  · exact .of_eq rfl rfl
  · exact .dropWrite s
  · exact .of_eq rfl rfl
  · exact .clearStatus v s
  · exact .storeReg r v s

/-- An engine step that does not complete a command pushes a token at most (R61 step 2). -/
theorem State.KeepsResults.engineStep {s : State}
    (h : ¬(s.phase = .busy ∧ s.pend = [] ∧ (engineStep s).phase = .idle ∧ (engineStep s).done = true)) :
    s.KeepsResults (engineStep s) := by
  rcases engineStep_cases s with e | ⟨hp, hpend, e⟩ | ⟨-, -, x, xs, -, e⟩
  · rw [e]
    exact .of_eq rfl rfl
  · exact absurd ⟨hp, hpend, e ▸ rfl, e ▸ rfl⟩ h
  · rw [e]
    exact .of_eq rfl rfl

/-- A step that is neither a reset nor a completion shows no new result. -/
theorem step_keepsResults {s t : State} (h : step s = .next t) (hreset : ∀ ms, s.schedule ≠ .reset :: ms)
    (hcomplete : ¬(s.phase = .busy ∧ s.pend = [] ∧ t.phase = .idle ∧ t.done = true)) : s.KeepsResults t := by
  cases step_cases h with
  | decoder _ d e _ => exact e ▸ .of_eq rfl rfl
  | close _ e => exact e ▸ .of_eq rfl rfl
  | engine _ u hu e =>
    subst e
    rcases hu with ⟨-, rfl⟩ | ⟨ms, -, rfl⟩
    · exact .engineStep hcomplete
    · exact (State.KeepsResults.engineStep hcomplete).of_withSchedule
  | reset _ ms hs _ => exact absurd hs (hreset ms)
  | wait _ ms _ e =>
    rw [e, waitRound_eq]
    exact .of_eq rfl rfl
  | drain _ ms _ e => exact e ▸ (State.KeepsResults.drainRound _).of_withSchedule
  | command _ ms v _ e =>
    rcases exec_command_cases (decodeCommand_isCommand v) e with ⟨-, op, r, rfl, -, hr⟩ | ⟨-, rfl⟩
    · exact (State.KeepsResults.startCommand op hr).of_withSchedule
    · exact (State.KeepsResults.dropWrite _).of_withSchedule
  | host _ ms op _ e => exact e ▸ (State.KeepsResults.hostStep op _).of_withSchedule

/-- Settles O17: every other step keeps what the result registers show, and sets E_HAZARD at most. -/
theorem resultsAppearOnlyAtCompletion : Obligations.ResultsAppearOnlyAtCompletion := by
  unfold Obligations.ResultsAppearOnlyAtCompletion
  intro s t h hreset hcomplete
  obtain ⟨hresults, herrs⟩ := step_keepsResults h hreset hcomplete
  exact ⟨fun r => readReg_of_results hresults, herrs⟩

/-! ### The engine's steps (70_reset_and_hazards.md R720, R712) -/

/-- The first `k` pending tokens moved to the tail of the FIFO. -/
def State.pushed (s : State) (k : Nat) : State :=
  { s with fifo := s.fifo ++ s.pend.take k, pend := s.pend.drop k }

/-- One push step more (R61 step 2). -/
theorem engineStep_pushed {s : State} (hp : s.phase = .busy)
    (hroom : s.fifo.length + s.pend.length ≤ s.inst.outDepth) {k : Nat} (hk : k < s.pend.length) :
    engineStep (s.pushed k) = s.pushed (k + 1) := by
  have hpend : (s.pushed k).pend = s.pend[k] :: s.pend.drop (k + 1) := List.drop_eq_getElem_cons hk
  have hfits : (s.pushed k).fifo.length < s.inst.outDepth := by
    rw [State.pushed, List.length_append, List.length_take_of_le (Nat.le_of_lt hk)]
    omega
  rw [engineStep_push (s := s.pushed k) hp hpend hfits, State.pushed, State.pushed, List.append_assoc,
    List.take_append_getElem]

/-- With room for them in the FIFO, the tokens of P take one push step each. -/
theorem engineStep_iterate_push {s : State} (hp : s.phase = .busy)
    (hroom : s.fifo.length + s.pend.length ≤ s.inst.outDepth) {k : Nat} (hk : k ≤ s.pend.length) :
    engineStep^[k] s = s.pushed k := by
  induction k with
  | zero => simp [State.pushed]
  | succ k ih => rw [Function.iterate_succ_apply', ih (Nat.le_of_succ_le hk), engineStep_pushed hp hroom hk]

/-- One more step completes the command, when all tokens are in the FIFO. -/
theorem engineStep_iterate_complete {s : State} (hp : s.phase = .busy)
    (hroom : s.fifo.length + s.pend.length ≤ s.inst.outDepth) :
    engineStep^[s.pend.length + 1] s = completeCommand { s with fifo := s.fifo ++ s.pend, pend := [] } := by
  have hall : s.pushed s.pend.length = { s with fifo := s.fifo ++ s.pend, pend := [] } := by
    rw [State.pushed, List.take_length, List.drop_length]
  rw [Function.iterate_succ_apply', engineStep_iterate_push hp hroom (Nat.le_refl _), hall]
  exact engineStep_complete hp rfl

/-- Settles O18, by one push step a token and the step that completes. -/
theorem commandCompletesOnceItsTokensFit : Obligations.CommandCompletesOnceItsTokensFit := by
  unfold Obligations.CommandCompletesOnceItsTokensFit
  refine ⟨fun s => engineStep_idle, fun s x xs => engineStep_push, fun s hp hroom => ?_⟩
  have hcomplete := engineStep_iterate_complete hp hroom
  refine ⟨hcomplete, ?_, ?_, fun k hk => ?_⟩
  · rw [hcomplete, completeCommand_phase]
  · rw [hcomplete, completeCommand_done]
  · rw [engineStep_iterate_push hp hroom hk]
    exact hp

/-- `wait` polls a busy block, then lets the engine move and polls again (R190, log 13). -/
theorem step_wait_busy {s : State} {ms : List Move} (hst : s.decoder.stage = .idle) (hs : s.schedule = .wait :: ms)
    (hp : s.phase = .busy) : step s = .next { s with
      schedule := .engine :: .wait :: ms
      hostLog := s.hostLog ++ [.csr (readReg s .status)] } := by
  rw [step_cons hst hs, fetchMove, Fetched.outcome, waitRound_eq, if_pos hp]
  rfl

theorem step_engine {s : State} {ms : List Move} (hst : s.decoder.stage = .idle) (hs : s.schedule = .engine :: ms) :
    step s = .next (engineStep { s with schedule := ms }) := step_cons hst hs

/-- Settles O19: the engine stands still, and a round of `wait` comes back to the poll it began with. -/
theorem fullFifoHangsAPollingHost : Obligations.FullFifoHangsAPollingHost := by
  unfold Obligations.FullFifoHangsAPollingHost
  intro s hp hpend hfull
  have hstill : engineStep s = s := engineStep_full hpend hfull
  refine ⟨hstill, fun hst hs => by rw [step_nil hst hs, hstill], fun ms hst hs => ?wait⟩
  case wait =>
    refine ⟨_, step_wait_busy hst hs hp, ?_⟩
    rw [hs]
    exact Eq.trans (step_engine hst rfl) (congrArg Host.Outcome.next (engineStep_full hpend hfull))

/-! ### Illegal regions (60_exceptions.md R608) -/

/-- On an illegal region a command computes nothing but its note (R608). -/
theorem checkRegion_illegal {s : State} (r : State → ExecResult) (h : ¬s.HasRegion) :
    checkRegion r s = badRegion s :=
  if_neg (mt (legalRegion_iff s).1 h)

/-- The five commands with a region are accept steps after the region check (R608). -/
theorem exec_regionCommand {i : Instr} (h : i = .findSync ∨ i = .parse ∨ i = .run ∨ i = .decode ∨ i = .crc) :
    ∃ r, ∀ s, exec i s = acceptCommand ((encode i).bits.setWidth 4) (checkRegion r) s := by
  rcases h with rfl | rfl | rfl | rfl | rfl <;> exact ⟨_, fun _ => rfl⟩

/-- Settles O23: the command has no tokens, so its first engine step completes it. -/
theorem illegalRegionRecordsBadRegion : Obligations.IllegalRegionRecordsBadRegion := by
  unfold Obligations.IllegalRegionRecordsBadRegion
  intro s i hi hp hr hcmd
  obtain ⟨r, hexec⟩ := exec_regionCommand hcmd
  rw [hexec, acceptCommand_idle _ _ hp, checkRegion_illegal r hr]
  exact ⟨_, rfl, rfl, engineStep_startCommand_empty hi hp _ _⟩

/-! ### Reset (70_reset_and_hazards.md R700, R701) -/

/-- An idle block without DONE and error bits raises no interrupt, and its STATUS reads 0 (R37, R38). -/
theorem status_clear {s : State} (hp : s.phase = .idle) (hd : s.done = false) (he : s.errs = 0) :
    s.statusWord = 0 ∧ s.irq = false := by
  have hfield : s.errField = 0 := by rw [State.errField, he]; rfl
  have hflag : s.errFlag = false := by rw [State.errFlag, hfield]; rfl
  have hirq : s.irq = false := by rw [State.irq, hd, hflag, Bool.and_false, Bool.and_false, Bool.or_false]
  refine ⟨?_, hirq⟩
  rw [State.statusWord, State.busy, hp, hd, hfield, hflag, hirq]
  decide

/-- The state after reset has R700's values, whatever the draw of CAPMEM, the moves to come and the log. -/
theorem initial_atReset (c : Instance) (n : Nat) (ms : List Move) (log : List Response) :
    State.AtReset { State.initial c with epoch := n, schedule := ms, hostLog := log } := by
  have hslot : ∀ k, k < c.nCtx → (State.initial c).ctxs[k]? = some CtxSlot.initial := fun k hk => by
    simp [State.initial, hk]
  refine ⟨⟨rfl, ?status, rfl, rfl, rfl, ?pidf, rfl⟩, ⟨rfl, rfl, rfl, rfl, rfl, rfl, rfl⟩, ⟨rfl, rfl⟩,
    ⟨List.length_replicate .., fun k hk => ?regs⟩, fun x hx => ?ctx, ⟨rfl, rfl, rfl, rfl, rfl, ?irq⟩, fun a ha => ?cap⟩
  case regs =>
    rw [readReg, readReg, readReg]
    dsimp only
    rw [hslot k hk]
    exact ⟨rfl, rfl, rfl⟩
  case ctx =>
    rw [List.eq_of_mem_replicate hx]
    rfl
  case status => exact (status_clear rfl rfl rfl).1
  case pidf =>
    show BitVec.ofBool false ++ 0#18 ++ 0#13 = 0#32
    decide
  case irq => exact (status_clear rfl rfl rfl).2
  case cap =>
    rw [State.capAt, if_pos ha]
    rfl

/-- Settles O57: the reset move's state is the initial one, but for the epoch, the moves to come and the log. -/
theorem resetGivesTheStatedValues : Obligations.ResetGivesTheStatedValues := by
  unfold Obligations.ResetGivesTheStatedValues
  exact ⟨initial_atReset Config.suggested 0 [] [], fun s ms hst hs =>
    ⟨_, step_cons hst hs, initial_atReset s.inst (s.epoch + 1) ms s.hostLog, rfl, rfl, rfl, rfl, rfl, rfl⟩⟩

/-- Settles O58: the sizes `State.reset` takes are inside R8's ranges. -/
theorem resetHasTheInvariant : Obligations.ResetHasTheInvariant := by
  unfold Obligations.ResetHasTheInvariant
  exact ⟨State.Inv.initial (by decide), fun _ => State.Inv.initial⟩

end Sys2Proof.Machine
